-- ==== Sys2Proof/Word.lean ====
section
/-! DEFINITION. The words of the block: bytes, bits, byte sequences, and the two 12-bit words
of the command port (00_scope.md R10, 30_encoding.md R80, R85). A `Code`, `NEXT_KEY` and the length of
a sequence are unbounded naturals (R10, R14), written `Nat`. -/

namespace Sys2Proof

/-- `Byte` of R10: 8 bits, unsigned. -/
abbrev Byte := BitVec 8

/-- `Bit` of R10: `true` is 1. -/
abbrev Bit := Bool

/-- `Seq` of R10: a finite list of bytes, index 0 first. -/
abbrev ByteSeq := List Byte

/-- A command word (R80): `OP` in bits 11:8, `IMM8` in bits 7:0. -/
abbrev CommandWord := BitVec 12

/-- A response word (R85): `KIND` in bits 11:8, `DATA` in bits 7:0. -/
abbrev ResponseWord := BitVec 12

end Sys2Proof
end

