-- ==== Sys2Proof/Config.lean ====
section
/-! DEFINITION. What an implementation fixes: the named parameters of 00_scope.md R7, each at the value
the spec chooses, and the one open value, `HASH_SEED`. `CODE_CAPACITY`, whose value an implementation
names, is the field `capacity` of State (log 5); here stands only its default. -/

namespace Sys2Proof.Config

/-- `ALPHABET` (R7): the number of single-byte seed entries. -/
def alphabet : Nat := 256

/-- `NK0` (R7, D2): the initial `NEXT_KEY` (log 2). -/
def firstKey : Nat := 256

/-- `MIN_WIDTH` (R7): the floor of the code width (log 2). -/
def minWidth : Nat := 9

/-- `WIDTH_KNEE` (R7): the argument below which the width is `MIN_WIDTH` (log 2). -/
def widthKnee : Nat := 512

/-- `HASH_WIDTH` (R7, D11): the width of the hash accumulator (log 4). -/
abbrev hashWidth : Nat := 32

end Sys2Proof.Config

namespace Sys2Proof

/-- The hash accumulator (40_sequence_key.md R104). -/
abbrev HashWord := BitVec Config.hashWidth

namespace Config

/-- `HASH_MULT` (R7): the Sequence Key hash multiplier (log 2). -/
def hashMult : HashWord := 31

/-- `HASH_SEED` (R7, D11): OPEN in the spec, so a constant without a value here (log 4). -/
opaque hashSeed : HashWord

/-- `EOI_PATTERN(w)` (30_encoding.md R73, D3): `w` one-bits (log 3). -/
def eoiPattern (w : Nat) : Nat := 2 ^ w - 1

/-- `SEED_MAP` (R7, D1): the code each single-byte sequence gets, the identity (log 2). -/
def seedCode (b : Byte) : Nat := b.toNat

/-- The forward table as seeded at reset (10_state.md R40): code `b` holds `[b]`. -/
def seedEntry (c : Nat) : Option ByteSeq :=
  if c < alphabet then some [BitVec.ofNat 8 c] else none

/-- The reverse table as seeded at reset (10_state.md R40): `[b]` is stored under `b`'s code. -/
def seedKey : ByteSeq → Option Nat
  | [b] => some (seedCode b)
  | _ => none

/-- The default of `CODE_CAPACITY` (R7, D10): `none` is unbounded (log 5). -/
def defaultCapacity : Option Nat := none

end Config
end Sys2Proof
end

