-- ==== Sys2Proof/Syntax.lean ====
section
/-! DEFINITION. The operations of the block: one constructor per row of spec/opcode_table.json. The
table has three kinds of rows (00_scope.md R13, 30_encoding.md R74): commands of the host, classes of
wire code the decoder distinguishes, and internal steps. Beside them the pseudo-commands of
30_encoding.md R88. -/

namespace Sys2Proof

/-- A Sequence Key (40_sequence_key.md R100): a byte list with its structural hash. -/
structure Key where
  bytes : ByteSeq
  hash : HashWord
  deriving DecidableEq, Repr

/-- One constructor per row of the opcode table. A command carries `IMM8`, which every command but
`WRB` ignores (R82). A wire code carries its value and the width it is read in (42_decoder.md R140).
An internal step carries the operands its rule names. -/
inductive Instr where
  -- commands (30_encoding.md R81)
  | wrb (imm8 : Byte)
  | rdb (imm8 : Byte)
  | close (imm8 : Byte)
  | flush (imm8 : Byte)
  | seek (imm8 : Byte)
  | getlen (imm8 : Byte)
  | getpos (imm8 : Byte)
  | setpos (imm8 : Byte)
  | reserved0 (imm8 : Byte)
  | reserved9 (imm8 : Byte)
  | reservedA (imm8 : Byte)
  | reservedB (imm8 : Byte)
  | reservedC (imm8 : Byte)
  | reservedD (imm8 : Byte)
  | reservedE (imm8 : Byte)
  | reservedF (imm8 : Byte)
  -- classes of wire code (30_encoding.md R74)
  | wireEoi (v : Nat) (w : Nat)
  | wireFirst (v : Nat) (w : Nat)
  | wireFirstCorrupt (v : Nat) (w : Nat)
  | wireKnown (v : Nat) (w : Nat)
  | wireUnseen (v : Nat) (w : Nat)
  | wireCorrupt (v : Nat) (w : Nat)
  -- internal steps (00_scope.md R13)
  | skFromByte (b : Byte)
  | skEq (s t : Key)
  | hash (s : ByteSeq)
  | skAppend (s : Key) (b : Byte)
  | skFromBytes (bs : ByteSeq)
  | learn (s : Key)
  | encodeStep (b : Byte)
  | encodeFlush
  | decodeStep (v : Nat) (w : Nat)
  | bits (n : Nat)
  | emitCode (c : Nat) (w : Nat)
  | emitEoi
  | readCode (w : Nat)
  deriving DecidableEq, Repr

/-- The six classes of wire code, in the order the decoder tests them (30_encoding.md R74). -/
inductive WireClass where
  | eoi | first | firstCorrupt | known | unseen | corrupt
  deriving DecidableEq, Repr

/-- The table row that a wire code of a class is. -/
def WireClass.instr : WireClass → Nat → Nat → Instr
  | .eoi, v, w => .wireEoi v w
  | .first, v, w => .wireFirst v w
  | .firstCorrupt, v, w => .wireFirstCorrupt v w
  | .known, v, w => .wireKnown v w
  | .unseen, v, w => .wireUnseen v w
  | .corrupt, v, w => .wireCorrupt v w

/-- The pseudo-commands of a listing (30_encoding.md R88). -/
inductive Pseudo where
  | wrs (bs : ByteSeq)
  | compress (bs : ByteSeq)
  | rdn (n : Nat)
  deriving DecidableEq, Repr

end Sys2Proof
end

