-- ==== Sys2Proof/Machine/SequenceKey.lean ====
section
/-! DEFINITION. The Sequence Key operations (40_sequence_key.md R100 to R106), as functions on keys.
Building a key changes none that exists (R101): keys are values. -/

namespace Sys2Proof.Machine

/-- `HASH_STEP(h, b)` (R104), wrapping at the accumulator's width. -/
def hashStep (h : HashWord) (b : Byte) : HashWord :=
  h * Config.hashMult + b.zeroExtend Config.hashWidth

/-- `HASH` (R104) from a given seed: the fold of `HASH_STEP` over the bytes in order. -/
def hashFrom (seed : HashWord) (s : ByteSeq) : HashWord := s.foldl hashStep seed

/-- `HASH(s)` (R104), from the open seed. -/
def hash (s : ByteSeq) : HashWord := hashFrom Config.hashSeed s

/-- `EMPTY` (R102): the starting value of a construction; never stored. -/
def emptyKey : Key := ⟨[], Config.hashSeed⟩

/-- SK_APPEND (R105): one byte longer, the hash updated once. -/
def skAppend (s : Key) (b : Byte) : Key := ⟨s.bytes ++ [b], hashStep s.hash b⟩

/-- SK_FROM_BYTE (R102). -/
def skFromByte (b : Byte) : Key := ⟨[b], hashStep Config.hashSeed b⟩

/-- SK_FROM_BYTES (R106); on the empty list, which the block never passes, it yields `EMPTY`. -/
def skFromBytes : ByteSeq → Key
  | [] => emptyKey
  | b :: bs => bs.foldl skAppend (skFromByte b)

/-- SK_EQ (R103): equality of the byte lists, never of the hashes. -/
def skEq (s t : Key) : Bool := decide (s.bytes = t.bytes)

/-- A key whose hash is that of its bytes (R100). -/
def keyConsistent (k : Key) : Bool := decide (k.hash = hash k.bytes)

end Sys2Proof.Machine
end

