-- ==== Sys2Proof/Machine/Width.lean ====
section
/-! DEFINITION. The adaptive width tracker (43_width_and_serdes.md R170 to R176) and the sentinel's
pattern (30_encoding.md R73). The tracker keeps no state of its own (10_state.md R33). -/

namespace Sys2Proof.Machine

/-- `bits(n)` (R170, R171): 9 below 512, else the exact ceiling of the base-2 logarithm. For `n ≥ 2`
the ceiling is one more than the floor for `n - 1`. -/
def bits (n : Nat) : Nat :=
  if n < Config.widthKnee then Config.minWidth else Nat.log2 (n - 1) + 1

/-- `WIDTH_ENC` (R172): the width of every code the encoder writes, the sentinel included. -/
def widthEnc (nextKey : Nat) : Nat := bits (nextKey - 1)

/-- `WIDTH_DEC` (R174): the width of every code the decoder reads. -/
def widthDec (nextKey : Nat) : Nat := bits (nextKey + 1)

/-- `EOI_PATTERN(w)` (30_encoding.md R73). -/
def eoiPattern (w : Nat) : Nat := Config.eoiPattern w

end Sys2Proof.Machine
end

