-- ==== Sys2Proof/WellFormed.lean ====
section
/-! DEFINITION. Which terms of `Instr` stand for something the block can meet. A command is well formed
whatever its `IMM8` (30_encoding.md R83). A wire code is a value of its width whose class condition,
as far as the value alone decides it, holds (30_encoding.md R74). An internal step's operands meet
their rule's bounds. -/

namespace Sys2Proof

/-- A width the tracker can give (43_width_and_serdes.md R170). -/
def widthOk (w : Nat) : Bool := decide (Config.minWidth ≤ w)

/-- An unsigned value of `w` bits (30_encoding.md R76), `w` a width of the tracker. -/
def valueOk (v : Nat) (w : Nat) : Bool := widthOk w && decide (v < 2 ^ w)

/-- A value that is not the sentinel's pattern (30_encoding.md R74, order 1). -/
def notEoi (v : Nat) (w : Nat) : Bool := decide (v ≠ Machine.eoiPattern w)

/-- A key that may be stored (40_sequence_key.md R100): at least one byte, and its own hash. -/
def keyOk (k : Key) : Bool := Machine.keyConsistent k && !k.bytes.isEmpty

/-- Well-formedness of an instruction. -/
def wellFormed : Instr → Bool
  | .wrb _ | .rdb _ | .close _ | .flush _ | .seek _ | .getlen _ | .getpos _ | .setpos _ => true
  | .reserved0 _ | .reserved9 _ | .reservedA _ | .reservedB _ => true
  | .reservedC _ | .reservedD _ | .reservedE _ | .reservedF _ => true
  | .wireEoi v w => widthOk w && decide (v = Machine.eoiPattern w)
  | .wireFirst v w => valueOk v w && notEoi v w && decide (v < Config.alphabet)
  | .wireFirstCorrupt v w => valueOk v w && notEoi v w && decide (Config.alphabet ≤ v)
  | .wireKnown v w => valueOk v w && notEoi v w
  | .wireUnseen v w => valueOk v w && notEoi v w && decide (Config.alphabet ≤ v)
  | .wireCorrupt v w => valueOk v w && notEoi v w && decide (Config.alphabet < v)
  | .skFromByte _ => true
  | .skEq s t => Machine.keyConsistent s && Machine.keyConsistent t
  | .hash _ => true
  | .skAppend s _ => Machine.keyConsistent s
  | .skFromBytes bs => !bs.isEmpty
  | .learn s => keyOk s
  | .encodeStep _ => true
  | .encodeFlush => true
  | .decodeStep v w => valueOk v w
  | .bits _ => true
  | .emitCode _ w => widthOk w
  | .emitEoi => true
  | .readCode w => widthOk w

end Sys2Proof
end

