-- ==== Sys2Proof/Decode.lean ====
section
/-! DEFINITION. The two encodings of 30_encoding.md: the 12-bit command word (R80 to R84) and the
variable-width wire code (R70 to R76), each with its decoder and its encoder. -/

namespace Sys2Proof

/-! ## Command words -/

/-- `OP`, bits 11:8 of a command word (R80). -/
def opField (x : CommandWord) : BitVec 4 := x.extractLsb' 8 4

/-- `IMM8`, bits 7:0 of a command word (R80). -/
def immField (x : CommandWord) : Byte := x.extractLsb' 0 8

/-- The command of an `OP` and an `IMM8` (R81): total, since `OP` 0x0 and 0x9 to 0xF are rows of
their own. -/
def decodeFields (op : BitVec 4) (imm : Byte) : Instr :=
  match op.toNat with
  | 0x0 => .reserved0 imm
  | 0x1 => .wrb imm
  | 0x2 => .rdb imm
  | 0x3 => .close imm
  | 0x4 => .flush imm
  | 0x5 => .seek imm
  | 0x6 => .getlen imm
  | 0x7 => .getpos imm
  | 0x8 => .setpos imm
  | 0x9 => .reserved9 imm
  | 0xA => .reservedA imm
  | 0xB => .reservedB imm
  | 0xC => .reservedC imm
  | 0xD => .reservedD imm
  | 0xE => .reservedE imm
  | _ => .reservedF imm

/-- The decoder of command words (R81, R84): every 12-bit word is one command. -/
def decodeWord (x : CommandWord) : Instr := decodeFields (opField x) (immField x)

/-- Why a number is no command word. -/
inductive DecodeError where
  /-- The number has a bit above bit 11, and a command is exactly one 12-bit word (R84). -/
  | widerThanCommandWord
  deriving DecidableEq, Repr

/-- The command word that a number's bits spell, bit 0 least significant (R80), or the reason there
is none. -/
def wordOfNat (w : Nat) : Except DecodeError CommandWord :=
  if w < 2 ^ 12 then .ok (BitVec.ofNat 12 w) else .error .widerThanCommandWord

/-- The instruction whose bits, numbered as the opcode table numbers them, are `w`. The table gives
bits to the command rows only. Its 12 bits come as two whole bytes, the upper four of them 0
(log 21). -/
def decodeTableWord (_nbits w : Nat) : Option Instr :=
  match wordOfNat w with
  | .ok x => some (decodeWord x)
  | .error _ => none

/-- `OP` and `IMM8` of a command (R81); wire codes and internal steps have none (R13). -/
def commandFields : Instr → Option (BitVec 4 × Byte)
  | .reserved0 i => some (0x0, i)
  | .wrb i => some (0x1, i)
  | .rdb i => some (0x2, i)
  | .close i => some (0x3, i)
  | .flush i => some (0x4, i)
  | .seek i => some (0x5, i)
  | .getlen i => some (0x6, i)
  | .getpos i => some (0x7, i)
  | .setpos i => some (0x8, i)
  | .reserved9 i => some (0x9, i)
  | .reservedA i => some (0xA, i)
  | .reservedB i => some (0xB, i)
  | .reservedC i => some (0xC, i)
  | .reservedD i => some (0xD, i)
  | .reservedE i => some (0xE, i)
  | .reservedF i => some (0xF, i)
  | .wireEoi _ _ | .wireFirst _ _ | .wireFirstCorrupt _ _ => none
  | .wireKnown _ _ | .wireUnseen _ _ | .wireCorrupt _ _ => none
  | .skFromByte _ | .skEq _ _ | .hash _ | .skAppend _ _ | .skFromBytes _ | .learn _ => none
  | .encodeStep _ | .encodeFlush | .decodeStep _ _ => none
  | .bits _ | .emitCode _ _ | .emitEoi | .readCode _ => none

/-- The command word of a command (R80): `OP` above `IMM8`. -/
def encodeCommand (i : Instr) : Option CommandWord :=
  (commandFields i).map fun f => f.1 ++ f.2

/-! ## Wire codes -/

/-- The code word of `c` in width `w` (R59, R71): `c[w-1]` first, `c[0]` last; bits of `c` from `w`
up are not written. -/
def codeBits (c : Nat) : Nat → List Bit
  | 0 => []
  | w + 1 => decide ((c >>> w) % 2 = 1) :: codeBits c w

/-- The value `bs` adds to an accumulator, first bit most significant (R76, R180). -/
def assembleFrom (acc : Nat) (bs : List Bit) : Nat :=
  bs.foldl (fun a b => 2 * a + b.toNat) acc

/-- The unsigned value of the bits of a code in arrival order (R76). -/
def assemble (bs : List Bit) : Nat := assembleFrom 0 bs

/-- The class of a wire code of value `v` read in width `w` (R74), the tests in the order given
there. `prev` and `nextKey` are the decoder's `PREV` and `NEXT_KEY`. -/
def wireClass (prev : Option ByteSeq) (nextKey : Nat) (v : Nat) (w : Nat) : WireClass :=
  if v = Machine.eoiPattern w then .eoi
  else match prev with
    | none => if v < Config.alphabet then .first else .firstCorrupt
    | some _ =>
      if v < nextKey then .known
      else if v = nextKey then .unseen
      else .corrupt

/-- The decoder of wire codes: the table row of the code whose bits are `bs`, all of one code. -/
def decodeWire (prev : Option ByteSeq) (nextKey : Nat) (bs : List Bit) : Instr :=
  (wireClass prev nextKey (assemble bs) bs.length).instr (assemble bs) bs.length

/-- The value and the width of a wire code. -/
def wireFields : Instr → Option (Nat × Nat)
  | .wireEoi v w | .wireFirst v w | .wireFirstCorrupt v w => some (v, w)
  | .wireKnown v w | .wireUnseen v w | .wireCorrupt v w => some (v, w)
  | .wrb _ | .rdb _ | .close _ | .flush _ | .seek _ | .getlen _ | .getpos _ | .setpos _ => none
  | .reserved0 _ | .reserved9 _ | .reservedA _ | .reservedB _ => none
  | .reservedC _ | .reservedD _ | .reservedE _ | .reservedF _ => none
  | .skFromByte _ | .skEq _ _ | .hash _ | .skAppend _ _ | .skFromBytes _ | .learn _ => none
  | .encodeStep _ | .encodeFlush | .decodeStep _ _ => none
  | .bits _ | .emitCode _ _ | .emitEoi | .readCode _ => none

/-- The bits of a wire code on the wire (R71). -/
def encodeWire (i : Instr) : Option (List Bit) := (wireFields i).map fun f => codeBits f.1 f.2

/-- The encoder: the bits of an instruction, most significant first. A command has 12, a wire code
its width; an internal step has no word of its own (R13) and gives none. -/
def encode (i : Instr) : List Bit :=
  match encodeCommand i with
  | some x => codeBits x.toNat 12
  | none => (encodeWire i).getD []

end Sys2Proof
end

