-- ==== Sys2Proof/Machine/State.lean ====
section
/-! DEFINITION. The state of the block, as plain data. The first eleven fields are the spec's
architectural state (10_state.md R20), `transfer` its transient state (R37); the rest is the model's
own: the parameter `CODE_CAPACITY`, the block's three ports, and the place where an internal step run
by itself leaves its result. -/

namespace Sys2Proof.Machine

/-- `MODE` (10_state.md R21): `COMPRESS` is 0, `DECOMPRESS` is 1. -/
inductive Mode where
  | compress | decompress
  deriving DecidableEq, Repr

/-- The fault codes 1 to 7 of 60_exceptions.md R240. Code 0, no fault, is `none` in State's `fault`. -/
inductive FaultCode where
  | corruptStream | unsupportedOperation | wrongMode | streamClosed
  | illegalCommand | capacityExceeded | bitIoError
  deriving DecidableEq, Repr

/-- What a command answers (30_encoding.md R85). -/
inductive Response where
  | ok
  | byte (b : Byte)
  | eod
  | fault (f : FaultCode)
  deriving DecidableEq, Repr

/-- The primitive's answer to one `write_bit` (20_memory.md R56, 60_exceptions.md R248). -/
inductive WriteAnswer where
  | accept | fail
  deriving DecidableEq, Repr

/-- The primitive's answer to one `read_bit` (20_memory.md R57, 60_exceptions.md R248). -/
inductive ReadAnswer where
  | bit (b : Bit)
  | endOfData
  | fail
  deriving DecidableEq, Repr

/-- For whom a code is being transferred: the current command, or an internal step run by itself
(log 15). -/
inductive Owner where
  | command | internalStep
  deriving DecidableEq, Repr

/-- A code transfer that waits for the primitive (10_state.md R37, 70_reset_and_hazards.md R291): the
serializer's bits still to write, or the deserializer's accumulator, its count of bits still to read
and the width of the code. -/
inductive Transfer where
  | write (rest : List Bit) (owner : Owner)
  | read (acc : Nat) (left : Nat) (width : Nat) (owner : Owner)
  deriving DecidableEq, Repr

/-- What an internal step returns (log 15). -/
inductive StepResult where
  | done
  | key (k : Key)
  | equal (b : Bool)
  | hash (h : HashWord)
  | width (w : Nat)
  /-- `NoCode` of 41_encoder.md R120. -/
  | noCode
  /-- `Code(c)` of 41_encoder.md R120. -/
  | code (c : Nat)
  /-- `Seq(s)` of 42_decoder.md R140. -/
  | seq (s : ByteSeq)
  /-- `EOI` of 42_decoder.md R140. -/
  | eoi
  /-- `Value(v)` of 43_width_and_serdes.md R180. -/
  | value (v : Nat)
  /-- `PHYS_END` of 43_width_and_serdes.md R180. -/
  | physEnd
  deriving DecidableEq, Repr

/-- The state of one block with its ports. -/
structure State where
  /-- `MODE` (R21). -/
  mode : Mode
  /-- `FWD` (R22): the learned entries, by rising code; an unlisted code reads as the seed (log 6). -/
  fwd : List (Nat × ByteSeq)
  /-- `REV` (R23): the learned keys, by rising rank; an unlisted key reads as the seed (log 6). -/
  rev : List (ByteSeq × Nat)
  /-- `NEXT_KEY` (R24). -/
  nextKey : Nat
  /-- `PENDING` (R27). -/
  pending : Option ByteSeq
  /-- `PREV` (R28). -/
  prev : Option ByteSeq
  /-- `OUTBUF` (R29). -/
  outbuf : ByteSeq
  /-- `CURSOR` (R29). -/
  cursor : Nat
  /-- `ENDED` (R30). -/
  ended : Bool
  /-- `CLOSED` (R34). -/
  closed : Bool
  /-- `FAULT` (R35); `none` is 0. -/
  fault : Option FaultCode
  /-- The transient state of a command that waits inside a code transfer (R37). -/
  transfer : Option Transfer
  /-- `CODE_CAPACITY` (00_scope.md R7); `none` is unbounded (log 5). -/
  capacity : Option Nat
  /-- The reset input, asserted with the mode input's value, or not asserted (log 13). -/
  resetInput : Option Mode
  /-- The host's command words that the block has not taken, the first to present first (log 10). -/
  commands : List CommandWord
  /-- The responses given since the last reset, oldest first (70_reset_and_hazards.md R285, log 11). -/
  responses : List ResponseWord
  /-- The responses given before the last reset (log 11). -/
  pastResponses : List ResponseWord
  /-- The bits the primitive has accepted since the last reset, first written first
  (70_reset_and_hazards.md R285, log 11). -/
  outBits : List Bit
  /-- The bits it had accepted before the last reset, which stay written (70_reset_and_hazards.md R280,
  log 11). -/
  pastBits : List Bit
  /-- The primitive's answers to the coming `write_bit` transfers (log 8). -/
  writeAnswers : List WriteAnswer
  /-- The primitive's answers to the coming `read_bit` transfers (log 8). -/
  readAnswers : List ReadAnswer
  /-- The result of the last internal step run by itself (log 15). -/
  result : Option StepResult
  deriving DecidableEq, Repr

/-- The machine's own stops, each in states that no run from reset reaches (log 18). Each is safe: the
spec gives the step no effect there. -/
inductive Fault where
  /-- Raised by ENCODE_STEP and ENCODE_FLUSH when `PENDING` is in `REV` for no code, or a single byte
  is not (41_encoder.md R124 says it never happens). Safe. -/
  | pendingAbsent
  /-- Raised by DECODE_STEP when a code below `NEXT_KEY`, or a first code below 256, has no entry
  (10_state.md R24 says it never happens). Safe. -/
  | codeAbsent
  /-- Raised by Learn, DECODE_STEP and RDB on an empty key (40_sequence_key.md R100 says none is
  stored). Safe. -/
  | emptyKey
  deriving DecidableEq, Repr

/-- Why an instruction is turned away without a meaning. -/
inductive Refusal where
  /-- Raised by exec's arm of an instruction that has no meaning in the model. Safe. -/
  | notModelled (mnemonic : String)
  /-- Raised by the WIRE_ rows in a state whose decoder puts that value into another class
  (30_encoding.md R74): such a row is then not the code that was read (log 16). Safe. -/
  | wrongClass
  deriving DecidableEq, Repr

/-- The outcome of a step of this machine. -/
abbrev Out := Host.Outcome State Fault Refusal

/-- The state after a reset with the mode input at `m` (10_state.md R40, 70_reset_and_hazards.md R280),
ports empty. -/
def State.resetIn (m : Mode) : State where
  mode := m
  fwd := []
  rev := []
  nextKey := Config.firstKey
  pending := none
  prev := none
  outbuf := []
  cursor := 0
  ended := false
  closed := false
  fault := none
  transfer := none
  capacity := Config.defaultCapacity
  resetInput := none
  commands := []
  responses := []
  pastResponses := []
  outBits := []
  pastBits := []
  writeAnswers := []
  readAnswers := []
  result := none

/-- The machine right after reset, with the mode input at `COMPRESS` (log 1). -/
def State.reset : State := State.resetIn .compress

end Sys2Proof.Machine
end

