-- ==== Sys2Proof/Machine/Flags.lean ====
section
/-! DEFINITION. The block has no flags (10_state.md R32). What stands for them is here: the numbers of
the modes and the fault codes, the packing `STATUS[7:0]` (R36), and the response word (30_encoding.md
R85). -/

namespace Sys2Proof.Machine

/-- The encoding of `MODE` (R21). -/
def modeBit : Mode → BitVec 1
  | .compress => 0
  | .decompress => 1

/-- The number of a fault code (60_exceptions.md R240). -/
def faultNumber : FaultCode → BitVec 3
  | .corruptStream => 1
  | .unsupportedOperation => 2
  | .wrongMode => 3
  | .streamClosed => 4
  | .illegalCommand => 5
  | .capacityExceeded => 6
  | .bitIoError => 7

/-- The faults that `FAULT` records (60_exceptions.md R241): codes 1, 6 and 7. -/
def isSticky : FaultCode → Bool
  | .corruptStream | .capacityExceeded | .bitIoError => true
  | .unsupportedOperation | .wrongMode | .streamClosed | .illegalCommand => false

/-- The 3-bit field `FAULT` (R35): 0 for no fault. -/
def faultField (f : Option FaultCode) : BitVec 3 :=
  match f with
  | none => 0
  | some f => faultNumber f

/-- `STATUS[7:0]` (R36): bit 0 `MODE`, bit 1 `CLOSED`, bit 2 `ENDED`, bits 5:3 `FAULT`, bits 7:6 zero. -/
def statusWord (s : State) : BitVec 8 :=
  (0 : BitVec 2) ++ faultField s.fault ++ BitVec.ofBool s.ended ++ BitVec.ofBool s.closed ++ modeBit s.mode

/-- The response word (30_encoding.md R85): `KIND` above `DATA`. -/
def responseWord : Response → ResponseWord
  | .ok => 0x000
  | .byte b => (0x1 : BitVec 4) ++ b
  | .eod => 0x200
  | .fault f => (0xF : BitVec 4) ++ (0 : BitVec 5) ++ faultNumber f

/-- The fault code of a number, none for 0. -/
def faultOfNumber (n : BitVec 3) : Option FaultCode :=
  match n.toNat with
  | 1 => some .corruptStream
  | 2 => some .unsupportedOperation
  | 3 => some .wrongMode
  | 4 => some .streamClosed
  | 5 => some .illegalCommand
  | 6 => some .capacityExceeded
  | 7 => some .bitIoError
  | _ => none

/-- How a host reads a response word (R85). A word the block never produces, a `KIND` of 0x3 to 0xE
among them, is refused (93_implementation_defined.md part 2). -/
def readResponse (x : ResponseWord) : Option Response :=
  match (opField x).toNat, immField x with
  | 0x0, d => if d = 0 then some .ok else none
  | 0x1, d => some (.byte d)
  | 0x2, d => if d = 0 then some .eod else none
  | 0xF, d => if d.toNat < 8 then (faultOfNumber (d.extractLsb' 0 3)).map .fault else none
  | _, _ => none

end Sys2Proof.Machine
end

