-- ==== Sys2Proof/Machine/Ops.lean ====
section
/-! DEFINITION. The named operations over the dictionary and the ports: reading and writing the two
tables (20_memory.md R51 to R54), answering a command, and raising a fault, the block's one trap
mechanism (60_exceptions.md R241, R252). -/

namespace Sys2Proof.Machine

/-! ## Tables

A table lists (key, value) entries in rising order of a rank of the key, and no entry that says what
the seeding says already; so equal tables are equal lists (log 6). -/

/-- The value a list of entries holds at a key. -/
def findEntry {κ β : Type} [DecidableEq κ] (k : κ) : List (κ × β) → Option β
  | [] => none
  | e :: t => if e.1 = k then some e.2 else findEntry k t

/-- The entry put at its place, an older entry of the same rank replaced. -/
def putEntry {κ β : Type} (rank : κ → Nat) (k : κ) (v : β) : List (κ × β) → List (κ × β)
  | [] => [(k, v)]
  | e :: t =>
    if rank k < rank e.1 then (k, v) :: e :: t
    else if rank k = rank e.1 then (k, v) :: t
    else e :: putEntry rank k v t

/-- The list without the entry of a key. -/
def dropEntry {κ β : Type} [DecidableEq κ] (k : κ) : List (κ × β) → List (κ × β)
  | [] => []
  | e :: t => if e.1 = k then t else e :: dropEntry k t

/-- What a table reads at a key: its entry, else what the seeding says. -/
def readTable {κ β : Type} [DecidableEq κ] (seed : κ → Option β) (t : List (κ × β)) (k : κ) : Option β :=
  match findEntry k t with
  | some v => some v
  | none => seed k

/-- A table with `v` at `k`: a value the seeding gives is not listed. -/
def writeTable {κ β : Type} [DecidableEq κ] [DecidableEq β] (rank : κ → Nat) (seed : κ → Option β)
    (k : κ) (v : β) (t : List (κ × β)) : List (κ × β) :=
  if seed k = some v then dropEntry k t else putEntry rank k v t

/-- The canonical form of a table. -/
abbrev tableWf {κ β : Type} [DecidableEq β] (rank : κ → Nat) (seed : κ → Option β)
    (t : List (κ × β)) : Prop :=
  t.Pairwise (fun a b => rank a.1 < rank b.1) ∧ ∀ e ∈ t, seed e.1 ≠ some e.2

/-- The rank of a code in the forward table: itself. -/
def codeRank (c : Nat) : Nat := c

/-- The rank of a key in the reverse table: shorter keys first, equally long ones in order of their
bytes. Distinct keys have distinct ranks. -/
def keyRank (k : ByteSeq) : Nat := k.foldl (fun r b => 256 * r + b.toNat + 1) 0

/-! ## The dictionary -/

/-- `FWD[c]` (20_memory.md R51). -/
def fwdRead (s : State) (c : Nat) : Option ByteSeq := readTable Config.seedEntry s.fwd c

/-- `REV[k]` (R52): the key is found by equality of bytes (40_sequence_key.md R108). -/
def revRead (s : State) (k : ByteSeq) : Option Nat := readTable Config.seedKey s.rev k

/-- `FWD[c] <- k`. -/
def fwdWrite (c : Nat) (k : ByteSeq) (s : State) : State :=
  { s with fwd := writeTable codeRank Config.seedEntry c k s.fwd }

/-- `REV[k] <- c`. -/
def revWrite (k : ByteSeq) (c : Nat) (s : State) : State :=
  { s with rev := writeTable keyRank Config.seedKey k c s.rev }

/-- `DictInsert(c, k)` (R53): both tables in one step; `REV` keeps an older code of `k`. -/
def dictInsert (c : Nat) (k : ByteSeq) (s : State) : State :=
  match revRead s k with
  | some _ => fwdWrite c k s
  | none => revWrite k c (fwdWrite c k s)

/-- The dictionary memory in canonical form. -/
abbrev Memory.wf (s : State) : Prop :=
  tableWf codeRank Config.seedEntry s.fwd ∧ tableWf keyRank Config.seedKey s.rev

/-! ## Responses and faults -/

/-- `Respond(r)` (00_scope.md R11): the current command completes with `r`. -/
def respond (r : Response) (s : State) : State :=
  { s with responses := s.responses ++ [responseWord r] }

/-- `FAULT <- f` for a sticky fault (60_exceptions.md R241). A stored fault is never changed
(10_state.md R35, log 19). -/
def storeFault (f : FaultCode) (s : State) : State :=
  match s.fault with
  | some _ => s
  | none => { s with fault := some f }

/-- `raise f` (R241, R252): a sticky fault is stored, and the command completes with `FAULT(f)`. -/
def raise (f : FaultCode) (s : State) : State :=
  if isSticky f then respond (.fault f) (storeFault f s) else respond (.fault f) s

/-- An internal step run by itself leaves its result (log 15). -/
def giveResult (r : StepResult) (s : State) : State := { s with result := some r }

/-- The block holds: the transfer waits for the primitive (70_reset_and_hazards.md R291). -/
def hold (t : Transfer) (s : State) : State := { s with transfer := some t }

/-! ## Internal steps

An internal step gives a value and goes on, raises a fault of R240, or meets a state in which the
spec gives it no effect. -/

/-- How an internal step ends. -/
inductive Res (α : Type) where
  | val (a : α) (s : State)
  | raised (f : FaultCode) (s : State)
  | stuck (f : Fault)

/-- One internal step after another. -/
def andThen {α β : Type} (r : Res α) (k : α → State → Res β) : Res β :=
  match r with
  | .val a s => k a s
  | .raised f s => .raised f s
  | .stuck f => .stuck f

/-- The end of a command or a step: a raised fault is taken, a value goes to `k`. -/
def settleWith {α : Type} (r : Res α) (k : α → State → Out) : Out :=
  match r with
  | .val a s => k a s
  | .raised f s => .next (raise f s)
  | .stuck f => .fault f

/-- The end of an internal step run by itself. -/
def settleStep (r : Res StepResult) : Out := settleWith r fun a s => .next (giveResult a s)

/-- Whether `NEXT_KEY >= CODE_CAPACITY` (20_memory.md R54). -/
def dictionaryFull (s : State) : Bool :=
  match s.capacity with
  | none => false
  | some n => decide (n ≤ s.nextKey)

/-- `Learn(k)` (R54): the capacity test before any write, then the insertion under `NEXT_KEY`. An
empty key is never stored (40_sequence_key.md R100). -/
def learn (k : Key) (s : State) : Res Unit :=
  if k.bytes = [] then .stuck .emptyKey
  else if dictionaryFull s then .raised .capacityExceeded s
  else .val () { dictInsert s.nextKey k.bytes s with nextKey := s.nextKey + 1 }

end Sys2Proof.Machine
end

