-- ==== Sys2Proof/Machine/Operands.lean ====
section
/-! DEFINITION. The operand forms of the block: the byte of a command (30_encoding.md R82), the code on
the bit port (R71, R76; its bits are `codeBits` and `assemble` of Decode.lean), and the transfers that
carry its bits one by one (20_memory.md R56, R57, 43_width_and_serdes.md R177, R180). There are no
register operands and nothing is sign-extended (R82). -/

namespace Sys2Proof.Machine

/-- The byte a command carries: `IMM8` as is (R82). -/
def byteOperand (imm8 : Byte) : Byte := imm8

/-- How the writing of bits ends: all accepted, one failed, or the rest waits. -/
inductive WriteEnd where
  | done
  | failed
  | waits (rest : List Bit)
  deriving DecidableEq, Repr

/-- `BitWrite` of each bit in order (43_width_and_serdes.md R177). A bit the primitive accepts is on
the output; one it fails is not (60_exceptions.md R248, log 9); with no answer the transfer waits. -/
def pushBits : List Bit → State → WriteEnd × State
  | [], s => (.done, s)
  | b :: bs, s =>
    match s.writeAnswers with
    | [] => (.waits (b :: bs), s)
    | .accept :: as => pushBits bs { s with writeAnswers := as, outBits := s.outBits ++ [b] }
    | .fail :: as => (.failed, { s with writeAnswers := as })

/-- How the reading of a code ends (43_width_and_serdes.md R180): a value, the physical end, a failed
transfer, or a wait with the accumulator and the count of bits still to read. -/
inductive ReadEnd where
  | value (v : Nat)
  | physEnd
  | failed
  | waits (acc : Nat) (left : Nat)
  deriving DecidableEq, Repr

/-- `BitRead` of `left` more bits into an accumulator (R180). A bit read is consumed (20_memory.md
R57); the bits before a physical end are discarded (R181). -/
def pullBits : Nat → Nat → State → ReadEnd × State
  | 0, acc, s => (.value acc, s)
  | left + 1, acc, s =>
    match s.readAnswers with
    | [] => (.waits acc (left + 1), s)
    | .bit b :: as => pullBits left (2 * acc + b.toNat) { s with readAnswers := as }
    | .endOfData :: as => (.physEnd, { s with readAnswers := as })
    | .fail :: as => (.failed, { s with readAnswers := as })

end Sys2Proof.Machine
end

