-- ==== Sys2Proof/Machine/Encoder.lean ====
section
/-! DEFINITION. The dictionary's growth step and the encoder: Learn (20_memory.md R54), ENCODE_STEP
(41_encoder.md R121 to R123) and ENCODE_FLUSH (R126, R127). -/

namespace Sys2Proof.Machine

/-- Learn (R54), run by itself. -/
def execLearn (k : Key) (s : State) : Out :=
  settleStep (andThen (learn k s) fun _ t => .val .done t)

/-- The result of an encoder step (R120): `none` is `NoCode`, `some c` is `Code(c)`. -/
def encodeResult : Option Nat → StepResult
  | none => .noCode
  | some c => .code c

/-- The candidate (R121): `PENDING` extended by the byte, or the one-byte key. -/
def candidate (pending : Option ByteSeq) (b : Byte) : Key :=
  match pending with
  | none => skFromByte b
  | some p => skAppend (skFromBytes p) b

/-- The match-extension case (R121): the candidate becomes `PENDING`. -/
def extendMatch (k : Key) (s : State) : Res (Option Nat) :=
  .val none { s with pending := some k.bytes }

/-- The emit-and-learn case (R122), in its order: the code of `PENDING`, Learn, the new `PENDING`. -/
def emitAndLearn (k : Key) (b : Byte) (s : State) : Res (Option Nat) :=
  match s.pending.bind (revRead s) with
  | none => .stuck .pendingAbsent
  | some c => andThen (learn k s) fun _ t => .val (some c) { t with pending := some (skFromByte b).bytes }

/-- ENCODE_STEP (R123). -/
def encodeStep (b : Byte) (s : State) : Res (Option Nat) :=
  match revRead s (candidate s.pending b).bytes with
  | some _ => extendMatch (candidate s.pending b) s
  | none => emitAndLearn (candidate s.pending b) b s

/-- ENCODE_FLUSH (R126); afterwards `PENDING` is none (R127). -/
def encodeFlush (s : State) : Res (Option Nat) :=
  match s.pending with
  | none => .val none s
  | some p =>
    match revRead s p with
    | none => .stuck .pendingAbsent
    | some c => .val (some c) { s with pending := none }

/-- ENCODE_STEP, run by itself. -/
def execEncodeStep (b : Byte) (s : State) : Out :=
  settleStep (andThen (encodeStep b s) fun r t => .val (encodeResult r) t)

/-- ENCODE_FLUSH, run by itself. -/
def execEncodeFlush (s : State) : Out :=
  settleStep (andThen (encodeFlush s) fun r t => .val (encodeResult r) t)

end Sys2Proof.Machine
end

