-- ==== Sys2Proof/Machine/Decoder.lean ====
section
/-! DEFINITION. The decoder: DECODE_STEP (42_decoder.md R149) and its six classes (R142 to R148), each
a row of the table. -/

namespace Sys2Proof.Machine

/-- The result of DECODE_STEP (R140): `none` is `EOI`, `some q` is `Seq(q)`. -/
def decodeResult : Option ByteSeq → StepResult
  | none => .eoi
  | some q => .seq q

/-- Steps 2 to 4 of R146: learn `PREV` extended by the first byte of the resolved key, remember the
resolved key, return it. -/
def learnResolved (p resolved : ByteSeq) (s : State) : Res (Option ByteSeq) :=
  match resolved with
  | [] => .stuck .emptyKey
  | h :: t => andThen (learn (skAppend (skFromBytes p) h) s) fun _ u =>
      .val (some (h :: t)) { u with prev := some (h :: t) }

/-- EOI (R142): nothing is written. -/
def decodeEoi (s : State) : Res (Option ByteSeq) := .val none s

/-- First code (R143): looked up and remembered; nothing is learned. -/
def decodeFirst (v : Nat) (s : State) : Res (Option ByteSeq) :=
  match fwdRead s v with
  | none => .stuck .codeAbsent
  | some q => .val (some q) { s with prev := some q }

/-- First code outside the alphabet (R144). -/
def decodeFirstCorrupt (s : State) : Res (Option ByteSeq) := .raised .corruptStream s

/-- Known code (R146). -/
def decodeKnown (v : Nat) (p : ByteSeq) (s : State) : Res (Option ByteSeq) :=
  match fwdRead s v with
  | none => .stuck .codeAbsent
  | some q => learnResolved p q s

/-- Unseen code (R145): the previous key extended by its own first byte. -/
def decodeUnseen (p : ByteSeq) (s : State) : Res (Option ByteSeq) :=
  match p with
  | [] => .stuck .emptyKey
  | h :: t => learnResolved (h :: t) (skAppend (skFromBytes (h :: t)) h).bytes s

/-- Corrupt code (R148). -/
def decodeCorrupt (s : State) : Res (Option ByteSeq) := .raised .corruptStream s

/-- A class whose condition is `PREV != none` (30_encoding.md R74), with that `PREV`. The none case is
not met: every caller has put the code into the class first. -/
def withPrev (s : State) (k : ByteSeq → Res (Option ByteSeq)) : Res (Option ByteSeq) :=
  match s.prev with
  | none => .stuck .emptyKey
  | some p => k p

/-- What a class of code does (R142 to R148). -/
def decodeClass (c : WireClass) (v : Nat) (s : State) : Res (Option ByteSeq) :=
  match c with
  | .eoi => decodeEoi s
  | .first => decodeFirst v s
  | .firstCorrupt => decodeFirstCorrupt s
  | .known => withPrev s fun p => decodeKnown v p s
  | .unseen => withPrev s fun p => decodeUnseen p s
  | .corrupt => decodeCorrupt s

/-- The class the decoder of a state puts a value into (30_encoding.md R74). -/
def classOf (s : State) (v : Nat) (w : Nat) : WireClass := wireClass s.prev s.nextKey v w

/-- DECODE_STEP (R149). -/
def decodeStep (v : Nat) (w : Nat) (s : State) : Res (Option ByteSeq) :=
  decodeClass (classOf s v w) v s

/-- A decoder step run by itself. -/
def settleDecode (r : Res (Option ByteSeq)) : Out :=
  settleStep (andThen r fun q t => .val (decodeResult q) t)

/-- DECODE_STEP, run by itself. -/
def execDecodeStep (v : Nat) (w : Nat) (s : State) : Out := settleDecode (decodeStep v w s)

/-- A wire code decoded as the class its row names, where the decoder puts it into that class; in
other states the row is not the code that was read (log 16). -/
def execClass (c : WireClass) (v : Nat) (w : Nat) (s : State) : Out :=
  if classOf s v w = c then settleDecode (decodeClass c v s) else .refused .wrongClass

/-- WIRE_EOI (R142). -/
def execWireEoi (v : Nat) (w : Nat) (s : State) : Out := execClass .eoi v w s

/-- WIRE_FIRST (R143). -/
def execWireFirst (v : Nat) (w : Nat) (s : State) : Out := execClass .first v w s

/-- WIRE_FIRST_CORRUPT (R144). -/
def execWireFirstCorrupt (v : Nat) (w : Nat) (s : State) : Out := execClass .firstCorrupt v w s

/-- WIRE_KNOWN (R146). -/
def execWireKnown (v : Nat) (w : Nat) (s : State) : Out := execClass .known v w s

/-- WIRE_UNSEEN (R145). -/
def execWireUnseen (v : Nat) (w : Nat) (s : State) : Out := execClass .unseen v w s

/-- WIRE_CORRUPT (R148). -/
def execWireCorrupt (v : Nat) (w : Nat) (s : State) : Out := execClass .corrupt v w s

end Sys2Proof.Machine
end

