-- ==== Sys2Proof/Machine/Serdes.lean ====
section
/-! DEFINITION. The serializer and the deserializer as transfers that may fail or wait: EMIT_CODE
(43_width_and_serdes.md R177), EMIT_EOI (R178), READ_CODE (R180), and what follows a transfer, for
the command or the internal step that owns it. -/

namespace Sys2Proof.Machine

/-! ## Writing -/

/-- All bits are accepted: a command completes with `OK` (44_stream_commands.md R205, R215), a step
by itself is done. -/
def finishWrite (own : Owner) (s : State) : State :=
  match own with
  | .command => respond .ok s
  | .internalStep => giveResult .done s

/-- The bits are written, the first failure ends the command (60_exceptions.md R248), and a transfer
without an answer holds (70_reset_and_hazards.md R291). -/
def writeBits (own : Owner) (bs : List Bit) (s : State) : Out :=
  match pushBits bs s with
  | (.done, t) => .next (finishWrite own t)
  | (.failed, t) => .next (raise .bitIoError t)
  | (.waits rest, t) => .next (hold (.write rest own) t)

/-- The bits of EMIT_EOI (R178): the sentinel's pattern in the encoder's width. -/
def eoiBits (nextKey : Nat) : List Bit := codeBits (eoiPattern (widthEnc nextKey)) (widthEnc nextKey)

/-- EMIT_CODE (R177), run by itself. -/
def execEmitCode (c : Nat) (w : Nat) (s : State) : Out := writeBits .internalStep (codeBits c w) s

/-- EMIT_EOI (R178), run by itself. -/
def execEmitEoi (s : State) : Out := writeBits .internalStep (eoiBits s.nextKey) s

/-! ## Reading -/

/-- The logical end of stream (44_stream_commands.md R212). -/
def endOfStream (s : State) : State := respond .eod { s with ended := true }

/-- A decoded key becomes the lookahead buffer, and its first byte is served (R210). -/
def serveFirst (q : ByteSeq) (s : State) : Out :=
  match q with
  | [] => .fault .emptyKey
  | b :: t => .next (respond (.byte b) { s with outbuf := b :: t, cursor := 1 })

/-- RDB after DECODE_STEP (R210, R212). -/
def serveDecoded (r : Option ByteSeq) (s : State) : Out :=
  match r with
  | none => .next (endOfStream s)
  | some q => serveFirst q s

/-- RDB after READ_CODE gave a value. -/
def decodeAndServe (v : Nat) (w : Nat) (s : State) : Out :=
  settleWith (decodeStep v w s) serveDecoded

/-- What follows a whole code: RDB decodes it and serves a byte; a step by itself returns it. -/
def finishValue (own : Owner) (w : Nat) (v : Nat) (s : State) : Out :=
  match own with
  | .command => decodeAndServe v w s
  | .internalStep => .next (giveResult (.value v) s)

/-- What follows a physical end inside a code: RDB ends the stream (R212, 43_width_and_serdes.md R181);
a step by itself returns it. -/
def finishPhysEnd (own : Owner) (s : State) : Out :=
  match own with
  | .command => .next (endOfStream s)
  | .internalStep => .next (giveResult .physEnd s)

/-- The bits of a code of width `w` are read, `left` of them still to come; a failure ends the command
(60_exceptions.md R248), a transfer without an answer holds (70_reset_and_hazards.md R291). -/
def readBits (own : Owner) (w left : Nat) (acc : Nat) (s : State) : Out :=
  match pullBits left acc s with
  | (.value v, t) => finishValue own w v t
  | (.physEnd, t) => finishPhysEnd own t
  | (.failed, t) => .next (raise .bitIoError t)
  | (.waits acc' left', t) => .next (hold (.read acc' left' w own) t)

/-- READ_CODE (R180), run by itself. -/
def execReadCode (w : Nat) (s : State) : Out := readBits .internalStep w w 0 s

/-! ## Going on after a hold -/

/-- A held transfer goes on from where it waited (70_reset_and_hazards.md R291). -/
def resume (t : Transfer) (s : State) : Out :=
  match t with
  | .write rest own => writeBits own rest s
  | .read acc left w own => readBits own w left acc s

end Sys2Proof.Machine
end

