-- ==== Sys2Proof/Machine/Commands.lean ====
section
/-! DEFINITION. The commands of the host (44_stream_commands.md). R200's prologue is split over the
commands: each meaning makes the checks that R200 makes for its opcode, in R200's order. -/

namespace Sys2Proof.Machine

/-! ## The prologue -/

/-- The lifecycle checks of R200: closed first, then a stored fault, which is reported again and
changes nothing. -/
def whenLive (s : State) (k : Out) : Out :=
  if s.closed then .next (raise .streamClosed s)
  else match s.fault with
    | some f => .next (respond (.fault f) s)
    | none => k

/-- The mode check of R200. -/
def whenMode (m : Mode) (s : State) (k : Out) : Out :=
  if s.mode = m then k else .next (raise .wrongMode s)

/-! ## WRB and RDB -/

/-- WRB once the prologue has passed (R205): ENCODE_STEP, then the code it emits, in the width of
`NEXT_KEY` after the Learn. -/
def writeByte (b : Byte) (s : State) : Out :=
  settleWith (encodeStep b s) fun r t =>
    match r with
    | none => .next (respond .ok t)
    | some c => writeBits .command (codeBits c (widthEnc t.nextKey)) t

/-- WRB (R205). -/
def execWrb (imm8 : Byte) (s : State) : Out :=
  whenLive s (whenMode .compress s (writeByte (byteOperand imm8) s))

/-- RDB once the prologue has passed (R210): a byte of the buffer (R211), else the end (R213), else a
code. -/
def readByte (s : State) : Out :=
  match s.outbuf[s.cursor]? with
  | some b => .next (respond (.byte b) { s with cursor := s.cursor + 1 })
  | none =>
    if s.ended then .next (respond .eod s)
    else readBits .command (widthDec s.nextKey) (widthDec s.nextKey) 0 s

/-- RDB (R210). -/
def execRdb (_imm8 : Byte) (s : State) : Out := whenLive s (whenMode .decompress s (readByte s))

/-! ## CLOSE and FLUSH -/

/-- The bits CLOSE writes: the flush code, if there is one, and the sentinel, both in the same width
(R215). -/
def closingBits (r : Option Nat) (nextKey : Nat) : List Bit :=
  match r with
  | none => eoiBits nextKey
  | some c => codeBits c (widthEnc nextKey) ++ eoiBits nextKey

/-- CLOSE in compress mode with no fault stored (R215). -/
def closeStream (s : State) : Out :=
  settleWith (encodeFlush s) fun r t => writeBits .command (closingBits r t.nextKey) t

/-- CLOSE (R215, R216): accepted in both modes, whatever `CLOSED` and `FAULT` hold. -/
def execClose (_imm8 : Byte) (s : State) : Out :=
  if s.closed then .next (respond .ok s)
  else if s.mode = .compress ∧ s.fault = none then closeStream { s with closed := true }
  else .next (respond .ok { s with closed := true })

/-- FLUSH (R218): no effect on the core. -/
def execFlush (_imm8 : Byte) (s : State) : Out := whenLive s (.next (respond .ok s))

/-! ## Random access -/

/-- SEEK (R220): always fails. -/
def execSeek (_imm8 : Byte) (s : State) : Out := .next (raise .unsupportedOperation s)

/-- GETLEN (R221): always fails. -/
def execGetlen (_imm8 : Byte) (s : State) : Out := .next (raise .unsupportedOperation s)

/-- GETPOS (R222): always fails. -/
def execGetpos (_imm8 : Byte) (s : State) : Out := .next (raise .unsupportedOperation s)

/-- SETPOS (R223): always fails. -/
def execSetpos (_imm8 : Byte) (s : State) : Out := .next (raise .unsupportedOperation s)

/-! ## Reserved opcodes (R225) -/

/-- `OP` 0x0. -/
def execReserved0 (_imm8 : Byte) (s : State) : Out := .next (raise .illegalCommand s)

/-- `OP` 0x9. -/
def execReserved9 (_imm8 : Byte) (s : State) : Out := .next (raise .illegalCommand s)

/-- `OP` 0xA. -/
def execReservedA (_imm8 : Byte) (s : State) : Out := .next (raise .illegalCommand s)

/-- `OP` 0xB. -/
def execReservedB (_imm8 : Byte) (s : State) : Out := .next (raise .illegalCommand s)

/-- `OP` 0xC. -/
def execReservedC (_imm8 : Byte) (s : State) : Out := .next (raise .illegalCommand s)

/-- `OP` 0xD. -/
def execReservedD (_imm8 : Byte) (s : State) : Out := .next (raise .illegalCommand s)

/-- `OP` 0xE. -/
def execReservedE (_imm8 : Byte) (s : State) : Out := .next (raise .illegalCommand s)

/-- `OP` 0xF. -/
def execReservedF (_imm8 : Byte) (s : State) : Out := .next (raise .illegalCommand s)

end Sys2Proof.Machine
end

