-- ==== Sys2Proof/Machine/KeySteps.lean ====
section
/-! DEFINITION. The Sequence Key steps of the table (40_sequence_key.md R102 to R106) and the width
step (43_width_and_serdes.md R170), run by themselves: pure values, so only `result` is written
(log 15). -/

namespace Sys2Proof.Machine

/-- SK_FROM_BYTE (R102). -/
def execSkFromByte (b : Byte) (s : State) : Out := .next (giveResult (.key (skFromByte b)) s)

/-- SK_EQ (R103). -/
def execSkEq (k l : Key) (s : State) : Out := .next (giveResult (.equal (skEq k l)) s)

/-- HASH (R104). -/
def execHash (q : ByteSeq) (s : State) : Out := .next (giveResult (.hash (hash q)) s)

/-- SK_APPEND (R105). -/
def execSkAppend (k : Key) (b : Byte) (s : State) : Out := .next (giveResult (.key (skAppend k b)) s)

/-- SK_FROM_BYTES (R106). -/
def execSkFromBytes (q : ByteSeq) (s : State) : Out := .next (giveResult (.key (skFromBytes q)) s)

/-- `bits` (43_width_and_serdes.md R170). -/
def execBits (n : Nat) (s : State) : Out := .next (giveResult (.width (bits n)) s)

end Sys2Proof.Machine
end

