-- ==== Sys2Proof/Machine/Dispatch.lean ====
section
/-! DEFINITION. The dispatch: one arm per constructor of Instr, each one call of its meaning. -/

namespace Sys2Proof.Machine

def exec (i : Instr) (s : State) : Host.Outcome State Fault Refusal :=
  match i with
  | .wrb imm8 => Sys2Proof.Machine.execWrb imm8 s
  | .rdb imm8 => Sys2Proof.Machine.execRdb imm8 s
  | .close imm8 => Sys2Proof.Machine.execClose imm8 s
  | .flush imm8 => Sys2Proof.Machine.execFlush imm8 s
  | .seek imm8 => Sys2Proof.Machine.execSeek imm8 s
  | .getlen imm8 => Sys2Proof.Machine.execGetlen imm8 s
  | .getpos imm8 => Sys2Proof.Machine.execGetpos imm8 s
  | .setpos imm8 => Sys2Proof.Machine.execSetpos imm8 s
  | .reserved0 imm8 => Sys2Proof.Machine.execReserved0 imm8 s
  | .reserved9 imm8 => Sys2Proof.Machine.execReserved9 imm8 s
  | .reservedA imm8 => Sys2Proof.Machine.execReservedA imm8 s
  | .reservedB imm8 => Sys2Proof.Machine.execReservedB imm8 s
  | .reservedC imm8 => Sys2Proof.Machine.execReservedC imm8 s
  | .reservedD imm8 => Sys2Proof.Machine.execReservedD imm8 s
  | .reservedE imm8 => Sys2Proof.Machine.execReservedE imm8 s
  | .reservedF imm8 => Sys2Proof.Machine.execReservedF imm8 s
  | .wireEoi v w => Sys2Proof.Machine.execWireEoi v w s
  | .wireFirst v w => Sys2Proof.Machine.execWireFirst v w s
  | .wireFirstCorrupt v w => Sys2Proof.Machine.execWireFirstCorrupt v w s
  | .wireKnown v w => Sys2Proof.Machine.execWireKnown v w s
  | .wireUnseen v w => Sys2Proof.Machine.execWireUnseen v w s
  | .wireCorrupt v w => Sys2Proof.Machine.execWireCorrupt v w s
  | .skFromByte b => Sys2Proof.Machine.execSkFromByte b s
  | .skEq k l => Sys2Proof.Machine.execSkEq k l s
  | .hash q => Sys2Proof.Machine.execHash q s
  | .skAppend k b => Sys2Proof.Machine.execSkAppend k b s
  | .skFromBytes q => Sys2Proof.Machine.execSkFromBytes q s
  | .learn k => Sys2Proof.Machine.execLearn k s
  | .encodeStep b => Sys2Proof.Machine.execEncodeStep b s
  | .encodeFlush => Sys2Proof.Machine.execEncodeFlush s
  | .decodeStep v w => Sys2Proof.Machine.execDecodeStep v w s
  | .bits n => Sys2Proof.Machine.execBits n s
  | .emitCode c w => Sys2Proof.Machine.execEmitCode c w s
  | .emitEoi => Sys2Proof.Machine.execEmitEoi s
  | .readCode w => Sys2Proof.Machine.execReadCode w s

end Sys2Proof.Machine
end

