-- ==== Sys2Proof/Machine/Lifecycle.lean ====
section
/-! DEFINITION. Reset as an input (70_reset_and_hazards.md R280), the taking of a command word from the
command port (20_memory.md R65), and the placing of one (R284). -/

namespace Sys2Proof.Machine

/-- Reset with the mode input at `m`, at any time (R280): every element of the block at its reset
value, a waiting command abandoned without a response. The parameter stays, and so does all that is
outside the block: the host's words, the responses it has had, the bits on the wire and the
primitive's answers (log 13). A run's output counts from here (R285), so what was given before moves to
the record of the past (log 11). -/
def applyReset (m : Mode) (s : State) : State :=
  { State.resetIn m with
    capacity := s.capacity
    commands := s.commands
    pastResponses := s.pastResponses ++ s.responses
    pastBits := s.pastBits ++ s.outBits
    writeAnswers := s.writeAnswers
    readAnswers := s.readAnswers }

/-- The block takes a word from the command port and runs its command (R65, 44_stream_commands.md
R200). -/
def runWord (x : CommandWord) (s : State) : Out := exec (decodeWord x) s

/-- The next command, where the host presents one; without one the block does nothing (R281). -/
def takeCommand (s : State) : Out :=
  match s.commands with
  | [] => .next s
  | x :: rest => runWord x { s with commands := rest }

/-- The state in which the block's next act is to take the word `x`: nothing waits, reset is not
asserted, and `x` is the first word (log 12). -/
def placeWord (x : CommandWord) (s : State) : State :=
  { s with resetInput := none, transfer := none, commands := x :: s.commands }

end Sys2Proof.Machine
end

