-- ==== Sys2Proof/Machine/Step.lean ====
section
/-! DEFINITION. One step of the machine: reset if it is asserted, else a waiting transfer goes on, else
the next command of the host runs. -/

namespace Sys2Proof.Machine

/-- One step (70_reset_and_hazards.md R280, R281, R291, 20_memory.md R65). -/
def step (s : State) : Host.Outcome State Fault Refusal :=
  match s.resetInput with
  | some m => .next (applyReset m s)
  | none =>
    match s.transfer with
    | some t => resume t { s with transfer := none }
    | none => takeCommand s

/-- The state with the instruction of bits `w` where `step` takes its next command. A number that is
no command word cannot be placed on the port (log 21). -/
def State.withFetchWord (s : State) (_nbits w : Nat) : State :=
  match wordOfNat w with
  | .ok x => placeWord x s
  | .error _ => s

end Sys2Proof.Machine
end

