-- ==== Sys2Proof/Machine/Environment.lean ====
section
/-! DEFINITION. What is outside the block: the moves of the host and of the bit primitive
(70_reset_and_hazards.md R284, R291), and the primitive's packing of bits into bytes (20_memory.md R60,
30_encoding.md R77), which the block relies on for the hex form of a stream only. -/

namespace Sys2Proof.Machine

/-- A move of the outside world. -/
inductive Move where
  /-- The host presents a command word (R284). -/
  | present (x : CommandWord)
  /-- The host asserts reset with the mode input at a mode (R280). -/
  | assertReset (m : Mode)
  /-- The primitive answers a `write_bit` (20_memory.md R56). -/
  | answerWrite (a : WriteAnswer)
  /-- The primitive answers a `read_bit` (20_memory.md R57). -/
  | answerRead (a : ReadAnswer)
  deriving DecidableEq, Repr

/-- A move's effect on the ports. -/
def applyMove (m : Move) (s : State) : State :=
  match m with
  | .present x => { s with commands := s.commands ++ [x] }
  | .assertReset m => { s with resetInput := some m }
  | .answerWrite a => { s with writeAnswers := s.writeAnswers ++ [a] }
  | .answerRead a => { s with readAnswers := s.readAnswers ++ [a] }

/-- The bits of a byte, bit 7 first (R60). -/
def byteBits (b : Byte) : List Bit := codeBits b.toNat 8

/-- The primitive's packing of a bit stream into bytes, the first bit into bit 7 of the first byte
(R60). `pad` are the bits it appends after the last whole byte (R77); missing ones read as none, so
a short `pad` leaves the last byte out. -/
def packBytes (pad : List Bit) : List Bit → List Byte
  | b7 :: b6 :: b5 :: b4 :: b3 :: b2 :: b1 :: b0 :: rest =>
    BitVec.ofNat 8 (assemble [b7, b6, b5, b4, b3, b2, b1, b0]) :: packBytes pad rest
  | [] => []
  | rest =>
    if (rest ++ pad).length < 8 then []
    else [BitVec.ofNat 8 (assemble ((rest ++ pad).take 8))]

/-- How many padding bits a stream of `n` bits has where the primitive pads to the byte (R77). -/
def padLength (n : Nat) : Nat := (8 - n % 8) % 8

end Sys2Proof.Machine
end

