-- ==== Sys2Proof/Machine/Listing.lean ====
section
/-! DEFINITION. Command listings (30_encoding.md R87) and pseudo-commands (R88): from the text of a line
to the command words it stands for. Text is a list of characters. What R87 leaves open of a line's form
is the model's choice, log 24. -/

namespace Sys2Proof.Machine

/-! ## Pseudo-commands -/

/-- The expansion of a pseudo-command into commands (R88); every reserved `IMM8` is 0 (R82). -/
def expand : Pseudo → List Instr
  | .wrs bs => bs.map .wrb
  | .compress bs => bs.map .wrb ++ [.close 0]
  | .rdn n => List.replicate n (.rdb 0)

/-- The command words of a list of commands. -/
def wordsOf (is : List Instr) : List CommandWord := is.filterMap encodeCommand

/-! ## Tokens -/

/-- A letter's capital; mnemonics are case-insensitive (R87). -/
def capital (c : Char) : Char :=
  if 97 ≤ c.toNat ∧ c.toNat ≤ 122 then Char.ofNat (c.toNat - 32) else c

/-- What stands between tokens: a space, a tab or a comma. -/
def isBlank (c : Char) : Bool := c == ' ' || c == '\t' || c == ','

/-- A token of a listing line. -/
inductive Token where
  | word (cs : List Char)
  /-- A character literal (R87): its ASCII code. -/
  | literal (c : Char)
  /-- A string (R88). -/
  | text (cs : List Char)
  deriving DecidableEq, Repr

/-- The word collected so far, as a token if it is not empty. -/
def closeWord (cur : List Char) : List Token := if cur = [] then [] else [.word cur]

/-- The tokens of a line up to its comment, which starts with `;` (R87). `str` collects a string that
is open; a string that is never closed gives none. -/
def tokens (str : Option (List Char)) (cur : List Char) : List Char → Option (List Token)
  | [] => if str = none then some (closeWord cur) else none
  | c :: rest =>
    match str with
    | some t =>
      if c = '"' then (tokens none [] rest).map (.text t :: ·) else tokens (some (t ++ [c])) [] rest
    | none =>
      if c = ';' then some (closeWord cur)
      else if c = '"' then (tokens (some []) [] rest).map (closeWord cur ++ ·)
      else if c = '\'' then
        match rest with
        | d :: '\'' :: more => (tokens none [] more).map (closeWord cur ++ .literal d :: ·)
        | _ => none
      else if isBlank c then (tokens none [] rest).map (closeWord cur ++ ·)
      else tokens none (cur ++ [c]) rest

/-! ## Numbers -/

/-- The value of a digit in a base of at most 16. -/
def digit (base : Nat) (c : Char) : Option Nat :=
  let n := (capital c).toNat
  let v := if 48 ≤ n ∧ n ≤ 57 then n - 48 else if 65 ≤ n ∧ n ≤ 70 then n - 55 else 16
  if v < base then some v else none

/-- The value of digits, none where one is no digit or there is none. -/
def digits (base : Nat) (cs : List Char) : Option Nat :=
  if cs = [] then none
  else cs.foldl (fun acc c => acc.bind fun a => (digit base c).map fun d => base * a + d) (some 0)

/-- A number: decimal, or hex after `0x` (R87). -/
def number : List Char → Option Nat
  | '0' :: 'x' :: cs => digits 16 cs
  | cs => digits 10 cs

/-- A byte operand (R87): a number up to 255, or a character literal. -/
def byteOf : Token → Option Byte
  | .word cs => (number cs).bind fun n => if n < 256 then some (BitVec.ofNat 8 n) else none
  | .literal c => if c.toNat < 128 then some (BitVec.ofNat 8 c.toNat) else none
  | .text _ => none

/-- The bytes of a list of operands; a string gives each character's ASCII code (R88). -/
def bytesOf : List Token → Option ByteSeq
  | [] => some []
  | .text cs :: rest =>
    if cs.all (fun c => decide (c.toNat < 128)) then
      (bytesOf rest).map (cs.map (fun c => BitVec.ofNat 8 c.toNat) ++ ·)
    else none
  | t :: rest => (byteOf t).bind fun b => (bytesOf rest).map (b :: ·)

/-! ## Lines -/

/-- The commands of a mnemonic and its operands (R81, R87, R88). -/
def commandsOf (name : List Char) (ops : List Token) : Option (List Instr) :=
  match name.map capital, ops with
  | ['W', 'R', 'B'], [t] => (byteOf t).map fun b => [.wrb b]
  | ['R', 'D', 'B'], [] => some [.rdb 0]
  | ['C', 'L', 'O', 'S', 'E'], [] => some [.close 0]
  | ['F', 'L', 'U', 'S', 'H'], [] => some [.flush 0]
  | ['S', 'E', 'E', 'K'], [] => some [.seek 0]
  | ['G', 'E', 'T', 'L', 'E', 'N'], [] => some [.getlen 0]
  | ['G', 'E', 'T', 'P', 'O', 'S'], [] => some [.getpos 0]
  | ['S', 'E', 'T', 'P', 'O', 'S'], [] => some [.setpos 0]
  | ['W', 'R', 'S'], ts => (bytesOf ts).map fun bs => expand (.wrs bs)
  | ['C', 'O', 'M', 'P', 'R', 'E', 'S', 'S'], ts => (bytesOf ts).map fun bs => expand (.compress bs)
  | ['R', 'D', 'N'], [.word cs] => (number cs).map fun n => expand (.rdn n)
  | _, _ => none

/-- The word a listing shows before the mnemonic (R87): three hex digits. -/
def shownWord (cs : List Char) : Option CommandWord :=
  if cs.length = 3 then (digits 16 cs).map (BitVec.ofNat 12) else none

/-- The words of a line that shows its word: the word shown, where its `OP`, and for WRB its `IMM8`,
are the mnemonic's. -/
def checkedWord (x : CommandWord) (is : List Instr) : Option (List CommandWord) :=
  match is.map commandFields with
  | [some (op, imm)] =>
    if op = opField x ∧ (op = 0x1 → imm = immField x) then some [x] else none
  | _ => none

/-- What a listing of 95_test_vectors.md (P2, P4) writes in the place of a mnemonic, where the word shown
has a reserved `OP`, for which R81 has no mnemonic. -/
def reservedMark : List Char := ['(', 'r', 'e', 's', 'e', 'r', 'v', 'e', 'd', ')']

/-- The word shown on a line without a mnemonic, where its `OP` is reserved (R81). -/
def reservedWord (x : CommandWord) : Option (List CommandWord) :=
  if opField x = 0x0 ∨ 0x9 ≤ opField x then some [x] else none

/-- The command words a line of a listing stands for (R87); none where it is not in R87's form. DESIGN
CHOICE, where R87 says nothing of a line without a mnemonic of R81 (log 24): a blank line, or one that is
only a comment, stands for no words; one that shows a reserved word before `(reserved)`, as P2 and P4 of
95_test_vectors.md do, for that word; any other is not in R87's form. -/
def assembleLine (line : List Char) : Option (List CommandWord) :=
  match tokens none [] line with
  | none => none
  | some [] => some []
  | some (.word a :: rest) =>
    match shownWord a, rest with
    | some x, .word m :: ops =>
      if m = reservedMark ∧ ops = [] then reservedWord x
      else (commandsOf m ops).bind (checkedWord x)
    | _, _ => (commandsOf a rest).map wordsOf
  | some (_ :: _) => none

/-- A wire code in a listing (R87), `value/width` or `EOI/width`: its value and width. -/
def wireCodeOf (cs : List Char) : Option (Nat × Nat) :=
  match cs.span (fun c => c != '/') with
  | (v, '/' :: w) =>
    (digits 10 w).bind fun w =>
      if v.map capital = ['E', 'O', 'I'] then some (eoiPattern w, w)
      else (digits 10 v).map fun v => (v, w)
  | _ => none

end Sys2Proof.Machine
end

