-- ==== Sys2Proof/Safety.lean ====
section
/-! DEFINITION. What counts as a good state and a good run, in the terms the claims use: the invariants
10_state.md states of the block, the end of a run (70_reset_and_hazards.md R285), and the relation
between an encoder and the decoder that follows it (42_decoder.md R151). -/

namespace Sys2Proof.Machine

/-! ## Outcomes -/

/-- The next state of an outcome, where it is one. -/
def nextOf : Out → Option State
  | .next t => some t
  | .fault _ => none
  | .refused _ => none

/-! ## Conditions on a state -/

/-- The lifecycle checks of 44_stream_commands.md R200 pass: not closed, no fault stored. -/
abbrev Live (s : State) : Prop := s.closed = false ∧ s.fault = none

/-- The dictionary has room for one more entry (20_memory.md R54). -/
abbrev HasRoom (s : State) : Prop := ∀ n, s.capacity = some n → s.nextKey < n

/-- The dictionary is full (R54). -/
abbrev IsFull (s : State) : Prop := ∃ n, s.capacity = some n ∧ n ≤ s.nextKey

/-- The decoder reads its next code at the next RDB (44_stream_commands.md R210): live, decompress mode,
the buffer exhausted, the end not reached. -/
abbrev ReadsCode (s : State) : Prop :=
  Live s ∧ s.mode = .decompress ∧ s.outbuf.length ≤ s.cursor ∧ s.ended = false

/-- Every read of the dictionary gives the same in both states. -/
abbrev SameDictionary (s t : State) : Prop :=
  t.nextKey = s.nextKey ∧ (∀ c, fwdRead t c = fwdRead s c) ∧ ∀ k, revRead t k = revRead s k

/-- The dictionary of `t` is that of `s` with the key `k` learned: in `FWD` under the old `NEXT_KEY`, in
`REV` under the same code unless `k` had one, and no other code and no other key reads otherwise
(20_memory.md R53, R54, R64). -/
abbrev GrowsBy (k : ByteSeq) (s t : State) : Prop :=
  t.nextKey = s.nextKey + 1 ∧
  (∀ c, fwdRead t c = if c = s.nextKey then some k else fwdRead s c) ∧
  ∀ l, revRead t l = if l = k ∧ revRead s k = none then some s.nextKey else revRead s l

/-- The dictionary is as it was, or has learned `k` and nothing else. -/
abbrev GrowsByAtMost (k : ByteSeq) (s t : State) : Prop := SameDictionary s t ∨ GrowsBy k s t

/-- The dictionary is as it was, or has learned, and nothing else, the key the decoder learns on a code:
the old `PREV` extended by the first byte of the resolved key, which is the new `PREV` (42_decoder.md
R145, R146). -/
abbrev DecoderLearns (s t : State) : Prop :=
  SameDictionary s t ∨
    ∃ p h q, s.prev = some p ∧ t.prev = some (h :: q) ∧ GrowsBy (p ++ [h]) s t

/-- What no command and no internal step changes: the configuration, the host's words, the reset
input, the record of what was given before the last reset. -/
abbrev SameSetting (s t : State) : Prop :=
  t.mode = s.mode ∧ t.capacity = s.capacity ∧ t.commands = s.commands ∧ t.resetInput = s.resetInput ∧
  t.pastResponses = s.pastResponses ∧ t.pastBits = s.pastBits

/-! ## The invariant of the block -/

/-- What holds of a code transfer that waits (10_state.md R37): a command's, in the direction of the
mode, in a block that has no fault stored. A read is one code of the decoder's width, part of it
read. -/
def TransferOk (s : State) : Transfer → Prop
  | .write rest own => own = .command ∧ s.mode = .compress ∧ s.fault = none ∧ rest ≠ []
  | .read acc left w own =>
    own = .command ∧ s.mode = .decompress ∧ s.fault = none ∧ s.closed = false ∧ s.ended = false ∧
      w = widthDec s.nextKey ∧ 0 < left ∧ left ≤ w ∧ acc < 2 ^ (w - left) ∧ s.outbuf.length ≤ s.cursor

/-- The invariant of the block. Each field names the rule that states it. -/
structure BlockInv (s : State) : Prop where
  /-- The tables are in canonical form (log 6). -/
  canonical : Memory.wf s
  /-- `NEXT_KEY` starts at 256 and only grows (R24). -/
  keyFloor : Config.firstKey ≤ s.nextKey
  /-- The present codes are exactly `0 .. NEXT_KEY - 1` (R24). -/
  present : ∀ c, (fwdRead s c).isSome = true ↔ c < s.nextKey
  /-- Codes 0 to 255 hold what the seeding gave them (20_memory.md R64). -/
  seeded : ∀ c, c < Config.alphabet → fwdRead s c = Config.seedEntry c
  /-- Every stored key has at least one byte (R22, 40_sequence_key.md R100). -/
  entryNonempty : ∀ c k, fwdRead s c = some k → k ≠ []
  /-- `REV` holds the smallest code of a key (R26). -/
  revLeast : ∀ k c, revRead s k = some c ↔ fwdRead s c = some k ∧ ∀ d, d < c → fwdRead s d ≠ some k
  /-- In compress mode the tables are in lock-step (R25). -/
  lockstep : s.mode = .compress → ∀ c k, fwdRead s c = some k → revRead s k = some c
  /-- `PENDING` is a key of the dictionary (R27). -/
  pendingPresent : ∀ p, s.pending = some p → (revRead s p).isSome = true
  /-- `PREV` has at least one byte (40_sequence_key.md R100). -/
  prevNonempty : ∀ p, s.prev = some p → p ≠ []
  /-- `CURSOR <= len(OUTBUF)` (R29). -/
  cursorBound : s.cursor ≤ s.outbuf.length
  /-- In compress mode the decoder's state is as reset left it (R20, R36). -/
  compressSide : s.mode = .compress →
    s.prev = none ∧ s.outbuf = [] ∧ s.cursor = 0 ∧ s.ended = false ∧ s.fault ≠ some .corruptStream
  /-- In decompress mode there is no pending match (R20). -/
  decompressSide : s.mode = .decompress → s.pending = none
  /-- `FAULT` holds 0, 1, 6 or 7 (R36). -/
  faultSticky : ∀ f, s.fault = some f → isSticky f = true
  /-- A waiting transfer is one the block can have started. -/
  transferOk : ∀ t, s.transfer = some t → TransferOk s t

/-! ## The end of a run and its output (R285) -/

/-- A compress run has ended: its first CLOSE has been answered. -/
def compressEnded (s : State) : Bool :=
  decide (s.mode = .compress) && s.closed && s.transfer.isNone

/-- A compress run has ended successfully. -/
def compressSucceeded (s : State) : Bool := compressEnded s && s.fault.isNone

/-- Whether this response to an RDB ends a decompress run. -/
def endsDecompress : Response → Bool
  | .eod => true
  | .fault _ => true
  | .ok => false
  | .byte _ => false

/-- Whether this response to an RDB ends a decompress run successfully. -/
def succeedsDecompress (r : Response) : Bool := decide (r = .eod)

/-- The data of the BYTE responses among some responses. -/
def outputBytes (rs : List ResponseWord) : ByteSeq :=
  rs.filterMap fun x =>
    match readResponse x with
    | some (.byte b) => some b
    | some .ok => none
    | some .eod => none
    | some (.fault _) => none
    | none => none

/-- The output of a compress run: the bits written to the bit port since reset. -/
def compressOutput (s : State) : List Bit := s.outBits

/-- The output of a decompress run: the data of the BYTE responses returned since reset. -/
def decompressOutput (s : State) : ByteSeq := outputBytes s.responses

/-- Every bit on the wire, those written before the last reset included (R280). -/
def wireBits (s : State) : List Bit := s.pastBits ++ s.outBits

/-- A compress instance that will be given the bytes `x` and a CLOSE, with a primitive that accepts
`n` bits. -/
def compressSetup (x : ByteSeq) (n : Nat) : State :=
  { State.resetIn .compress with
    commands := wordsOf (expand (.compress x))
    writeAnswers := List.replicate n .accept }

/-- A decompress instance that will be read `n` times, on a source that holds `bs` and then ends. -/
def decompressSetup (bs : List Bit) (n : Nat) : State :=
  { State.resetIn .decompress with
    commands := wordsOf (expand (.rdn n))
    readAnswers := bs.map .bit ++ [.endOfData] }

/-! ## Encoder and decoder -/

/-- The decoder `d` has decoded every regular code the encoder `e` has emitted, at least one
(42_decoder.md R151). It is one entry behind, and that entry is its `PREV` extended by the first byte
of the encoder's pending match. -/
structure Mirrors (e d : State) : Prop where
  behind : e.nextKey = d.nextKey + 1
  agree : ∀ c, c < d.nextKey → fwdRead d c = fwdRead e c
  last : ∃ p b t, d.prev = some p ∧ fwdRead e d.nextKey = some (p ++ [b]) ∧ e.pending = some (b :: t)
  sameCapacity : d.capacity = e.capacity

end Sys2Proof.Machine
end

