-- ==== Sys2Proof/Certificates/Slice0/Obligations.lean ====
section
/-! DEFINITION. The statements for the provers. Each docstring names the rules of spec/ it formalises. -/

open Sys2Proof Sys2Proof.Machine

/-! ## Encoding -/

/-- Words written out from R80 and R81, and bit strings written out from R71 and 95_test_vectors.md,
decode to what they stand for. -/
def Obligations.SampleEncodingsDecode : Prop :=
  decodeWord 0b000101000001 = .wrb 0x41 ∧ decodeWord 0b001000000000 = .rdb 0x00 ∧
  decodeWord 0b001100000000 = .close 0x00 ∧ decodeWord 0b010011111111 = .flush 0xFF ∧
  decodeWord 0b010100000000 = .seek 0x00 ∧ decodeWord 0b100000000000 = .setpos 0x00 ∧
  decodeWord 0b000000000000 = .reserved0 0x00 ∧ decodeWord 0b111101000001 = .reservedF 0x41 ∧
  decodeWire none 256 [false, false, true, false, false, false, false, false, true] = .wireFirst 65 9 ∧
  decodeWire (some [0x41]) 256 [true, false, false, false, false, false, false, false, false] =
    .wireUnseen 256 9 ∧
  decodeWire (some [0x41]) 256 [true, true, true, true, true, true, true, true, true] = .wireEoi 511 9

/-- The opcode map of R81: every value of `OP`, with every `IMM8`; and `IMM8` is ignored by every command
but WRB (R82). -/
def Obligations.OpcodeMapDecodes : Prop :=
  (∀ (s : State) (op : BitVec 4) (imm imm' : Byte), op ≠ 0x1 →
    exec (decodeWord (op ++ imm)) s = exec (decodeWord (op ++ imm')) s) ∧
  ∀ imm : Byte,
    decodeWord ((0x0 : BitVec 4) ++ imm) = .reserved0 imm ∧ decodeWord ((0x1 : BitVec 4) ++ imm) = .wrb imm ∧
    decodeWord ((0x2 : BitVec 4) ++ imm) = .rdb imm ∧ decodeWord ((0x3 : BitVec 4) ++ imm) = .close imm ∧
    decodeWord ((0x4 : BitVec 4) ++ imm) = .flush imm ∧ decodeWord ((0x5 : BitVec 4) ++ imm) = .seek imm ∧
    decodeWord ((0x6 : BitVec 4) ++ imm) = .getlen imm ∧ decodeWord ((0x7 : BitVec 4) ++ imm) = .getpos imm ∧
    decodeWord ((0x8 : BitVec 4) ++ imm) = .setpos imm ∧
    decodeWord ((0x9 : BitVec 4) ++ imm) = .reserved9 imm ∧
    decodeWord ((0xA : BitVec 4) ++ imm) = .reservedA imm ∧
    decodeWord ((0xB : BitVec 4) ++ imm) = .reservedB imm ∧
    decodeWord ((0xC : BitVec 4) ++ imm) = .reservedC imm ∧
    decodeWord ((0xD : BitVec 4) ++ imm) = .reservedD imm ∧
    decodeWord ((0xE : BitVec 4) ++ imm) = .reservedE imm ∧
    decodeWord ((0xF : BitVec 4) ++ imm) = .reservedF imm

/-- Command words and commands correspond one to one (R80, R81, R84): decoding an encoded command gives
it back, and every 12-bit word is the encoding of the command it decodes to. -/
def Obligations.CommandEncodingRoundTrip : Prop :=
  (∀ i x, encodeCommand i = some x → decodeWord x = i) ∧
  ∀ x, encodeCommand (decodeWord x) = some x

/-- Wire codes (R70, R71, R74, R76): every well-formed wire code is one that some decoder meets, and in
every decoder that puts it into its class, its bits are as many as its width and decode to it. -/
def Obligations.WireEncodingRoundTrip : Prop :=
  ∀ i v w, wireFields i = some (v, w) → wellFormed i = true →
    (∃ prev n, Config.firstKey ≤ n ∧ i = (wireClass prev n v w).instr v w) ∧
    ∀ prev n, i = (wireClass prev n v w).instr v w →
      ∃ bs, encodeWire i = some bs ∧ bs.length = w ∧ decodeWire prev n bs = i

/-- The classes of a wire code and the order of their tests (R74). -/
def Obligations.WireClassConditions : Prop :=
  ∀ (prev : Option ByteSeq) (n v w : Nat),
    (wireClass prev n v w = .eoi ↔ v = 2 ^ w - 1) ∧
    (wireClass prev n v w = .first ↔ v ≠ 2 ^ w - 1 ∧ prev = none ∧ v < 256) ∧
    (wireClass prev n v w = .firstCorrupt ↔ v ≠ 2 ^ w - 1 ∧ prev = none ∧ 256 ≤ v) ∧
    (wireClass prev n v w = .known ↔ v ≠ 2 ^ w - 1 ∧ prev ≠ none ∧ v < n) ∧
    (wireClass prev n v w = .unseen ↔ v ≠ 2 ^ w - 1 ∧ prev ≠ none ∧ v = n) ∧
    (wireClass prev n v w = .corrupt ↔ v ≠ 2 ^ w - 1 ∧ prev ≠ none ∧ n < v)

/-! ## Reset -/

/-- The reset values (R40), for either value of the mode input. -/
def Obligations.ResetValues : Prop :=
  ∀ m, (State.resetIn m).mode = m ∧ (State.resetIn m).nextKey = 256 ∧
    (∀ c, fwdRead (State.resetIn m) c = if c < 256 then some [BitVec.ofNat 8 c] else none) ∧
    (∀ b : Byte, revRead (State.resetIn m) [b] = some b.toNat) ∧
    (∀ k : ByteSeq, k.length ≠ 1 → revRead (State.resetIn m) k = none) ∧
    (State.resetIn m).pending = none ∧ (State.resetIn m).prev = none ∧
    (State.resetIn m).outbuf = [] ∧ (State.resetIn m).cursor = 0 ∧
    (State.resetIn m).ended = false ∧ (State.resetIn m).closed = false ∧
    (State.resetIn m).fault = none ∧ (State.resetIn m).transfer = none

/-- Reset at any time (R280), a command waiting on the bit port included: the next state has every
element of the block at its reset value, no response is given, and the bits transferred stay on the
wire. A run's output counts from here (R285): the bits and the responses so far are in the record of the
past (log 11), and the output is empty in either mode. That the host's words and the primitive's answers
stay is the model's reading (log 13). -/
def Obligations.ResetAtAnyTime : Prop :=
  ∀ s m, s.resetInput = some m → ∃ t, step s = .next t ∧
    t = { State.resetIn m with
      capacity := s.capacity
      commands := s.commands
      pastResponses := s.pastResponses ++ s.responses
      pastBits := s.pastBits ++ s.outBits
      writeAnswers := s.writeAnswers
      readAnswers := s.readAnswers } ∧
    wireBits t = wireBits s ∧ compressOutput t = [] ∧ decompressOutput t = []

/-- The invariant holds right after reset, in either mode (R24 to R29, R36, R40). -/
def Obligations.ResetMeetsInvariant : Prop := ∀ m, BlockInv (State.resetIn m)

/-! ## The step -/

/-- A step takes the host's next word and runs its command (R65, R80, R200): where reset is not asserted
and nothing waits, the step is exec of the decoded command on the state without that word; and every
word decodes to a well-formed command. The host's words are a list in State (log 10). -/
def Obligations.StepRunsDecodedCommand : Prop :=
  ∀ s x rest, s.resetInput = none → s.transfer = none → s.commands = x :: rest →
    wellFormed (decodeWord x) = true ∧ step s = exec (decodeWord x) { s with commands := rest }

/-- The block changes nothing while it waits (R281, R291): for the host, when there is no command; for the
primitive, when a transfer waits and there is no answer to it. The answers are lists in State (log 8). -/
def Obligations.BlockHoldsWhileItWaits : Prop :=
  ∀ s, s.resetInput = none →
    ((s.transfer = none ∧ s.commands = []) ∨
     (∃ b rest own, s.transfer = some (.write (b :: rest) own) ∧ s.writeAnswers = []) ∨
     (∃ acc left w own, s.transfer = some (.read acc (left + 1) w own) ∧ s.readAnswers = [])) →
    step s = .next s

/-- A hold changes nothing but time (R291): a command that waits and is then given answers ends as it
would have ended with those answers at hand from the start. The answers are lists in State (log 8), and a
step runs a command up to its end or its next hold (log 14). -/
def Obligations.HeldCommandEndsAsUninterrupted : Prop :=
  ∀ i s t wa ra, s.resetInput = none → s.transfer = none → exec i s = .next t → t.transfer ≠ none →
    step { t with writeAnswers := t.writeAnswers ++ wa, readAnswers := t.readAnswers ++ ra } =
      exec i { s with writeAnswers := s.writeAnswers ++ wa, readAnswers := s.readAnswers ++ ra }

/-- Every step keeps the invariant of the block (R24 to R29, R35 to R37, R64). -/
def Obligations.StepKeepsInvariant : Prop := ∀ s t, BlockInv s → step s = .next t → BlockInv t

/-- In a state of the invariant no step stops: the model's faults and refusals are out of reach, and
every command has its effect or its fault response (R86, R124, R240). -/
def Obligations.StepNeverStops : Prop := ∀ s, BlockInv s → ∃ t, step s = .next t

/-! ## The prologue and the faults that change nothing -/

/-- The order of the checks (R200, R250). -/
def Obligations.CommandPriority : Prop :=
  ∀ (x : CommandWord) (s : State),
    exec (decodeWord x) s =
      if opField x = 0x0 ∨ 0x9 ≤ opField x then .next { s with responses := s.responses ++ [0xF05] }
      else if 0x5 ≤ opField x then .next { s with responses := s.responses ++ [0xF02] }
      else if opField x = 0x3 then execClose (immField x) s
      else if s.closed = true then .next { s with responses := s.responses ++ [0xF04] }
      else match s.fault with
        | some f => .next { s with responses := s.responses ++ [responseWord (.fault f)] }
        | none =>
          if opField x = 0x4 then .next { s with responses := s.responses ++ [0x000] }
          else if (opField x = 0x1 ∧ s.mode = .decompress) ∨ (opField x = 0x2 ∧ s.mode = .compress) then
            .next { s with responses := s.responses ++ [0xF03] }
          else if opField x = 0x1 then writeByte (immField x) s
          else readByte s

/-- A command word with a reserved opcode, and so each reserved row, is answered `FAULT(5)` in every
state and changes nothing (R225, R244). -/
def Obligations.ReservedOpcodesAreIllegal : Prop :=
  ∀ (s : State) (imm : Byte),
    (∀ op ∈ ([0x0, 0x9, 0xA, 0xB, 0xC, 0xD, 0xE, 0xF] : List (BitVec 4)),
      exec (decodeWord (op ++ imm)) s = .next { s with responses := s.responses ++ [0xF05] }) ∧
    ∀ i ∈ [Instr.reserved0 imm, .reserved9 imm, .reservedA imm, .reservedB imm,
        .reservedC imm, .reservedD imm, .reservedE imm, .reservedF imm],
      exec i s = .next { s with responses := s.responses ++ [0xF05] }

/-- SEEK, GETLEN, GETPOS and SETPOS are answered `FAULT(2)` in every state and change nothing (R220 to
R223, R246). -/
def Obligations.RandomAccessAlwaysFails : Prop :=
  ∀ (s : State) (imm : Byte), ∀ i ∈ [Instr.seek imm, .getlen imm, .getpos imm, .setpos imm],
    exec i s = .next { s with responses := s.responses ++ [0xF02] }

/-- FLUSH is answered `OK`, in either mode, and changes nothing (R218). -/
def Obligations.FlushHasNoEffect : Prop :=
  ∀ (s : State) (imm : Byte), Live s →
    exec (.flush imm) s = .next { s with responses := s.responses ++ [0x000] }

/-- After CLOSE: WRB, RDB and FLUSH are answered `FAULT(4)`, a second CLOSE `OK`, and nothing changes
(R243). -/
def Obligations.ClosedStreamRefuses : Prop :=
  ∀ (s : State) (imm : Byte), s.closed = true →
    (∀ i ∈ [Instr.wrb imm, .rdb imm, .flush imm],
      exec i s = .next { s with responses := s.responses ++ [0xF04] }) ∧
    exec (.close imm) s = .next { s with responses := s.responses ++ [0x000] }

/-- A stored fault is reported again by WRB, RDB and FLUSH, and nothing changes (R214). -/
def Obligations.StoredFaultIsReported : Prop :=
  ∀ (s : State) (f : FaultCode) (imm : Byte), s.closed = false → s.fault = some f →
    ∀ i ∈ [Instr.wrb imm, .rdb imm, .flush imm],
      exec i s = .next { s with responses := s.responses ++ [responseWord (.fault f)] }

/-- WRB in decompress mode and RDB in compress mode are answered `FAULT(3)` and change nothing (R249). -/
def Obligations.WrongModeRefused : Prop :=
  ∀ (s : State) (imm : Byte), Live s →
    (s.mode = .decompress → exec (.wrb imm) s = .next { s with responses := s.responses ++ [0xF03] }) ∧
    (s.mode = .compress → exec (.rdb imm) s = .next { s with responses := s.responses ++ [0xF03] })

/-! ## WRB -/

/-- WRB of a byte that extends the match (R121, R205): the candidate becomes `PENDING`, and no bit is
written. -/
def Obligations.WrbExtendsMatch : Prop :=
  ∀ (s : State) (b : Byte) (c : Nat), Live s → s.mode = .compress →
    revRead s (s.pending.getD [] ++ [b]) = some c →
    exec (.wrb b) s = .next { s with
      pending := some (s.pending.getD [] ++ [b])
      responses := s.responses ++ [0x000] }

/-- WRB of a byte that ends the match (R122, R172, R205): the candidate is learned under `NEXT_KEY`, the
byte becomes `PENDING`, and the code of the old `PENDING` is written in `bits(NEXT_KEY - 1)` of the new
`NEXT_KEY`. -/
def Obligations.WrbEmitsCode : Prop :=
  ∀ (s : State) (b : Byte) (p : ByteSeq) (c : Nat) (more : List WriteAnswer),
    Live s → s.mode = .compress → HasRoom s → s.pending = some p →
    revRead s (p ++ [b]) = none → revRead s p = some c →
    s.writeAnswers = List.replicate (bits s.nextKey) .accept ++ more →
    exec (.wrb b) s = .next { dictInsert s.nextKey (p ++ [b]) s with
      nextKey := s.nextKey + 1
      pending := some [b]
      outBits := s.outBits ++ codeBits c (bits s.nextKey)
      writeAnswers := more
      responses := s.responses ++ [0x000] }

/-- WRB's frame, whatever WRB answers (R205, R241, R248): the decoder's state, the setting, `CLOSED` and
`result` stay, a stored fault stays, and the dictionary learns at most the candidate. -/
def Obligations.WrbFrame : Prop :=
  ∀ (s t : State) (b : Byte), Memory.wf s → exec (.wrb b) s = .next t →
    SameSetting s t ∧ GrowsByAtMost (s.pending.getD [] ++ [b]) s t ∧
    t.prev = s.prev ∧ t.outbuf = s.outbuf ∧ t.cursor = s.cursor ∧ t.ended = s.ended ∧
    t.closed = s.closed ∧ t.readAnswers = s.readAnswers ∧ t.result = s.result ∧
    (∀ f, s.fault = some f → t.fault = some f) ∧ (∃ bs, t.outBits = s.outBits ++ bs)

/-! ## RDB -/

/-- RDB serves the next byte of the buffer, with no bit transfer (R211). -/
def Obligations.RdbServesBuffer : Prop :=
  ∀ (s : State) (imm b : Byte), Live s → s.mode = .decompress → s.outbuf[s.cursor]? = some b →
    exec (.rdb imm) s = .next { s with
      cursor := s.cursor + 1
      responses := s.responses ++ [(0x1 : BitVec 4) ++ b] }

/-- RDB ends the stream, answering `EOD`, on the sentinel and on a source that ends inside the code
(R212); after the end it answers `EOD`, reads nothing and changes nothing (R213). The buffer is exhausted
when `ENDED` is set. -/
def Obligations.RdbEndsStream : Prop :=
  ∀ (s : State) (imm : Byte),
    (∀ (bs : List Bit) (more : List ReadAnswer), ReadsCode s →
      (bs.length = bits (s.nextKey + 1) ∧ assemble bs = 2 ^ bits (s.nextKey + 1) - 1 ∧
          s.readAnswers = bs.map .bit ++ more) ∨
        (bs.length < bits (s.nextKey + 1) ∧ s.readAnswers = bs.map .bit ++ .endOfData :: more) →
      exec (.rdb imm) s = .next { s with
        ended := true
        readAnswers := more
        responses := s.responses ++ [0x200] }) ∧
    (Live s → s.mode = .decompress → s.outbuf.length ≤ s.cursor → s.ended = true →
      exec (.rdb imm) s = .next { s with responses := s.responses ++ [0x200] })

/-- RDB on a first code of the alphabet (R143, R210): its key is remembered, nothing is learned, and its
first byte is served. -/
def Obligations.RdbServesFirstCode : Prop :=
  ∀ (s : State) (imm h : Byte) (q : ByteSeq) (bs : List Bit) (more : List ReadAnswer),
    ReadsCode s → s.prev = none → bs.length = bits (s.nextKey + 1) →
    s.readAnswers = bs.map .bit ++ more → assemble bs ≠ 2 ^ bits (s.nextKey + 1) - 1 →
    assemble bs < 256 → fwdRead s (assemble bs) = some (h :: q) →
    exec (.rdb imm) s = .next { s with
      prev := some (h :: q)
      outbuf := h :: q
      cursor := 1
      readAnswers := more
      responses := s.responses ++ [(0x1 : BitVec 4) ++ h] }

/-- RDB on a known code (R146, R210): its key is served, and `PREV` extended by its first byte is
learned. -/
def Obligations.RdbServesKnownCode : Prop :=
  ∀ (s : State) (imm h : Byte) (p q : ByteSeq) (bs : List Bit) (more : List ReadAnswer),
    ReadsCode s → HasRoom s → s.prev = some p → bs.length = bits (s.nextKey + 1) →
    s.readAnswers = bs.map .bit ++ more → assemble bs ≠ 2 ^ bits (s.nextKey + 1) - 1 →
    assemble bs < s.nextKey → fwdRead s (assemble bs) = some (h :: q) →
    exec (.rdb imm) s = .next { dictInsert s.nextKey (p ++ [h]) s with
      nextKey := s.nextKey + 1
      prev := some (h :: q)
      outbuf := h :: q
      cursor := 1
      readAnswers := more
      responses := s.responses ++ [(0x1 : BitVec 4) ++ h] }

/-- RDB on the unseen code (R145, R210): `PREV` extended by its own first byte is served and learned. -/
def Obligations.RdbServesUnseenCode : Prop :=
  ∀ (s : State) (imm h : Byte) (p : ByteSeq) (bs : List Bit) (more : List ReadAnswer),
    ReadsCode s → HasRoom s → s.prev = some (h :: p) → bs.length = bits (s.nextKey + 1) →
    s.readAnswers = bs.map .bit ++ more → assemble bs ≠ 2 ^ bits (s.nextKey + 1) - 1 →
    assemble bs = s.nextKey →
    exec (.rdb imm) s = .next { dictInsert s.nextKey (h :: p ++ [h]) s with
      nextKey := s.nextKey + 1
      prev := some (h :: p ++ [h])
      outbuf := h :: p ++ [h]
      cursor := 1
      readAnswers := more
      responses := s.responses ++ [(0x1 : BitVec 4) ++ h] }

/-- RDB on a corrupt code (R144, R148, R245): `FAULT(1)`, stored; the code's bits are consumed and
nothing else changes. -/
def Obligations.RdbRaisesCorruptStream : Prop :=
  ∀ (s : State) (imm : Byte) (bs : List Bit) (more : List ReadAnswer),
    ReadsCode s → bs.length = bits (s.nextKey + 1) → s.readAnswers = bs.map .bit ++ more →
    assemble bs ≠ 2 ^ bits (s.nextKey + 1) - 1 →
    (s.prev = none ∧ 256 ≤ assemble bs) ∨ (s.prev ≠ none ∧ s.nextKey < assemble bs) →
    exec (.rdb imm) s = .next { s with
      fault := some .corruptStream
      readAnswers := more
      responses := s.responses ++ [0xF01] }

/-- RDB's frame, whatever RDB answers (R210, R241, R248): the encoder's state, the setting, `CLOSED`, the
output bits and `result` stay, a stored fault stays, and the dictionary learns at most `PREV` extended
by the first byte of the resolved key. -/
def Obligations.RdbFrame : Prop :=
  ∀ (s t : State) (imm : Byte), Memory.wf s → exec (.rdb imm) s = .next t →
    SameSetting s t ∧ DecoderLearns s t ∧
    t.pending = s.pending ∧ t.closed = s.closed ∧ t.outBits = s.outBits ∧
    t.writeAnswers = s.writeAnswers ∧ t.result = s.result ∧
    (∀ f, s.fault = some f → t.fault = some f) ∧ (s.ended = true → t.ended = true)

/-! ## CLOSE -/

/-- CLOSE in compress mode (R126, R178, R215): the code of the pending match, if there is one, then the
sentinel, both in `bits(NEXT_KEY - 1)`; `PENDING` is drained and the stream closed. -/
def Obligations.CloseFlushesAndEnds : Prop :=
  ∀ (s : State) (imm : Byte) (flushed : List Bit) (more : List WriteAnswer),
    Live s → s.mode = .compress →
    (s.pending = none ∧ flushed = []) ∨
      (∃ p c, s.pending = some p ∧ revRead s p = some c ∧ flushed = codeBits c (bits (s.nextKey - 1))) →
    s.writeAnswers =
      List.replicate (flushed.length + bits (s.nextKey - 1)) .accept ++ more →
    exec (.close imm) s = .next { s with
      closed := true
      pending := none
      outBits := s.outBits ++ flushed ++ List.replicate (bits (s.nextKey - 1)) true
      writeAnswers := more
      responses := s.responses ++ [0x000] }

/-- CLOSE in decompress mode, and in compress mode with a fault stored, writes nothing (R216); an RDB
afterwards is answered `FAULT(4)`. -/
def Obligations.CloseWritesNothing : Prop :=
  ∀ (s : State) (imm : Byte), s.closed = false → s.mode = .decompress ∨ s.fault ≠ none →
    ∃ t, exec (.close imm) s = .next t ∧
      t = { s with closed := true, responses := s.responses ++ [0x000] } ∧
      exec (.rdb imm) t = .next { t with responses := t.responses ++ [0xF04] }

/-- CLOSE's frame, whatever CLOSE answers (R215, R216): the stream is closed, the dictionary, the
decoder's state and the setting stay, a stored fault stays. -/
def Obligations.CloseFrame : Prop :=
  ∀ (s t : State) (imm : Byte), exec (.close imm) s = .next t →
    SameSetting s t ∧ SameDictionary s t ∧ t.closed = true ∧
    t.prev = s.prev ∧ t.outbuf = s.outbuf ∧ t.cursor = s.cursor ∧ t.ended = s.ended ∧
    t.readAnswers = s.readAnswers ∧ t.result = s.result ∧
    (∀ f, s.fault = some f → t.fault = some f) ∧ (∃ bs, t.outBits = s.outBits ++ bs)

/-! ## Capacity and bit-port failures -/

/-- `CAPACITY_EXCEEDED` (R247): WRB of a byte that ends the match, and RDB on a known or an unseen code,
in a full dictionary: `FAULT(6)`, stored, before any write; RDB's bits are consumed. With the default
unbounded capacity no step raises it (R54, R240). -/
def Obligations.FullDictionaryRaises : Prop :=
  (∀ s t, s.capacity = none → s.fault ≠ some .capacityExceeded → step s = .next t →
    t.fault ≠ some .capacityExceeded) ∧
  ∀ (s : State) (imm : Byte), Live s → IsFull s →
    (∀ p c, s.mode = .compress → s.pending = some p → revRead s (p ++ [imm]) = none →
      revRead s p = some c →
      exec (.wrb imm) s = .next { s with
        fault := some .capacityExceeded
        responses := s.responses ++ [0xF06] }) ∧
    (∀ h p bs more, ReadsCode s → s.prev = some (h :: p) → bs.length = bits (s.nextKey + 1) →
      s.readAnswers = bs.map .bit ++ more → assemble bs ≠ 2 ^ bits (s.nextKey + 1) - 1 →
      (assemble bs < s.nextKey ∧ ∃ k q, fwdRead s (assemble bs) = some (k :: q)) ∨
        assemble bs = s.nextKey →
      exec (.rdb imm) s = .next { s with
        fault := some .capacityExceeded
        readAnswers := more
        responses := s.responses ++ [0xF06] })

/-- `BIT_IO_ERROR` (R248): transfer number `j` of the command fails. `FAULT(7)`, stored; the bits before
it stay written or consumed, and no later one is tried. WRB's Learn and new `PENDING` are done; RDB has
changed no dictionary state; CLOSE has closed the stream and drained `PENDING`. -/
def Obligations.BitFailureEndsCommand : Prop :=
  ∀ (s : State) (imm : Byte) (j : Nat), Live s →
    (∀ p c more, s.mode = .compress → HasRoom s → s.pending = some p → revRead s (p ++ [imm]) = none →
      revRead s p = some c → j < bits s.nextKey →
      s.writeAnswers = List.replicate j .accept ++ .fail :: more →
      exec (.wrb imm) s = .next { dictInsert s.nextKey (p ++ [imm]) s with
        nextKey := s.nextKey + 1
        pending := some [imm]
        outBits := s.outBits ++ (codeBits c (bits s.nextKey)).take j
        writeAnswers := more
        fault := some .bitIoError
        responses := s.responses ++ [0xF07] }) ∧
    (∀ (bs : List Bit) (more : List ReadAnswer), ReadsCode s → bs.length = j → j < bits (s.nextKey + 1) →
      s.readAnswers = bs.map .bit ++ .fail :: more →
      exec (.rdb imm) s = .next { s with
        readAnswers := more
        fault := some .bitIoError
        responses := s.responses ++ [0xF07] }) ∧
    (∀ flushed more, s.mode = .compress →
      (s.pending = none ∧ flushed = []) ∨
        (∃ p c, s.pending = some p ∧ revRead s p = some c ∧
          flushed = codeBits c (bits (s.nextKey - 1))) →
      j < flushed.length + bits (s.nextKey - 1) →
      s.writeAnswers = List.replicate j .accept ++ .fail :: more →
      exec (.close imm) s = .next { s with
        closed := true
        pending := none
        outBits := s.outBits ++ (flushed ++ List.replicate (bits (s.nextKey - 1)) true).take j
        writeAnswers := more
        fault := some .bitIoError
        responses := s.responses ++ [0xF07] })

/-! ## Internal steps

A step run by itself leaves its result in `result`, the model's own field (log 15), and one that raises
a fault answers it (log 17); both are the model's choice. -/

/-- The Sequence Key operations (R102, R103, R104, R105): each gives the value of its rule and writes
nothing else but `result` (log 15). -/
def Obligations.SequenceKeyOperations : Prop :=
  ∀ (s : State) (b : Byte) (k l : Key) (q : ByteSeq),
    exec (.skFromByte b) s = .next { s with
      result := some (.key ⟨[b], Config.hashSeed * 31 + b.zeroExtend 32⟩) } ∧
    exec (.skEq k l) s = .next { s with result := some (.equal (decide (k.bytes = l.bytes))) } ∧
    exec (.hash q) s = .next { s with
      result := some (.hash (q.foldl (fun h c => h * 31 + c.zeroExtend 32) Config.hashSeed)) } ∧
    exec (.skAppend k b) s = .next { s with
      result := some (.key ⟨k.bytes ++ [b], k.hash * 31 + b.zeroExtend 32⟩) }

/-- SK_FROM_BYTES (R106) and path independence (R107): the key of a byte list has those bytes and their
hash, whatever part of it was built in bulk and whatever part appended. The step's value is in `result`
(log 15). -/
def Obligations.KeysDoNotDependOnPath : Prop :=
  (∀ (s : State) (q : ByteSeq),
    exec (.skFromBytes q) s = .next { s with result := some (.key ⟨q, Machine.hash q⟩) }) ∧
  (∀ q r : ByteSeq, r.foldl skAppend (skFromBytes q) = skFromBytes (q ++ r)) ∧
  ∀ k l : Key, keyConsistent k = true → keyConsistent l = true → skEq k l = true → k = l

/-- Learn (R53, R54): a non-empty key goes under `NEXT_KEY` in `FWD`, and in `REV` unless it is there;
`NEXT_KEY` grows by 1; a full dictionary raises before any write. Run by itself, the step reports in
`result` (log 15), and its fault is answered (log 17). -/
def Obligations.LearnAddsOneEntry : Prop :=
  ∀ (s : State) (k : Key), Memory.wf s → k.bytes ≠ [] →
    (HasRoom s → ∃ t, exec (.learn k) s = .next t ∧
      t = { s with fwd := t.fwd, rev := t.rev, nextKey := s.nextKey + 1, result := some .done } ∧
      (∀ c, fwdRead t c = if c = s.nextKey then some k.bytes else fwdRead s c) ∧
      ∀ l, revRead t l =
        if l = k.bytes ∧ revRead s k.bytes = none then some s.nextKey else revRead s l) ∧
    (IsFull s → s.fault = none → exec (.learn k) s = .next { s with
      fault := some .capacityExceeded
      responses := s.responses ++ [0xF06] })

/-- ENCODE_STEP (R121, R122, R123) and ENCODE_FLUSH (R126, R127), run by themselves: every case that gives
a result, in `result` (log 15). -/
def Obligations.EncoderStepCases : Prop :=
  ∀ (s : State) (b : Byte),
    (∀ c, revRead s (s.pending.getD [] ++ [b]) = some c →
      exec (.encodeStep b) s = .next { s with
        pending := some (s.pending.getD [] ++ [b])
        result := some .noCode }) ∧
    (∀ p c, HasRoom s → s.pending = some p → revRead s (p ++ [b]) = none → revRead s p = some c →
      exec (.encodeStep b) s = .next { dictInsert s.nextKey (p ++ [b]) s with
        nextKey := s.nextKey + 1
        pending := some [b]
        result := some (.code c) }) ∧
    (s.pending = none → exec .encodeFlush s = .next { s with result := some .noCode }) ∧
    (∀ p c, s.pending = some p → revRead s p = some c →
      exec .encodeFlush s = .next { s with pending := none, result := some (.code c) })

/-- The classes that learn nothing (R142, R143, R144, R148), run by themselves: EOI, a first code, a
first code outside the alphabet, a corrupt code. Results are in `result` (log 15), and the faults are
answered (log 17). -/
def Obligations.WireCodesThatLearnNothing : Prop :=
  ∀ (s : State) (v w : Nat),
    (v = 2 ^ w - 1 → exec (.wireEoi v w) s = .next { s with result := some .eoi }) ∧
    (∀ q, v ≠ 2 ^ w - 1 → s.prev = none → v < 256 → fwdRead s v = some q →
      exec (.wireFirst v w) s = .next { s with prev := some q, result := some (.seq q) }) ∧
    (v ≠ 2 ^ w - 1 → s.prev = none → 256 ≤ v → s.fault = none →
      exec (.wireFirstCorrupt v w) s = .next { s with
        fault := some .corruptStream
        responses := s.responses ++ [0xF01] }) ∧
    (v ≠ 2 ^ w - 1 → s.prev ≠ none → s.nextKey < v → s.fault = none →
      exec (.wireCorrupt v w) s = .next { s with
        fault := some .corruptStream
        responses := s.responses ++ [0xF01] })

/-- The classes that learn (R145, R146), run by themselves: a known code and the unseen code. Results
are in `result` (log 15). -/
def Obligations.WireCodesThatLearn : Prop :=
  ∀ (s : State) (v w : Nat) (h : Byte) (p : ByteSeq), HasRoom s → v ≠ 2 ^ w - 1 →
    (∀ q, s.prev = some p → v < s.nextKey → fwdRead s v = some (h :: q) →
      exec (.wireKnown v w) s = .next { dictInsert s.nextKey (p ++ [h]) s with
        nextKey := s.nextKey + 1
        prev := some (h :: q)
        result := some (.seq (h :: q)) }) ∧
    (s.prev = some (h :: p) → v = s.nextKey →
      exec (.wireUnseen v w) s = .next { dictInsert s.nextKey (h :: p ++ [h]) s with
        nextKey := s.nextKey + 1
        prev := some (h :: p ++ [h])
        result := some (.seq (h :: p ++ [h])) })

/-- DECODE_STEP (R74, R149) is the step of the class the code falls into, and a row of any other class
does not run in that state (log 16). It completes on every code that is not corrupt, with room where the
code is learned from: the sentinel gives EOI and changes nothing, any other code gives the key that is
then stored under it and remembers it. Results are in `result` (log 15). -/
def Obligations.DecodeStepRunsItsClass : Prop :=
  (∀ (s : State) (v w : Nat) (c : WireClass),
    exec (c.instr v w) s =
      if c = wireClass s.prev s.nextKey v w then exec (.decodeStep v w) s else .refused .wrongClass) ∧
  (∀ (s : State) (v w : Nat), v = 2 ^ w - 1 →
    exec (.decodeStep v w) s = .next { s with result := some .eoi }) ∧
  ∀ (s : State) (v w : Nat), BlockInv s → v ≠ 2 ^ w - 1 →
    (s.prev = none ∧ v < 256) ∨ (s.prev ≠ none ∧ v ≤ s.nextKey ∧ HasRoom s) →
    ∃ t q, exec (.decodeStep v w) s = .next t ∧ fwdRead t v = some q ∧ t.prev = some q ∧
      t.result = some (.seq q) ∧ t.nextKey = if s.prev = none then s.nextKey else s.nextKey + 1

/-- `bits` (R170): 9 below 512, else the least `w` with `2^w >= n`. The value is in
`result` (log 15). -/
def Obligations.BitsIsLeastWidth : Prop :=
  ∀ (s : State) (n : Nat), ∃ w, exec (.bits n) s = .next { s with result := some (.width w) } ∧
    (n < 512 → w = 9) ∧ (512 ≤ n → n ≤ 2 ^ w ∧ ∀ u, n ≤ 2 ^ u → w ≤ u)

/-- EMIT_CODE and EMIT_EOI (R177, R178), run by themselves: the low bits of the code, bit `w - 1` first,
or the sentinel's one-bits, each accepted in order. That a step is done is in `result` (log 15). -/
def Obligations.EmittedBits : Prop :=
  ∀ (s : State) (more : List WriteAnswer),
    (∀ c w, s.writeAnswers = List.replicate w .accept ++ more →
      exec (.emitCode c w) s = .next { s with
        outBits := s.outBits ++ (List.range w).map (fun i => c.testBit (w - 1 - i))
        writeAnswers := more
        result := some .done }) ∧
    (s.writeAnswers = List.replicate (bits (s.nextKey - 1)) .accept ++ more →
      exec .emitEoi s = .next { s with
        outBits := s.outBits ++ List.replicate (bits (s.nextKey - 1)) true
        writeAnswers := more
        result := some .done })

/-- READ_CODE (R180, R181), run by itself: the value of the bits, the first most significant; or the
physical end, the bits before it consumed and discarded. The value is in `result` (log 15). -/
def Obligations.ReadCodeAssembles : Prop :=
  ∀ (s : State) (w : Nat) (bs : List Bit) (more : List ReadAnswer),
    (bs.length = w → s.readAnswers = bs.map .bit ++ more →
      exec (.readCode w) s = .next { s with
        readAnswers := more
        result := some (.value (∑ i : Fin bs.length, (bs[i]).toNat * 2 ^ (bs.length - 1 - i))) }) ∧
    (bs.length < w → s.readAnswers = bs.map .bit ++ .endOfData :: more →
      exec (.readCode w) s = .next { s with readAnswers := more, result := some .physEnd })

/-- The frame of the internal steps (R54, R102 to R106, R123, R126, R142 to R149, R177, R180): the setting
and the lifecycle stay; the key steps and `bits` write `result` alone; Learn, ENCODE_STEP, DECODE_STEP
and the two classes that learn insert at most the key of their rule; ENCODE_FLUSH, the four classes that
learn nothing and the transfers leave the dictionary; the decoder leaves the encoder's state and the
encoder the decoder's. `result` is the model's (log 15). -/
def Obligations.InternalStepFrame : Prop :=
  ∀ (s t : State), Memory.wf s →
    (∀ b k l q n, ∀ i ∈ [Instr.skFromByte b, .skEq k l, .hash q, .skAppend k b, .skFromBytes q, .bits n],
      exec i s = .next t → t = { s with result := t.result }) ∧
    (∀ k, exec (.learn k) s = .next t →
      GrowsByAtMost k.bytes s t ∧ t = { s with
        fwd := t.fwd, rev := t.rev, nextKey := t.nextKey, fault := t.fault,
        responses := t.responses, result := t.result }) ∧
    (∀ b, exec (.encodeStep b) s = .next t →
      GrowsByAtMost (s.pending.getD [] ++ [b]) s t ∧ t = { s with
        fwd := t.fwd, rev := t.rev, nextKey := t.nextKey, pending := t.pending, fault := t.fault,
        responses := t.responses, result := t.result }) ∧
    (exec .encodeFlush s = .next t →
      SameDictionary s t ∧ t = { s with pending := t.pending, result := t.result }) ∧
    (∀ v w, exec (.wireEoi v w) s = .next t →
      SameDictionary s t ∧ t = { s with result := t.result }) ∧
    (∀ v w, exec (.wireFirst v w) s = .next t →
      SameDictionary s t ∧ t = { s with prev := t.prev, result := t.result }) ∧
    (∀ v w, ∀ i ∈ [Instr.wireFirstCorrupt v w, .wireCorrupt v w], exec i s = .next t →
      SameDictionary s t ∧ t = { s with fault := t.fault, responses := t.responses }) ∧
    (∀ v w, ∀ i ∈ [Instr.decodeStep v w, .wireKnown v w, .wireUnseen v w], exec i s = .next t →
      DecoderLearns s t ∧ t = { s with
        fwd := t.fwd, rev := t.rev, nextKey := t.nextKey, prev := t.prev, fault := t.fault,
        responses := t.responses, result := t.result }) ∧
    (∀ c w, ∀ i ∈ [Instr.emitCode c w, .emitEoi, .readCode w], exec i s = .next t →
      SameDictionary s t ∧ t = { s with
        fault := t.fault, transfer := t.transfer, responses := t.responses, outBits := t.outBits,
        writeAnswers := t.writeAnswers, readAnswers := t.readAnswers, result := t.result })

/-! ## Rules of the whole machine -/

/-- Without a reset, no step changes `MODE` or the capacity, reopens a closed or an ended stream, or
changes a stored fault (R21, R30, R34, R35). -/
def Obligations.LifecycleOnlyAdvances : Prop :=
  ∀ s t, s.resetInput = none → step s = .next t →
    t.mode = s.mode ∧ t.capacity = s.capacity ∧ (s.closed = true → t.closed = true) ∧
    (s.ended = true → t.ended = true) ∧ ∀ f, s.fault = some f → t.fault = some f

/-- Without a reset, the dictionary only grows, by at most one key a step and in both tables by the same
one, no entry is ever rewritten (R24, R53, R64), and neither side's code width ever decreases (R176). -/
def Obligations.DictionaryAndWidthsOnlyGrow : Prop :=
  ∀ s t, Memory.wf s → s.resetInput = none → step s = .next t →
    (SameDictionary s t ∨ ∃ k, k ≠ [] ∧ GrowsBy k s t) ∧
    bits (s.nextKey - 1) ≤ bits (t.nextKey - 1) ∧ bits (s.nextKey + 1) ≤ bits (t.nextKey + 1)

/-- One direction per instance (R56, R57, R216, R292): in decompress mode no bit is written, in compress
mode no bit is read, and bits written stay written, whatever reset does (R280). Without a reset, what a
step writes is added to the run's output (R285). -/
def Obligations.OneDirectionOnThePort : Prop :=
  ∀ s t, BlockInv s → step s = .next t →
    (∃ bs, wireBits t = wireBits s ++ bs) ∧
    (s.resetInput = none → ∃ bs, compressOutput t = compressOutput s ++ bs ∧ t.pastBits = s.pastBits) ∧
    (s.mode = .decompress → wireBits t = wireBits s ∧ t.writeAnswers = s.writeAnswers) ∧
    (s.mode = .compress → t.readAnswers = s.readAnswers)

/-- Every command is answered exactly once (R65, R85): a step that runs a command, or goes on with one
that waits, either completes it with one response the host can read, or leaves it waiting with none. -/
def Obligations.OneResponsePerCommand : Prop :=
  ∀ s t, BlockInv s → s.resetInput = none → (s.transfer ≠ none ∨ s.commands ≠ []) → step s = .next t →
    (t.transfer = none ∧ ∃ r, t.responses = s.responses ++ [responseWord r] ∧
        readResponse (responseWord r) = some r) ∨
    (t.transfer ≠ none ∧ t.responses = s.responses)

/-- The responses each command can give (R86). A stored fault that WRB and FLUSH report is any stored one
(R200, R214): for WRB in decompress mode that includes code 1, which R86's row of WRB leaves out (log
26). -/
def Obligations.ResponsesOfCommands : Prop :=
  ∀ s t (imm : Byte) r, BlockInv s → t.responses = s.responses ++ [responseWord r] →
    (exec (.wrb imm) s = .next t → r ∈ [.ok, .fault .wrongMode, .fault .streamClosed,
      .fault .capacityExceeded, .fault .bitIoError] ∨ s.fault.map .fault = some r) ∧
    (exec (.rdb imm) s = .next t → (∃ b, r = .byte b) ∨ r ∈ [.eod, .fault .corruptStream,
      .fault .wrongMode, .fault .streamClosed, .fault .capacityExceeded, .fault .bitIoError]) ∧
    (exec (.close imm) s = .next t → r ∈ [.ok, .fault .bitIoError]) ∧
    (exec (.flush imm) s = .next t → r ∈ [.ok, .fault .streamClosed] ∨ s.fault.map .fault = some r)

/-- The table a mode does not read is unobservable (R41): steps from two states that differ in `FWD` in
compress mode, or in `REV` in decompress mode, differ in nothing else. In compress mode no read of a
code can be waiting. -/
def Obligations.UnreadTableIsUnobservable : Prop :=
  (∀ s t f, s.mode = .compress → (∀ acc left w own, s.transfer ≠ some (.read acc left w own)) →
    step s = .next t → ∃ g, step { s with fwd := f } = .next { t with fwd := g }) ∧
  ∀ s t r, s.mode = .decompress →
    step s = .next t → ∃ g, step { s with rev := r } = .next { t with rev := g }

/-- Tables in canonical form that read alike are equal, so equal dictionaries are equal data (R51, R52,
log 6). -/
def Obligations.EqualReadsAreEqualTables : Prop :=
  ∀ s t : State, Memory.wf s → Memory.wf t →
    (∀ c, fwdRead s c = fwdRead t c) → (∀ k, revRead s k = revRead t k) →
    s.fwd = t.fwd ∧ s.rev = t.rev

/-! ## The codec -/

/-- Greedy longest match, and no byte lost (R123, R124, R125): in a compress-mode state of the invariant
with room, ENCODE_STEP either extends the match by the byte, or emits the code of the whole match, whose
extension is absent, and starts again with the byte; the code is at most `NEXT_KEY - 2` and fits its
width. -/
def Obligations.EncoderIsGreedyAndLossless : Prop :=
  ∀ (s : State) (b : Byte), BlockInv s → s.mode = .compress → HasRoom s →
    (∃ t, encodeStep b s = .val none t ∧ t.pending = some (s.pending.getD [] ++ [b]) ∧
      t.nextKey = s.nextKey) ∨
    (∃ t c p, encodeStep b s = .val (some c) t ∧ s.pending = some p ∧ fwdRead s c = some p ∧
      (∀ d, fwdRead s d ≠ some (p ++ [b])) ∧ t.pending = some [b] ∧ t.nextKey = s.nextKey + 1 ∧
      c + 2 ≤ t.nextKey ∧ c < 2 ^ bits (t.nextKey - 1))

/-- Flush overflow (R177, R295): in compress mode a flush code does not fit its width exactly when
`NEXT_KEY - 1` is a power of two from 2^9 on and the code is `NEXT_KEY - 1`; EMIT_CODE then writes
zeros. -/
def Obligations.FlushOverflowsExactlyAtPowers : Prop :=
  ∀ (s : State) (p : ByteSeq) (c : Nat), BlockInv s → s.mode = .compress → s.pending = some p →
    revRead s p = some c →
    (¬ c < 2 ^ bits (s.nextKey - 1) ↔ ∃ m, 9 ≤ m ∧ s.nextKey - 1 = 2 ^ m ∧ c = s.nextKey - 1) ∧
    (¬ c < 2 ^ bits (s.nextKey - 1) →
      codeBits c (bits (s.nextKey - 1)) = List.replicate (bits (s.nextKey - 1)) false)

/-- EOI and unseen-code collision (R296): at `NEXT_KEY = 2^m - 1` the unseen code reads as the sentinel,
so RDB answers `EOD` with no fault and learns nothing. -/
def Obligations.UnseenCodeCollidesWithEoi : Prop :=
  ∀ (s : State) (imm : Byte) (m : Nat) (bs : List Bit) (more : List ReadAnswer),
    9 ≤ m → s.nextKey = 2 ^ m - 1 → ReadsCode s → bs.length = m → assemble bs = s.nextKey →
    s.readAnswers = bs.map .bit ++ more →
    exec (.rdb imm) s = .next { s with
      ended := true
      readAnswers := more
      responses := s.responses ++ [0x200] }

/-- EOI width hazard (R294): at `NEXT_KEY = 2^m` the decoder reads `m + 1` bits, so a sentinel of `m`
one-bits takes in one bit of padding: a 1 gives `EOD`, a 0 gives `FAULT(1)`, none gives `EOD`. -/
def Obligations.EoiWidthHazard : Prop :=
  ∀ (s : State) (imm : Byte) (m : Nat) (more : List ReadAnswer),
    9 ≤ m → s.nextKey = 2 ^ m → s.prev ≠ none → ReadsCode s →
    (s.readAnswers = List.replicate m (.bit true) ++ .bit true :: more ∨
        s.readAnswers = List.replicate m (.bit true) ++ .endOfData :: more →
      exec (.rdb imm) s = .next { s with
        ended := true
        readAnswers := more
        responses := s.responses ++ [0x200] }) ∧
    (s.readAnswers = List.replicate m (.bit true) ++ .bit false :: more →
      exec (.rdb imm) s = .next { s with
        fault := some .corruptStream
        readAnswers := more
        responses := s.responses ++ [0xF01] })

/-- The decoder mirrors the encoder (R151, R175): from the first regular code on, and on every one after
it, the decoder resolves the code to the bytes the encoder matched, both sides use the same width, and
the decoder's dictionary stays one entry behind the encoder's. -/
def Obligations.DecoderMirrorsEncoder : Prop :=
  (∀ e e' d b c, BlockInv e → BlockInv d → e.mode = .compress → e.nextKey = 256 → d.nextKey = 256 →
    d.prev = none → d.capacity = e.capacity → encodeStep b e = .val (some c) e' →
    bits (e'.nextKey - 1) = bits (d.nextKey + 1) ∧
    ∃ p d', e.pending = some p ∧ decodeStep c (bits (d.nextKey + 1)) d = .val (some p) d' ∧
      Mirrors e' d') ∧
  (∀ e e' d b c, BlockInv e → BlockInv d → e.mode = .compress → Mirrors e d →
    encodeStep b e = .val (some c) e' →
    bits (e'.nextKey - 1) = bits (d.nextKey + 1) ∧
    (c ≠ eoiPattern (bits (d.nextKey + 1)) →
      ∃ p d', e.pending = some p ∧ decodeStep c (bits (d.nextKey + 1)) d = .val (some p) d' ∧
        Mirrors e' d')) ∧
  (∀ e e' d b, Mirrors e d → encodeStep b e = .val none e' → Mirrors e' d)

/-- Round trip (R297): every input of at most 256 bytes, compressed and closed on a primitive that
accepts its bits, decompresses to itself followed by `EOD`, whatever the padding. -/
def Obligations.ShortInputsRoundTrip : Prop :=
  ∀ (x : ByteSeq) (pad : List Bit), x.length ≤ 256 →
    ∃ t u, Host.Core.run core (x.length + 1) (compressSetup x (9 * (x.length + 1))) = .next t ∧
      compressSucceeded t = true ∧
      Host.Core.run core (x.length + 1) (decompressSetup (t.outBits ++ pad) (x.length + 1)) = .next u ∧
      u.responses = x.map (fun b => responseWord (.byte b)) ++ [responseWord .eod]

/-! ## The status word -/

/-- The packing `STATUS[7:0]` (R36) in a state of the invariant: bit 0 `MODE`, bit 1 `CLOSED`, bit 2
`ENDED`, which is 0 in compress mode, bits 5:3 the stored fault's number, one of 0, 1, 6 and 7, bits 7:6
zero. -/
def Obligations.StatusWordPacks : Prop :=
  ∀ s, BlockInv s →
    ((statusWord s).getLsbD 0 = true ↔ s.mode = .decompress) ∧
    ((statusWord s).getLsbD 1 = true ↔ s.closed = true) ∧
    ((statusWord s).getLsbD 2 = true ↔ s.ended = true) ∧
    (s.mode = .compress → (statusWord s).getLsbD 2 = false) ∧
    ((statusWord s).extractLsb' 3 3 = 0 ↔ s.fault = none) ∧
    ((statusWord s).extractLsb' 3 3 = 1 ↔ s.fault = some .corruptStream) ∧
    ((statusWord s).extractLsb' 3 3 = 6 ↔ s.fault = some .capacityExceeded) ∧
    ((statusWord s).extractLsb' 3 3 = 7 ↔ s.fault = some .bitIoError) ∧
    (statusWord s).extractLsb' 3 3 ∈ [0, 1, 6, 7] ∧
    (statusWord s).extractLsb' 6 2 = 0
end

