-- ==== Sys2Proof/Laws/State.lean ====
section
/-! SUPPORT. One lemma per field per update of State, each true by rfl, so that no later proof unfolds a
record update. -/

namespace Sys2Proof.Machine

variable (s : State)

/-! ## respond -/

@[simp] theorem respond_mode (r : Response) : (respond r s).mode = s.mode := rfl
@[simp] theorem respond_fwd (r : Response) : (respond r s).fwd = s.fwd := rfl
@[simp] theorem respond_rev (r : Response) : (respond r s).rev = s.rev := rfl
@[simp] theorem respond_nextKey (r : Response) : (respond r s).nextKey = s.nextKey := rfl
@[simp] theorem respond_pending (r : Response) : (respond r s).pending = s.pending := rfl
@[simp] theorem respond_prev (r : Response) : (respond r s).prev = s.prev := rfl
@[simp] theorem respond_outbuf (r : Response) : (respond r s).outbuf = s.outbuf := rfl
@[simp] theorem respond_cursor (r : Response) : (respond r s).cursor = s.cursor := rfl
@[simp] theorem respond_ended (r : Response) : (respond r s).ended = s.ended := rfl
@[simp] theorem respond_closed (r : Response) : (respond r s).closed = s.closed := rfl
@[simp] theorem respond_fault (r : Response) : (respond r s).fault = s.fault := rfl
@[simp] theorem respond_transfer (r : Response) : (respond r s).transfer = s.transfer := rfl
@[simp] theorem respond_capacity (r : Response) : (respond r s).capacity = s.capacity := rfl
@[simp] theorem respond_resetInput (r : Response) : (respond r s).resetInput = s.resetInput := rfl
@[simp] theorem respond_commands (r : Response) : (respond r s).commands = s.commands := rfl
@[simp] theorem respond_responses (r : Response) : (respond r s).responses = s.responses ++ [responseWord r] := rfl
@[simp] theorem respond_pastResponses (r : Response) : (respond r s).pastResponses = s.pastResponses := rfl
@[simp] theorem respond_outBits (r : Response) : (respond r s).outBits = s.outBits := rfl
@[simp] theorem respond_pastBits (r : Response) : (respond r s).pastBits = s.pastBits := rfl
@[simp] theorem respond_writeAnswers (r : Response) : (respond r s).writeAnswers = s.writeAnswers := rfl
@[simp] theorem respond_readAnswers (r : Response) : (respond r s).readAnswers = s.readAnswers := rfl
@[simp] theorem respond_result (r : Response) : (respond r s).result = s.result := rfl

/-! ## giveResult -/

@[simp] theorem giveResult_mode (r : StepResult) : (giveResult r s).mode = s.mode := rfl
@[simp] theorem giveResult_fwd (r : StepResult) : (giveResult r s).fwd = s.fwd := rfl
@[simp] theorem giveResult_rev (r : StepResult) : (giveResult r s).rev = s.rev := rfl
@[simp] theorem giveResult_nextKey (r : StepResult) : (giveResult r s).nextKey = s.nextKey := rfl
@[simp] theorem giveResult_pending (r : StepResult) : (giveResult r s).pending = s.pending := rfl
@[simp] theorem giveResult_prev (r : StepResult) : (giveResult r s).prev = s.prev := rfl
@[simp] theorem giveResult_outbuf (r : StepResult) : (giveResult r s).outbuf = s.outbuf := rfl
@[simp] theorem giveResult_cursor (r : StepResult) : (giveResult r s).cursor = s.cursor := rfl
@[simp] theorem giveResult_ended (r : StepResult) : (giveResult r s).ended = s.ended := rfl
@[simp] theorem giveResult_closed (r : StepResult) : (giveResult r s).closed = s.closed := rfl
@[simp] theorem giveResult_fault (r : StepResult) : (giveResult r s).fault = s.fault := rfl
@[simp] theorem giveResult_transfer (r : StepResult) : (giveResult r s).transfer = s.transfer := rfl
@[simp] theorem giveResult_capacity (r : StepResult) : (giveResult r s).capacity = s.capacity := rfl
@[simp] theorem giveResult_resetInput (r : StepResult) : (giveResult r s).resetInput = s.resetInput := rfl
@[simp] theorem giveResult_commands (r : StepResult) : (giveResult r s).commands = s.commands := rfl
@[simp] theorem giveResult_responses (r : StepResult) : (giveResult r s).responses = s.responses := rfl
@[simp] theorem giveResult_pastResponses (r : StepResult) : (giveResult r s).pastResponses = s.pastResponses := rfl
@[simp] theorem giveResult_outBits (r : StepResult) : (giveResult r s).outBits = s.outBits := rfl
@[simp] theorem giveResult_pastBits (r : StepResult) : (giveResult r s).pastBits = s.pastBits := rfl
@[simp] theorem giveResult_writeAnswers (r : StepResult) : (giveResult r s).writeAnswers = s.writeAnswers := rfl
@[simp] theorem giveResult_readAnswers (r : StepResult) : (giveResult r s).readAnswers = s.readAnswers := rfl
@[simp] theorem giveResult_result (r : StepResult) : (giveResult r s).result = some r := rfl

/-! ## hold -/

@[simp] theorem hold_mode (t : Transfer) : (hold t s).mode = s.mode := rfl
@[simp] theorem hold_fwd (t : Transfer) : (hold t s).fwd = s.fwd := rfl
@[simp] theorem hold_rev (t : Transfer) : (hold t s).rev = s.rev := rfl
@[simp] theorem hold_nextKey (t : Transfer) : (hold t s).nextKey = s.nextKey := rfl
@[simp] theorem hold_pending (t : Transfer) : (hold t s).pending = s.pending := rfl
@[simp] theorem hold_prev (t : Transfer) : (hold t s).prev = s.prev := rfl
@[simp] theorem hold_outbuf (t : Transfer) : (hold t s).outbuf = s.outbuf := rfl
@[simp] theorem hold_cursor (t : Transfer) : (hold t s).cursor = s.cursor := rfl
@[simp] theorem hold_ended (t : Transfer) : (hold t s).ended = s.ended := rfl
@[simp] theorem hold_closed (t : Transfer) : (hold t s).closed = s.closed := rfl
@[simp] theorem hold_fault (t : Transfer) : (hold t s).fault = s.fault := rfl
@[simp] theorem hold_transfer (t : Transfer) : (hold t s).transfer = some t := rfl
@[simp] theorem hold_capacity (t : Transfer) : (hold t s).capacity = s.capacity := rfl
@[simp] theorem hold_resetInput (t : Transfer) : (hold t s).resetInput = s.resetInput := rfl
@[simp] theorem hold_commands (t : Transfer) : (hold t s).commands = s.commands := rfl
@[simp] theorem hold_responses (t : Transfer) : (hold t s).responses = s.responses := rfl
@[simp] theorem hold_pastResponses (t : Transfer) : (hold t s).pastResponses = s.pastResponses := rfl
@[simp] theorem hold_outBits (t : Transfer) : (hold t s).outBits = s.outBits := rfl
@[simp] theorem hold_pastBits (t : Transfer) : (hold t s).pastBits = s.pastBits := rfl
@[simp] theorem hold_writeAnswers (t : Transfer) : (hold t s).writeAnswers = s.writeAnswers := rfl
@[simp] theorem hold_readAnswers (t : Transfer) : (hold t s).readAnswers = s.readAnswers := rfl
@[simp] theorem hold_result (t : Transfer) : (hold t s).result = s.result := rfl

/-! ## endOfStream -/

@[simp] theorem endOfStream_mode : (endOfStream s).mode = s.mode := rfl
@[simp] theorem endOfStream_fwd : (endOfStream s).fwd = s.fwd := rfl
@[simp] theorem endOfStream_rev : (endOfStream s).rev = s.rev := rfl
@[simp] theorem endOfStream_nextKey : (endOfStream s).nextKey = s.nextKey := rfl
@[simp] theorem endOfStream_pending : (endOfStream s).pending = s.pending := rfl
@[simp] theorem endOfStream_prev : (endOfStream s).prev = s.prev := rfl
@[simp] theorem endOfStream_outbuf : (endOfStream s).outbuf = s.outbuf := rfl
@[simp] theorem endOfStream_cursor : (endOfStream s).cursor = s.cursor := rfl
@[simp] theorem endOfStream_ended : (endOfStream s).ended = true := rfl
@[simp] theorem endOfStream_closed : (endOfStream s).closed = s.closed := rfl
@[simp] theorem endOfStream_fault : (endOfStream s).fault = s.fault := rfl
@[simp] theorem endOfStream_transfer : (endOfStream s).transfer = s.transfer := rfl
@[simp] theorem endOfStream_capacity : (endOfStream s).capacity = s.capacity := rfl
@[simp] theorem endOfStream_resetInput : (endOfStream s).resetInput = s.resetInput := rfl
@[simp] theorem endOfStream_commands : (endOfStream s).commands = s.commands := rfl
@[simp] theorem endOfStream_responses : (endOfStream s).responses = s.responses ++ [responseWord .eod] := rfl
@[simp] theorem endOfStream_pastResponses : (endOfStream s).pastResponses = s.pastResponses := rfl
@[simp] theorem endOfStream_outBits : (endOfStream s).outBits = s.outBits := rfl
@[simp] theorem endOfStream_pastBits : (endOfStream s).pastBits = s.pastBits := rfl
@[simp] theorem endOfStream_writeAnswers : (endOfStream s).writeAnswers = s.writeAnswers := rfl
@[simp] theorem endOfStream_readAnswers : (endOfStream s).readAnswers = s.readAnswers := rfl
@[simp] theorem endOfStream_result : (endOfStream s).result = s.result := rfl

/-! ## fwdWrite -/

@[simp] theorem fwdWrite_mode (c : Nat) (k : ByteSeq) : (fwdWrite c k s).mode = s.mode := rfl
@[simp] theorem fwdWrite_fwd (c : Nat) (k : ByteSeq) : (fwdWrite c k s).fwd = writeTable codeRank Config.seedEntry c k s.fwd := rfl
@[simp] theorem fwdWrite_rev (c : Nat) (k : ByteSeq) : (fwdWrite c k s).rev = s.rev := rfl
@[simp] theorem fwdWrite_nextKey (c : Nat) (k : ByteSeq) : (fwdWrite c k s).nextKey = s.nextKey := rfl
@[simp] theorem fwdWrite_pending (c : Nat) (k : ByteSeq) : (fwdWrite c k s).pending = s.pending := rfl
@[simp] theorem fwdWrite_prev (c : Nat) (k : ByteSeq) : (fwdWrite c k s).prev = s.prev := rfl
@[simp] theorem fwdWrite_outbuf (c : Nat) (k : ByteSeq) : (fwdWrite c k s).outbuf = s.outbuf := rfl
@[simp] theorem fwdWrite_cursor (c : Nat) (k : ByteSeq) : (fwdWrite c k s).cursor = s.cursor := rfl
@[simp] theorem fwdWrite_ended (c : Nat) (k : ByteSeq) : (fwdWrite c k s).ended = s.ended := rfl
@[simp] theorem fwdWrite_closed (c : Nat) (k : ByteSeq) : (fwdWrite c k s).closed = s.closed := rfl
@[simp] theorem fwdWrite_fault (c : Nat) (k : ByteSeq) : (fwdWrite c k s).fault = s.fault := rfl
@[simp] theorem fwdWrite_transfer (c : Nat) (k : ByteSeq) : (fwdWrite c k s).transfer = s.transfer := rfl
@[simp] theorem fwdWrite_capacity (c : Nat) (k : ByteSeq) : (fwdWrite c k s).capacity = s.capacity := rfl
@[simp] theorem fwdWrite_resetInput (c : Nat) (k : ByteSeq) : (fwdWrite c k s).resetInput = s.resetInput := rfl
@[simp] theorem fwdWrite_commands (c : Nat) (k : ByteSeq) : (fwdWrite c k s).commands = s.commands := rfl
@[simp] theorem fwdWrite_responses (c : Nat) (k : ByteSeq) : (fwdWrite c k s).responses = s.responses := rfl
@[simp] theorem fwdWrite_pastResponses (c : Nat) (k : ByteSeq) : (fwdWrite c k s).pastResponses = s.pastResponses := rfl
@[simp] theorem fwdWrite_outBits (c : Nat) (k : ByteSeq) : (fwdWrite c k s).outBits = s.outBits := rfl
@[simp] theorem fwdWrite_pastBits (c : Nat) (k : ByteSeq) : (fwdWrite c k s).pastBits = s.pastBits := rfl
@[simp] theorem fwdWrite_writeAnswers (c : Nat) (k : ByteSeq) : (fwdWrite c k s).writeAnswers = s.writeAnswers := rfl
@[simp] theorem fwdWrite_readAnswers (c : Nat) (k : ByteSeq) : (fwdWrite c k s).readAnswers = s.readAnswers := rfl
@[simp] theorem fwdWrite_result (c : Nat) (k : ByteSeq) : (fwdWrite c k s).result = s.result := rfl

/-! ## revWrite -/

@[simp] theorem revWrite_mode (k : ByteSeq) (c : Nat) : (revWrite k c s).mode = s.mode := rfl
@[simp] theorem revWrite_fwd (k : ByteSeq) (c : Nat) : (revWrite k c s).fwd = s.fwd := rfl
@[simp] theorem revWrite_rev (k : ByteSeq) (c : Nat) : (revWrite k c s).rev = writeTable keyRank Config.seedKey k c s.rev := rfl
@[simp] theorem revWrite_nextKey (k : ByteSeq) (c : Nat) : (revWrite k c s).nextKey = s.nextKey := rfl
@[simp] theorem revWrite_pending (k : ByteSeq) (c : Nat) : (revWrite k c s).pending = s.pending := rfl
@[simp] theorem revWrite_prev (k : ByteSeq) (c : Nat) : (revWrite k c s).prev = s.prev := rfl
@[simp] theorem revWrite_outbuf (k : ByteSeq) (c : Nat) : (revWrite k c s).outbuf = s.outbuf := rfl
@[simp] theorem revWrite_cursor (k : ByteSeq) (c : Nat) : (revWrite k c s).cursor = s.cursor := rfl
@[simp] theorem revWrite_ended (k : ByteSeq) (c : Nat) : (revWrite k c s).ended = s.ended := rfl
@[simp] theorem revWrite_closed (k : ByteSeq) (c : Nat) : (revWrite k c s).closed = s.closed := rfl
@[simp] theorem revWrite_fault (k : ByteSeq) (c : Nat) : (revWrite k c s).fault = s.fault := rfl
@[simp] theorem revWrite_transfer (k : ByteSeq) (c : Nat) : (revWrite k c s).transfer = s.transfer := rfl
@[simp] theorem revWrite_capacity (k : ByteSeq) (c : Nat) : (revWrite k c s).capacity = s.capacity := rfl
@[simp] theorem revWrite_resetInput (k : ByteSeq) (c : Nat) : (revWrite k c s).resetInput = s.resetInput := rfl
@[simp] theorem revWrite_commands (k : ByteSeq) (c : Nat) : (revWrite k c s).commands = s.commands := rfl
@[simp] theorem revWrite_responses (k : ByteSeq) (c : Nat) : (revWrite k c s).responses = s.responses := rfl
@[simp] theorem revWrite_pastResponses (k : ByteSeq) (c : Nat) : (revWrite k c s).pastResponses = s.pastResponses := rfl
@[simp] theorem revWrite_outBits (k : ByteSeq) (c : Nat) : (revWrite k c s).outBits = s.outBits := rfl
@[simp] theorem revWrite_pastBits (k : ByteSeq) (c : Nat) : (revWrite k c s).pastBits = s.pastBits := rfl
@[simp] theorem revWrite_writeAnswers (k : ByteSeq) (c : Nat) : (revWrite k c s).writeAnswers = s.writeAnswers := rfl
@[simp] theorem revWrite_readAnswers (k : ByteSeq) (c : Nat) : (revWrite k c s).readAnswers = s.readAnswers := rfl
@[simp] theorem revWrite_result (k : ByteSeq) (c : Nat) : (revWrite k c s).result = s.result := rfl

/-! ## placeWord -/

@[simp] theorem placeWord_mode (x : CommandWord) : (placeWord x s).mode = s.mode := rfl
@[simp] theorem placeWord_fwd (x : CommandWord) : (placeWord x s).fwd = s.fwd := rfl
@[simp] theorem placeWord_rev (x : CommandWord) : (placeWord x s).rev = s.rev := rfl
@[simp] theorem placeWord_nextKey (x : CommandWord) : (placeWord x s).nextKey = s.nextKey := rfl
@[simp] theorem placeWord_pending (x : CommandWord) : (placeWord x s).pending = s.pending := rfl
@[simp] theorem placeWord_prev (x : CommandWord) : (placeWord x s).prev = s.prev := rfl
@[simp] theorem placeWord_outbuf (x : CommandWord) : (placeWord x s).outbuf = s.outbuf := rfl
@[simp] theorem placeWord_cursor (x : CommandWord) : (placeWord x s).cursor = s.cursor := rfl
@[simp] theorem placeWord_ended (x : CommandWord) : (placeWord x s).ended = s.ended := rfl
@[simp] theorem placeWord_closed (x : CommandWord) : (placeWord x s).closed = s.closed := rfl
@[simp] theorem placeWord_fault (x : CommandWord) : (placeWord x s).fault = s.fault := rfl
@[simp] theorem placeWord_transfer (x : CommandWord) : (placeWord x s).transfer = none := rfl
@[simp] theorem placeWord_capacity (x : CommandWord) : (placeWord x s).capacity = s.capacity := rfl
@[simp] theorem placeWord_resetInput (x : CommandWord) : (placeWord x s).resetInput = none := rfl
@[simp] theorem placeWord_commands (x : CommandWord) : (placeWord x s).commands = x :: s.commands := rfl
@[simp] theorem placeWord_responses (x : CommandWord) : (placeWord x s).responses = s.responses := rfl
@[simp] theorem placeWord_pastResponses (x : CommandWord) : (placeWord x s).pastResponses = s.pastResponses := rfl
@[simp] theorem placeWord_outBits (x : CommandWord) : (placeWord x s).outBits = s.outBits := rfl
@[simp] theorem placeWord_pastBits (x : CommandWord) : (placeWord x s).pastBits = s.pastBits := rfl
@[simp] theorem placeWord_writeAnswers (x : CommandWord) : (placeWord x s).writeAnswers = s.writeAnswers := rfl
@[simp] theorem placeWord_readAnswers (x : CommandWord) : (placeWord x s).readAnswers = s.readAnswers := rfl
@[simp] theorem placeWord_result (x : CommandWord) : (placeWord x s).result = s.result := rfl

/-! ## Reset -/

@[simp] theorem applyReset_mode (m : Mode) : (applyReset m s).mode = m := rfl
@[simp] theorem applyReset_fwd (m : Mode) : (applyReset m s).fwd = (State.resetIn m).fwd := rfl
@[simp] theorem applyReset_rev (m : Mode) : (applyReset m s).rev = (State.resetIn m).rev := rfl
@[simp] theorem applyReset_nextKey (m : Mode) : (applyReset m s).nextKey = (State.resetIn m).nextKey := rfl
@[simp] theorem applyReset_pending (m : Mode) : (applyReset m s).pending = (State.resetIn m).pending := rfl
@[simp] theorem applyReset_prev (m : Mode) : (applyReset m s).prev = (State.resetIn m).prev := rfl
@[simp] theorem applyReset_outbuf (m : Mode) : (applyReset m s).outbuf = (State.resetIn m).outbuf := rfl
@[simp] theorem applyReset_cursor (m : Mode) : (applyReset m s).cursor = (State.resetIn m).cursor := rfl
@[simp] theorem applyReset_ended (m : Mode) : (applyReset m s).ended = (State.resetIn m).ended := rfl
@[simp] theorem applyReset_closed (m : Mode) : (applyReset m s).closed = (State.resetIn m).closed := rfl
@[simp] theorem applyReset_fault (m : Mode) : (applyReset m s).fault = (State.resetIn m).fault := rfl
@[simp] theorem applyReset_transfer (m : Mode) : (applyReset m s).transfer = (State.resetIn m).transfer := rfl
@[simp] theorem applyReset_capacity (m : Mode) : (applyReset m s).capacity = s.capacity := rfl
@[simp] theorem applyReset_resetInput (m : Mode) : (applyReset m s).resetInput = (State.resetIn m).resetInput := rfl
@[simp] theorem applyReset_commands (m : Mode) : (applyReset m s).commands = s.commands := rfl
@[simp] theorem applyReset_responses (m : Mode) : (applyReset m s).responses = [] := rfl
@[simp] theorem applyReset_pastResponses (m : Mode) :
    (applyReset m s).pastResponses = s.pastResponses ++ s.responses := rfl
@[simp] theorem applyReset_outBits (m : Mode) : (applyReset m s).outBits = [] := rfl
@[simp] theorem applyReset_pastBits (m : Mode) :
    (applyReset m s).pastBits = s.pastBits ++ s.outBits := rfl
@[simp] theorem applyReset_writeAnswers (m : Mode) : (applyReset m s).writeAnswers = s.writeAnswers := rfl
@[simp] theorem applyReset_readAnswers (m : Mode) : (applyReset m s).readAnswers = s.readAnswers := rfl
@[simp] theorem applyReset_result (m : Mode) : (applyReset m s).result = (State.resetIn m).result := rfl

@[simp] theorem resetIn_mode (m : Mode) : (State.resetIn m).mode = m := rfl
@[simp] theorem resetIn_fwd (m : Mode) : (State.resetIn m).fwd = [] := rfl
@[simp] theorem resetIn_rev (m : Mode) : (State.resetIn m).rev = [] := rfl
@[simp] theorem resetIn_nextKey (m : Mode) : (State.resetIn m).nextKey = Config.firstKey := rfl
@[simp] theorem resetIn_pending (m : Mode) : (State.resetIn m).pending = none := rfl
@[simp] theorem resetIn_prev (m : Mode) : (State.resetIn m).prev = none := rfl
@[simp] theorem resetIn_outbuf (m : Mode) : (State.resetIn m).outbuf = [] := rfl
@[simp] theorem resetIn_cursor (m : Mode) : (State.resetIn m).cursor = 0 := rfl
@[simp] theorem resetIn_ended (m : Mode) : (State.resetIn m).ended = false := rfl
@[simp] theorem resetIn_closed (m : Mode) : (State.resetIn m).closed = false := rfl
@[simp] theorem resetIn_fault (m : Mode) : (State.resetIn m).fault = none := rfl
@[simp] theorem resetIn_transfer (m : Mode) : (State.resetIn m).transfer = none := rfl
@[simp] theorem resetIn_capacity (m : Mode) : (State.resetIn m).capacity = Config.defaultCapacity := rfl
@[simp] theorem resetIn_resetInput (m : Mode) : (State.resetIn m).resetInput = none := rfl
@[simp] theorem resetIn_commands (m : Mode) : (State.resetIn m).commands = [] := rfl
@[simp] theorem resetIn_responses (m : Mode) : (State.resetIn m).responses = [] := rfl
@[simp] theorem resetIn_pastResponses (m : Mode) : (State.resetIn m).pastResponses = [] := rfl
@[simp] theorem resetIn_outBits (m : Mode) : (State.resetIn m).outBits = [] := rfl
@[simp] theorem resetIn_pastBits (m : Mode) : (State.resetIn m).pastBits = [] := rfl
@[simp] theorem resetIn_writeAnswers (m : Mode) : (State.resetIn m).writeAnswers = [] := rfl
@[simp] theorem resetIn_readAnswers (m : Mode) : (State.resetIn m).readAnswers = [] := rfl
@[simp] theorem resetIn_result (m : Mode) : (State.resetIn m).result = none := rfl

/-! ## The ports over time -/

/-- Reset takes no bit off the wire (70_reset_and_hazards.md R280). -/
@[simp] theorem wireBits_applyReset (m : Mode) : wireBits (applyReset m s) = wireBits s := by
  simp [wireBits]

/-- A run's output counts from reset (R285). -/
@[simp] theorem compressOutput_applyReset (m : Mode) : compressOutput (applyReset m s) = [] := rfl
@[simp] theorem decompressOutput_applyReset (m : Mode) : decompressOutput (applyReset m s) = [] := rfl

/-- A response adds its byte, if it has one, to the output. -/
theorem outputBytes_append (rs qs : List ResponseWord) :
    outputBytes (rs ++ qs) = outputBytes rs ++ outputBytes qs := by simp [outputBytes]

/-! ## Reads of the dictionary see only the tables -/

@[simp] theorem fwdRead_respond (r : Response) (c : Nat) : fwdRead (respond r s) c = fwdRead s c := rfl
@[simp] theorem revRead_respond (r : Response) (l : ByteSeq) : revRead (respond r s) l = revRead s l := rfl
@[simp] theorem fwdRead_giveResult (r : StepResult) (c : Nat) : fwdRead (giveResult r s) c = fwdRead s c := rfl
@[simp] theorem revRead_giveResult (r : StepResult) (l : ByteSeq) : revRead (giveResult r s) l = revRead s l := rfl
@[simp] theorem fwdRead_hold (t : Transfer) (c : Nat) : fwdRead (hold t s) c = fwdRead s c := rfl
@[simp] theorem revRead_hold (t : Transfer) (l : ByteSeq) : revRead (hold t s) l = revRead s l := rfl
@[simp] theorem fwdRead_endOfStream (c : Nat) : fwdRead (endOfStream s) c = fwdRead s c := rfl
@[simp] theorem revRead_endOfStream (l : ByteSeq) : revRead (endOfStream s) l = revRead s l := rfl
@[simp] theorem revRead_fwdWrite (c : Nat) (k : ByteSeq) (l : ByteSeq) : revRead (fwdWrite c k s) l = revRead s l := rfl
@[simp] theorem fwdRead_revWrite (k : ByteSeq) (d c : Nat) : fwdRead (revWrite k d s) c = fwdRead s c := rfl
@[simp] theorem fwdRead_placeWord (x : CommandWord) (c : Nat) : fwdRead (placeWord x s) c = fwdRead s c := rfl
@[simp] theorem revRead_placeWord (x : CommandWord) (l : ByteSeq) : revRead (placeWord x s) l = revRead s l := rfl

end Sys2Proof.Machine
end

