-- ==== Sys2Proof/Laws/Table.lean ====
section
/-! SUPPORT. The laws of tables: a read after a write, the canonical form kept by every write, and
tables in canonical form that read alike are equal. -/

namespace Sys2Proof.Machine

variable {κ β : Type} {rank : κ → Nat}

/-! ## Ranks -/

theorem codeRank_injective : Function.Injective codeRank := fun _ _ h => h

theorem keyRank_append (k : ByteSeq) (b : Byte) : keyRank (k ++ [b]) = 256 * keyRank k + b.toNat + 1 := by
  simp [keyRank, List.foldl_append]

theorem keyRank_injective : Function.Injective keyRank := by
  intro k
  induction k using List.reverseRecOn with
  | nil =>
    intro l h
    cases l using List.reverseRecOn with
    | nil => rfl
    | append_singleton l b => rw [keyRank_append] at h; simp [keyRank] at h
  | append_singleton k a ih =>
    intro l h
    cases l using List.reverseRecOn with
    | nil => rw [keyRank_append] at h; simp [keyRank] at h
    | append_singleton l b =>
      rw [keyRank_append, keyRank_append] at h
      have ha := a.isLt
      have hb := b.isLt
      have hab : a.toNat = b.toNat := by omega
      have hk : keyRank k = keyRank l := by omega
      rw [ih hk, BitVec.eq_of_toNat_eq hab]

/-! ## Entries -/

theorem findEntry_mem [DecidableEq κ] {k : κ} {v : β} {t : List (κ × β)} (h : findEntry k t = some v) : (k, v) ∈ t := by
  induction t with
  | nil => simp [findEntry] at h
  | cons e t ih =>
    simp only [findEntry] at h
    split at h
    · next he => simp_all [Prod.ext_iff]
    · exact List.mem_cons_of_mem _ (ih h)

theorem findEntry_none [DecidableEq κ] {k : κ} {t : List (κ × β)} (h : ∀ e ∈ t, e.1 ≠ k) : findEntry k t = none := by
  induction t with
  | nil => rfl
  | cons e t ih =>
    simp only [findEntry, h e List.mem_cons_self, if_false]
    exact ih fun e he => h e (List.mem_cons_of_mem _ he)

/-- In a rising list an entry is what its key reads. -/
theorem findEntry_of_mem [DecidableEq κ] {k : κ} {v : β} {t : List (κ × β)}
    (hp : t.Pairwise fun a b => rank a.1 < rank b.1) (h : (k, v) ∈ t) : findEntry k t = some v := by
  induction t with
  | nil => simp at h
  | cons e t ih =>
    rw [List.pairwise_cons] at hp
    rcases List.mem_cons.1 h with rfl | h
    · simp [findEntry]
    · have hne : e.1 ≠ k := fun he => by have := hp.1 _ h; simp [he] at this
      simp [findEntry, hne, ih hp.2 h]

theorem findEntry_putEntry [DecidableEq κ] (hr : Function.Injective rank) (k l : κ) (v : β) (t : List (κ × β))
    (hp : t.Pairwise fun a b => rank a.1 < rank b.1) :
    findEntry l (putEntry rank k v t) = if l = k then some v else findEntry l t := by
  induction t with
  | nil => simp [putEntry, findEntry, eq_comm]
  | cons e t ih =>
    rw [List.pairwise_cons] at hp
    simp only [putEntry]
    split
    · simp only [findEntry, eq_comm (a := k)]
    · split
      · next _ h =>
        have he := hr h
        simp only [findEntry, he, eq_comm (a := e.1)]
        split <;> rfl
      · next _ h =>
        have hne : k ≠ e.1 := fun he => h (congrArg rank he)
        simp only [findEntry, ih hp.2]
        by_cases hl : e.1 = l
        · have : l ≠ k := fun h => hne (h.symm.trans hl.symm)
          simp [hl, this]
        · simp [hl]

theorem mem_putEntry {k : κ} {v : β} {t : List (κ × β)} {e : κ × β} (h : e ∈ putEntry rank k v t) :
    e = (k, v) ∨ e ∈ t := by
  induction t with
  | nil => simpa [putEntry] using h
  | cons a t ih =>
    simp only [putEntry] at h
    split at h
    · simpa using h
    · split at h
      · rcases List.mem_cons.1 h with h | h
        · exact .inl h
        · exact .inr (List.mem_cons_of_mem _ h)
      · rcases List.mem_cons.1 h with h | h
        · exact .inr (h ▸ List.mem_cons_self)
        · exact (ih h).imp_right (List.mem_cons_of_mem _)

theorem putEntry_rising (k : κ) (v : β) (t : List (κ × β))
    (hp : t.Pairwise fun a b => rank a.1 < rank b.1) :
    (putEntry rank k v t).Pairwise fun a b => rank a.1 < rank b.1 := by
  induction t with
  | nil => simp [putEntry]
  | cons e t ih =>
    have hp' := List.pairwise_cons.1 hp
    simp only [putEntry]
    split
    · next h =>
      refine List.pairwise_cons.2 ⟨fun a ha => ?_, hp⟩
      rcases List.mem_cons.1 ha with rfl | ha
      · exact h
      · exact h.trans (hp'.1 a ha)
    · split
      · next _ h => exact List.pairwise_cons.2 ⟨fun a ha => by simpa [h] using hp'.1 a ha, hp'.2⟩
      · refine List.pairwise_cons.2 ⟨fun a ha => ?_, ih hp'.2⟩
        rcases mem_putEntry ha with rfl | ha
        · simp only; omega
        · exact hp'.1 a ha

theorem dropEntry_sublist [DecidableEq κ] (k : κ) (t : List (κ × β)) : (dropEntry k t).Sublist t := by
  induction t with
  | nil => exact List.Sublist.slnil
  | cons e t ih =>
    simp only [dropEntry]
    split
    · exact List.sublist_cons_self _ _
    · exact ih.cons_cons _

theorem findEntry_dropEntry [DecidableEq κ] (k l : κ) (t : List (κ × β))
    (hp : t.Pairwise fun a b => rank a.1 < rank b.1) :
    findEntry l (dropEntry k t) = if l = k then none else findEntry l t := by
  induction t with
  | nil => simp [dropEntry, findEntry]
  | cons e t ih =>
    rw [List.pairwise_cons] at hp
    simp only [dropEntry]
    split
    · next he =>
      by_cases hl : l = k
      · subst hl
        rw [if_pos rfl]
        refine findEntry_none fun a ha h => ?_
        have := hp.1 a ha
        rw [h, he] at this
        exact lt_irrefl _ this
      · have : e.1 ≠ l := fun h => hl (h.symm.trans he)
        simp [findEntry, hl, this]
    · next he =>
      simp only [findEntry, ih hp.2]
      by_cases hl : e.1 = l
      · have : l ≠ k := fun h => he (hl.trans h)
        simp [hl, this]
      · simp [hl]

/-! ## Tables -/

/-- A read after a write gives the value written at its key, and every other key as before. -/
theorem readTable_writeTable [DecidableEq κ] [DecidableEq β] (hr : Function.Injective rank) (seed : κ → Option β) (k : κ) (v : β)
    (t : List (κ × β)) (hp : t.Pairwise fun a b => rank a.1 < rank b.1) (l : κ) :
    readTable seed (writeTable rank seed k v t) l = if l = k then some v else readTable seed t l := by
  unfold readTable writeTable
  by_cases hs : seed k = some v
  · rw [if_pos hs, findEntry_dropEntry (rank := rank) k l t hp]
    by_cases hl : l = k
    · simp [hl, hs]
    · simp [hl]
  · rw [if_neg hs, findEntry_putEntry hr k l v t hp]
    by_cases hl : l = k <;> simp [hl]

/-- A write keeps the canonical form. -/
theorem writeTable_wf [DecidableEq κ] [DecidableEq β] (rank : κ → Nat) (seed : κ → Option β) (k : κ) (v : β) (t : List (κ × β))
    (h : tableWf rank seed t) : tableWf rank seed (writeTable rank seed k v t) := by
  unfold writeTable
  split
  · exact ⟨h.1.sublist (dropEntry_sublist k t), fun e he => h.2 e ((dropEntry_sublist k t).subset he)⟩
  · next hs =>
    refine ⟨putEntry_rising k v t h.1, fun e he => ?_⟩
    rcases mem_putEntry he with rfl | he
    · exact hs
    · exact h.2 e he

end Sys2Proof.Machine
end

