-- ==== Sys2Proof/Laws/Ops.lean ====
section
/-! SUPPORT. What the shared operations do: one lemma says everything an operation can do, and its frame
says what it leaves. -/

namespace Sys2Proof.Machine

variable (s : State)

/-! ## storeFault and raise -/

@[simp] theorem storeFault_mode (x : FaultCode) : (storeFault x s).mode = s.mode := by
  unfold storeFault; split <;> rfl
@[simp] theorem storeFault_fwd (x : FaultCode) : (storeFault x s).fwd = s.fwd := by
  unfold storeFault; split <;> rfl
@[simp] theorem storeFault_rev (x : FaultCode) : (storeFault x s).rev = s.rev := by
  unfold storeFault; split <;> rfl
@[simp] theorem storeFault_nextKey (x : FaultCode) : (storeFault x s).nextKey = s.nextKey := by
  unfold storeFault; split <;> rfl
@[simp] theorem storeFault_pending (x : FaultCode) : (storeFault x s).pending = s.pending := by
  unfold storeFault; split <;> rfl
@[simp] theorem storeFault_prev (x : FaultCode) : (storeFault x s).prev = s.prev := by
  unfold storeFault; split <;> rfl
@[simp] theorem storeFault_outbuf (x : FaultCode) : (storeFault x s).outbuf = s.outbuf := by
  unfold storeFault; split <;> rfl
@[simp] theorem storeFault_cursor (x : FaultCode) : (storeFault x s).cursor = s.cursor := by
  unfold storeFault; split <;> rfl
@[simp] theorem storeFault_ended (x : FaultCode) : (storeFault x s).ended = s.ended := by
  unfold storeFault; split <;> rfl
@[simp] theorem storeFault_closed (x : FaultCode) : (storeFault x s).closed = s.closed := by
  unfold storeFault; split <;> rfl
@[simp] theorem storeFault_transfer (x : FaultCode) : (storeFault x s).transfer = s.transfer := by
  unfold storeFault; split <;> rfl
@[simp] theorem storeFault_capacity (x : FaultCode) : (storeFault x s).capacity = s.capacity := by
  unfold storeFault; split <;> rfl
@[simp] theorem storeFault_resetInput (x : FaultCode) : (storeFault x s).resetInput = s.resetInput := by
  unfold storeFault; split <;> rfl
@[simp] theorem storeFault_commands (x : FaultCode) : (storeFault x s).commands = s.commands := by
  unfold storeFault; split <;> rfl
@[simp] theorem storeFault_responses (x : FaultCode) : (storeFault x s).responses = s.responses := by
  unfold storeFault; split <;> rfl
@[simp] theorem storeFault_outBits (x : FaultCode) : (storeFault x s).outBits = s.outBits := by
  unfold storeFault; split <;> rfl
@[simp] theorem storeFault_pastResponses (x : FaultCode) : (storeFault x s).pastResponses = s.pastResponses := by
  unfold storeFault; split <;> rfl
@[simp] theorem storeFault_pastBits (x : FaultCode) : (storeFault x s).pastBits = s.pastBits := by
  unfold storeFault; split <;> rfl
@[simp] theorem storeFault_writeAnswers (x : FaultCode) : (storeFault x s).writeAnswers = s.writeAnswers := by
  unfold storeFault; split <;> rfl
@[simp] theorem storeFault_readAnswers (x : FaultCode) : (storeFault x s).readAnswers = s.readAnswers := by
  unfold storeFault; split <;> rfl
@[simp] theorem storeFault_result (x : FaultCode) : (storeFault x s).result = s.result := by
  unfold storeFault; split <;> rfl

theorem storeFault_fault (x : FaultCode) : (storeFault x s).fault = some (s.fault.getD x) := by
  unfold storeFault; cases h : s.fault <;> simp [h]

/-- A stored fault stays. -/
theorem storeFault_of_some {f : FaultCode} (x : FaultCode) (h : s.fault = some f) : storeFault x s = s := by
  simp [storeFault, h]

theorem storeFault_of_none (x : FaultCode) (h : s.fault = none) :
    storeFault x s = { s with fault := some x } := by
  simp [storeFault, h]

/-- A sticky fault is stored and answered. -/
theorem raise_sticky {f : FaultCode} (h : isSticky f = true) :
    raise f s = respond (.fault f) (storeFault f s) := by simp [raise, h]

/-- A fault that is not sticky is only answered. -/
theorem raise_notSticky {f : FaultCode} (h : isSticky f = false) : raise f s = respond (.fault f) s := by
  simp [raise, h]

@[simp] theorem raise_mode (x : FaultCode) : (raise x s).mode = s.mode := by
  unfold raise; split <;> simp
@[simp] theorem raise_fwd (x : FaultCode) : (raise x s).fwd = s.fwd := by
  unfold raise; split <;> simp
@[simp] theorem raise_rev (x : FaultCode) : (raise x s).rev = s.rev := by
  unfold raise; split <;> simp
@[simp] theorem raise_nextKey (x : FaultCode) : (raise x s).nextKey = s.nextKey := by
  unfold raise; split <;> simp
@[simp] theorem raise_pending (x : FaultCode) : (raise x s).pending = s.pending := by
  unfold raise; split <;> simp
@[simp] theorem raise_prev (x : FaultCode) : (raise x s).prev = s.prev := by
  unfold raise; split <;> simp
@[simp] theorem raise_outbuf (x : FaultCode) : (raise x s).outbuf = s.outbuf := by
  unfold raise; split <;> simp
@[simp] theorem raise_cursor (x : FaultCode) : (raise x s).cursor = s.cursor := by
  unfold raise; split <;> simp
@[simp] theorem raise_ended (x : FaultCode) : (raise x s).ended = s.ended := by
  unfold raise; split <;> simp
@[simp] theorem raise_closed (x : FaultCode) : (raise x s).closed = s.closed := by
  unfold raise; split <;> simp
@[simp] theorem raise_transfer (x : FaultCode) : (raise x s).transfer = s.transfer := by
  unfold raise; split <;> simp
@[simp] theorem raise_capacity (x : FaultCode) : (raise x s).capacity = s.capacity := by
  unfold raise; split <;> simp
@[simp] theorem raise_resetInput (x : FaultCode) : (raise x s).resetInput = s.resetInput := by
  unfold raise; split <;> simp
@[simp] theorem raise_commands (x : FaultCode) : (raise x s).commands = s.commands := by
  unfold raise; split <;> simp
@[simp] theorem raise_outBits (x : FaultCode) : (raise x s).outBits = s.outBits := by
  unfold raise; split <;> simp
@[simp] theorem raise_pastResponses (x : FaultCode) : (raise x s).pastResponses = s.pastResponses := by
  unfold raise; split <;> simp
@[simp] theorem raise_pastBits (x : FaultCode) : (raise x s).pastBits = s.pastBits := by
  unfold raise; split <;> simp
@[simp] theorem raise_writeAnswers (x : FaultCode) : (raise x s).writeAnswers = s.writeAnswers := by
  unfold raise; split <;> simp
@[simp] theorem raise_readAnswers (x : FaultCode) : (raise x s).readAnswers = s.readAnswers := by
  unfold raise; split <;> simp
@[simp] theorem raise_result (x : FaultCode) : (raise x s).result = s.result := by
  unfold raise; split <;> simp
@[simp] theorem raise_responses (x : FaultCode) :
    (raise x s).responses = s.responses ++ [responseWord (.fault x)] := by
  unfold raise; split <;> simp

theorem raise_fault (x : FaultCode) :
    (raise x s).fault = if isSticky x = true then some (s.fault.getD x) else s.fault := by
  unfold raise; split <;> simp [storeFault_fault]

@[simp] theorem fwdRead_storeFault (x : FaultCode) (c : Nat) : fwdRead (storeFault x s) c = fwdRead s c := by
  simp [fwdRead]

@[simp] theorem revRead_storeFault (x : FaultCode) (k : ByteSeq) : revRead (storeFault x s) k = revRead s k := by
  simp [revRead]

@[simp] theorem fwdRead_raise (x : FaultCode) (c : Nat) : fwdRead (raise x s) c = fwdRead s c := by
  simp [fwdRead]

@[simp] theorem revRead_raise (x : FaultCode) (k : ByteSeq) : revRead (raise x s) k = revRead s k := by
  simp [revRead]

/-! ## dictInsert -/

@[simp] theorem dictInsert_mode (c : Nat) (k : ByteSeq) : (dictInsert c k s).mode = s.mode := by
  unfold dictInsert; split <;> rfl
@[simp] theorem dictInsert_nextKey (c : Nat) (k : ByteSeq) : (dictInsert c k s).nextKey = s.nextKey := by
  unfold dictInsert; split <;> rfl
@[simp] theorem dictInsert_pending (c : Nat) (k : ByteSeq) : (dictInsert c k s).pending = s.pending := by
  unfold dictInsert; split <;> rfl
@[simp] theorem dictInsert_prev (c : Nat) (k : ByteSeq) : (dictInsert c k s).prev = s.prev := by
  unfold dictInsert; split <;> rfl
@[simp] theorem dictInsert_outbuf (c : Nat) (k : ByteSeq) : (dictInsert c k s).outbuf = s.outbuf := by
  unfold dictInsert; split <;> rfl
@[simp] theorem dictInsert_cursor (c : Nat) (k : ByteSeq) : (dictInsert c k s).cursor = s.cursor := by
  unfold dictInsert; split <;> rfl
@[simp] theorem dictInsert_ended (c : Nat) (k : ByteSeq) : (dictInsert c k s).ended = s.ended := by
  unfold dictInsert; split <;> rfl
@[simp] theorem dictInsert_closed (c : Nat) (k : ByteSeq) : (dictInsert c k s).closed = s.closed := by
  unfold dictInsert; split <;> rfl
@[simp] theorem dictInsert_fault (c : Nat) (k : ByteSeq) : (dictInsert c k s).fault = s.fault := by
  unfold dictInsert; split <;> rfl
@[simp] theorem dictInsert_transfer (c : Nat) (k : ByteSeq) : (dictInsert c k s).transfer = s.transfer := by
  unfold dictInsert; split <;> rfl
@[simp] theorem dictInsert_capacity (c : Nat) (k : ByteSeq) : (dictInsert c k s).capacity = s.capacity := by
  unfold dictInsert; split <;> rfl
@[simp] theorem dictInsert_resetInput (c : Nat) (k : ByteSeq) : (dictInsert c k s).resetInput = s.resetInput := by
  unfold dictInsert; split <;> rfl
@[simp] theorem dictInsert_commands (c : Nat) (k : ByteSeq) : (dictInsert c k s).commands = s.commands := by
  unfold dictInsert; split <;> rfl
@[simp] theorem dictInsert_responses (c : Nat) (k : ByteSeq) : (dictInsert c k s).responses = s.responses := by
  unfold dictInsert; split <;> rfl
@[simp] theorem dictInsert_outBits (c : Nat) (k : ByteSeq) : (dictInsert c k s).outBits = s.outBits := by
  unfold dictInsert; split <;> rfl
@[simp] theorem dictInsert_pastResponses (c : Nat) (k : ByteSeq) : (dictInsert c k s).pastResponses = s.pastResponses := by
  unfold dictInsert; split <;> rfl
@[simp] theorem dictInsert_pastBits (c : Nat) (k : ByteSeq) : (dictInsert c k s).pastBits = s.pastBits := by
  unfold dictInsert; split <;> rfl
@[simp] theorem dictInsert_writeAnswers (c : Nat) (k : ByteSeq) : (dictInsert c k s).writeAnswers = s.writeAnswers := by
  unfold dictInsert; split <;> rfl
@[simp] theorem dictInsert_readAnswers (c : Nat) (k : ByteSeq) : (dictInsert c k s).readAnswers = s.readAnswers := by
  unfold dictInsert; split <;> rfl
@[simp] theorem dictInsert_result (c : Nat) (k : ByteSeq) : (dictInsert c k s).result = s.result := by
  unfold dictInsert; split <;> rfl

@[simp] theorem dictInsert_fwd (c : Nat) (k : ByteSeq) :
    (dictInsert c k s).fwd = writeTable codeRank Config.seedEntry c k s.fwd := by
  unfold dictInsert; split <;> rfl

/-- The forward table after an insertion (20_memory.md R53). -/
theorem fwdRead_dictInsert (c : Nat) (k : ByteSeq) (d : Nat) (h : Memory.wf s) :
    fwdRead (dictInsert c k s) d = if d = c then some k else fwdRead s d := by
  simp only [fwdRead, dictInsert_fwd]
  exact readTable_writeTable codeRank_injective _ _ _ _ h.1.1 _

/-- The reverse table after an insertion: an older code stays (R53). -/
theorem revRead_dictInsert (c : Nat) (k l : ByteSeq) (h : Memory.wf s) :
    revRead (dictInsert c k s) l = if l = k ∧ revRead s k = none then some c else revRead s l := by
  unfold dictInsert
  cases hk : revRead s k with
  | some d => simp
  | none =>
    have := readTable_writeTable keyRank_injective Config.seedKey k c s.rev h.2.1 l
    simpa [revRead] using this

/-- Insertion keeps the canonical form. -/
theorem dictInsert_wf (c : Nat) (k : ByteSeq) (h : Memory.wf s) : Memory.wf (dictInsert c k s) := by
  unfold dictInsert
  cases revRead s k with
  | some d => exact ⟨writeTable_wf _ _ _ _ _ h.1, h.2⟩
  | none => exact ⟨writeTable_wf _ _ _ _ _ h.1, writeTable_wf _ _ _ _ _ h.2⟩

/-! ## Internal steps -/

@[simp] theorem andThen_val {α β : Type} (a : α) (t : State) (k : α → State → Res β) :
    andThen (.val a t) k = k a t := rfl
@[simp] theorem andThen_raised {α β : Type} (f : FaultCode) (t : State) (k : α → State → Res β) :
    andThen (.raised f t) k = .raised f t := rfl
@[simp] theorem andThen_stuck {α β : Type} (f : Fault) (k : α → State → Res β) :
    andThen (.stuck f) k = .stuck f := rfl
@[simp] theorem settleWith_val {α : Type} (a : α) (t : State) (k : α → State → Out) :
    settleWith (.val a t) k = k a t := rfl
@[simp] theorem settleWith_raised {α : Type} (f : FaultCode) (t : State) (k : α → State → Out) :
    settleWith (.raised f t) k = .next (raise f t) := rfl
@[simp] theorem settleWith_stuck {α : Type} (f : Fault) (k : α → State → Out) :
    settleWith (.stuck f) k = .fault f := rfl
@[simp] theorem settleStep_val (r : StepResult) (t : State) :
    settleStep (.val r t) = .next (giveResult r t) := rfl
@[simp] theorem settleStep_raised (f : FaultCode) (t : State) :
    settleStep (.raised f t) = .next (raise f t) := rfl
@[simp] theorem settleStep_stuck (f : Fault) : settleStep (.stuck f) = .fault f := rfl

/-- The state after a Learn that is made. -/
def learned (k : ByteSeq) (s : State) : State := { dictInsert s.nextKey k s with nextKey := s.nextKey + 1 }

/-- Everything Learn can do (R54). -/
theorem learn_cases (k : Key) :
    (k.bytes = [] ∧ learn k s = .stuck .emptyKey) ∨
    (k.bytes ≠ [] ∧ dictionaryFull s = true ∧ learn k s = .raised .capacityExceeded s) ∨
    (k.bytes ≠ [] ∧ dictionaryFull s = false ∧ learn k s = .val () (learned k.bytes s)) := by
  unfold learn learned
  by_cases h : k.bytes = []
  · simp [h]
  · cases hf : dictionaryFull s <;> simp [h]

theorem learn_eq_val {k : Key} (h : k.bytes ≠ []) (hf : dictionaryFull s = false) :
    learn k s = .val () (learned k.bytes s) := by simp [learn, learned, h, hf]

theorem learn_eq_raised {k : Key} (h : k.bytes ≠ []) (hf : dictionaryFull s = true) :
    learn k s = .raised .capacityExceeded s := by simp [learn, h, hf]

@[simp] theorem learned_mode (k : ByteSeq) : (learned k s).mode = s.mode := by simp [learned]
@[simp] theorem learned_pending (k : ByteSeq) : (learned k s).pending = s.pending := by simp [learned]
@[simp] theorem learned_prev (k : ByteSeq) : (learned k s).prev = s.prev := by simp [learned]
@[simp] theorem learned_outbuf (k : ByteSeq) : (learned k s).outbuf = s.outbuf := by simp [learned]
@[simp] theorem learned_cursor (k : ByteSeq) : (learned k s).cursor = s.cursor := by simp [learned]
@[simp] theorem learned_ended (k : ByteSeq) : (learned k s).ended = s.ended := by simp [learned]
@[simp] theorem learned_closed (k : ByteSeq) : (learned k s).closed = s.closed := by simp [learned]
@[simp] theorem learned_fault (k : ByteSeq) : (learned k s).fault = s.fault := by simp [learned]
@[simp] theorem learned_transfer (k : ByteSeq) : (learned k s).transfer = s.transfer := by simp [learned]
@[simp] theorem learned_capacity (k : ByteSeq) : (learned k s).capacity = s.capacity := by simp [learned]
@[simp] theorem learned_resetInput (k : ByteSeq) : (learned k s).resetInput = s.resetInput := by simp [learned]
@[simp] theorem learned_commands (k : ByteSeq) : (learned k s).commands = s.commands := by simp [learned]
@[simp] theorem learned_responses (k : ByteSeq) : (learned k s).responses = s.responses := by simp [learned]
@[simp] theorem learned_outBits (k : ByteSeq) : (learned k s).outBits = s.outBits := by simp [learned]
@[simp] theorem learned_pastResponses (k : ByteSeq) : (learned k s).pastResponses = s.pastResponses := by simp [learned]
@[simp] theorem learned_pastBits (k : ByteSeq) : (learned k s).pastBits = s.pastBits := by simp [learned]
@[simp] theorem learned_writeAnswers (k : ByteSeq) : (learned k s).writeAnswers = s.writeAnswers := by simp [learned]
@[simp] theorem learned_readAnswers (k : ByteSeq) : (learned k s).readAnswers = s.readAnswers := by simp [learned]
@[simp] theorem learned_result (k : ByteSeq) : (learned k s).result = s.result := by simp [learned]
@[simp] theorem learned_nextKey (k : ByteSeq) : (learned k s).nextKey = s.nextKey + 1 := rfl

theorem fwdRead_learned (k : ByteSeq) (d : Nat) (h : Memory.wf s) :
    fwdRead (learned k s) d = if d = s.nextKey then some k else fwdRead s d :=
  fwdRead_dictInsert s s.nextKey k d h

theorem revRead_learned (k l : ByteSeq) (h : Memory.wf s) :
    revRead (learned k s) l = if l = k ∧ revRead s k = none then some s.nextKey else revRead s l :=
  revRead_dictInsert s s.nextKey k l h

/-- A Learn grows the dictionary by its key, whatever else the step changes beside the tables. -/
theorem growsBy_learned {k : ByteSeq} {t : State} (h : Memory.wf s) (hn : t.nextKey = s.nextKey + 1)
    (hf : t.fwd = (learned k s).fwd) (hr : t.rev = (learned k s).rev) : GrowsBy k s t :=
  ⟨hn, fun c => by rw [← fwdRead_learned s k c h, fwdRead, fwdRead, hf],
    fun l => by rw [← revRead_learned s k l h, revRead, revRead, hr]⟩

/-- Equal tables and an equal `NEXT_KEY` are the same dictionary. -/
theorem sameDictionary_of_eq {t : State} (hn : t.nextKey = s.nextKey) (hf : t.fwd = s.fwd)
    (hr : t.rev = s.rev) : SameDictionary s t :=
  ⟨hn, fun c => by rw [fwdRead, fwdRead, hf], fun k => by rw [revRead, revRead, hr]⟩

theorem learned_wf (k : ByteSeq) (h : Memory.wf s) : Memory.wf (learned k s) :=
  dictInsert_wf s s.nextKey k h

end Sys2Proof.Machine
end

