-- ==== Sys2Proof/Laws/Transfer.lean ====
section
/-! SUPPORT. The bit port: what writing and reading a run of bits does, for each way the primitive can
answer, and how a code and its bits belong together. -/

namespace Sys2Proof

/-- `OP` of a word put together from its fields (30_encoding.md R80). -/
theorem opField_append (op : BitVec 4) (imm : Byte) : opField (op ++ imm) = op :=
  BitVec.extractLsb'_append_eq_left

/-- `IMM8` of a word put together from its fields (R80). -/
theorem immField_append (op : BitVec 4) (imm : Byte) : immField (op ++ imm) = imm :=
  BitVec.extractLsb'_append_eq_right

end Sys2Proof

namespace Sys2Proof.Machine

/-! ## Codes and bits -/

@[simp] theorem codeBits_length (c : Nat) (w : Nat) : (codeBits c w).length = w := by
  induction w with
  | zero => rfl
  | succ w ih => simp [codeBits, ih]

theorem assembleFrom_append (acc : Nat) (bs cs : List Bit) :
    assembleFrom acc (bs ++ cs) = assembleFrom (assembleFrom acc bs) cs := by
  simp [assembleFrom, List.foldl_append]

/-- Reading the bits of a code into an accumulator. -/
theorem assembleFrom_codeBits (acc c : Nat) (w : Nat) :
    assembleFrom acc (codeBits c w) = acc * 2 ^ w + c % 2 ^ w := by
  induction w generalizing acc with
  | zero => simp [assembleFrom, codeBits, Nat.mod_one]
  | succ w ih =>
    have hstep : assembleFrom acc (codeBits c (w + 1)) =
        assembleFrom (2 * acc + (decide ((c >>> w) % 2 = 1)).toNat) (codeBits c w) := rfl
    rw [hstep, ih]
    have hb : (decide ((c >>> w) % 2 = 1)).toNat = c / 2 ^ w % 2 := by
      rw [Nat.shiftRight_eq_div_pow]
      rcases Nat.mod_two_eq_zero_or_one (c / 2 ^ w) with h | h <;> simp [h]
    rw [hb, Nat.pow_succ, Nat.mod_mul]
    ring

/-- The bits of a code, read back, give the code modulo its width (43_width_and_serdes.md R177, R180). -/
theorem assemble_codeBits (c : Nat) (w : Nat) : assemble (codeBits c w) = c % 2 ^ w := by
  simp [assemble, assembleFrom_codeBits]

theorem assembleFrom_lt {acc n : Nat} (bs : List Bit) (h : acc < 2 ^ n) :
    assembleFrom acc bs < 2 ^ (n + bs.length) := by
  induction bs generalizing acc n with
  | nil => simpa [assembleFrom] using h
  | cons b bs ih =>
    have h2 : 2 * acc + b.toNat < 2 ^ (n + 1) := by
      have := Bool.toNat_le b
      rw [Nat.pow_succ]; omega
    have := ih h2
    rw [List.length_cons, show n + (bs.length + 1) = n + 1 + bs.length by omega]
    exact this

theorem assemble_lt (bs : List Bit) : assemble bs < 2 ^ bs.length := by
  simpa [assemble] using assembleFrom_lt (acc := 0) (n := 0) bs (by simp)

/-! ## Writing -/

/-- How a list of answers meets `n` bits: it accepts them all, fails one, or runs out. -/
theorem writeAnswers_cases (n : Nat) (as : List WriteAnswer) :
    (∃ more, as = List.replicate n .accept ++ more) ∨
    (∃ j more, j < n ∧ as = List.replicate j .accept ++ .fail :: more) ∨
    (∃ j, j < n ∧ as = List.replicate j .accept) := by
  induction n generalizing as with
  | zero => exact .inl ⟨as, rfl⟩
  | succ n ih =>
    match as with
    | [] => exact .inr (.inr ⟨0, by omega, rfl⟩)
    | .fail :: more => exact .inr (.inl ⟨0, more, by omega, rfl⟩)
    | .accept :: as =>
      rcases ih as with ⟨more, h⟩ | ⟨j, more, hj, h⟩ | ⟨j, hj, h⟩
      · exact .inl ⟨more, by simp [h, List.replicate_succ]⟩
      · exact .inr (.inl ⟨j + 1, more, by omega, by simp [h, List.replicate_succ]⟩)
      · exact .inr (.inr ⟨j + 1, by omega, by simp [h, List.replicate_succ]⟩)

/-- Every bit is accepted. -/
theorem pushBits_done (bs : List Bit) (s : State) (more : List WriteAnswer)
    (h : s.writeAnswers = List.replicate bs.length .accept ++ more) :
    pushBits bs s = (.done, { s with writeAnswers := more, outBits := s.outBits ++ bs }) := by
  induction bs generalizing s with
  | nil => simp at h; subst h; simp [pushBits]
  | cons b bs ih =>
    simp only [List.length_cons, List.replicate_succ, List.cons_append] at h
    simp only [pushBits, h]
    rw [ih _ rfl]
    simp

/-- Bit `j` fails: the bits before it are out, and nothing after it is tried. -/
theorem pushBits_failed (bs : List Bit) (s : State) (j : Nat) (more : List WriteAnswer)
    (hj : j < bs.length) (h : s.writeAnswers = List.replicate j .accept ++ .fail :: more) :
    pushBits bs s = (.failed, { s with writeAnswers := more, outBits := s.outBits ++ bs.take j }) := by
  induction bs generalizing s j with
  | nil => simp at hj
  | cons b bs ih =>
    cases j with
    | zero => simp at h; simp [pushBits, h]
    | succ j =>
      simp only [List.replicate_succ, List.cons_append] at h
      simp only [pushBits, h]
      rw [ih _ j (by simpa using hj) rfl]
      simp

/-- The answers run out at bit `j`: the rest waits. -/
theorem pushBits_waits (bs : List Bit) (s : State) (j : Nat)
    (hj : j < bs.length) (h : s.writeAnswers = List.replicate j .accept) :
    pushBits bs s =
      (.waits (bs.drop j), { s with writeAnswers := [], outBits := s.outBits ++ bs.take j }) := by
  induction bs generalizing s j with
  | nil => simp at hj
  | cons b bs ih =>
    cases j with
    | zero => simp at h; obtain ⟨⟩ := s; simp_all [pushBits]
    | succ j =>
      simp only [List.replicate_succ] at h
      simp only [pushBits, h]
      rw [ih _ j (by simpa using hj) rfl]
      simp

/-- Everything the writing of bits can do. -/
theorem pushBits_cases (bs : List Bit) (s : State) :
    (∃ more, s.writeAnswers = List.replicate bs.length .accept ++ more ∧
      pushBits bs s = (.done, { s with writeAnswers := more, outBits := s.outBits ++ bs })) ∨
    (∃ j more, j < bs.length ∧ s.writeAnswers = List.replicate j .accept ++ .fail :: more ∧
      pushBits bs s = (.failed, { s with writeAnswers := more, outBits := s.outBits ++ bs.take j })) ∨
    (∃ j, j < bs.length ∧ s.writeAnswers = List.replicate j .accept ∧
      pushBits bs s =
        (.waits (bs.drop j), { s with writeAnswers := [], outBits := s.outBits ++ bs.take j })) := by
  rcases writeAnswers_cases bs.length s.writeAnswers with ⟨more, h⟩ | ⟨j, more, hj, h⟩ | ⟨j, hj, h⟩
  · exact .inl ⟨more, h, pushBits_done bs s more h⟩
  · exact .inr (.inl ⟨j, more, hj, h, pushBits_failed bs s j more hj h⟩)
  · exact .inr (.inr ⟨j, hj, h, pushBits_waits bs s j hj h⟩)

/-! ## Reading -/

/-- How a list of answers meets `n` reads: it gives them all, ends, fails, or runs out. -/
theorem readAnswers_cases (n : Nat) (as : List ReadAnswer) :
    (∃ (bs : List Bit) (more : List ReadAnswer), bs.length = n ∧ as = bs.map .bit ++ more) ∨
    (∃ (bs : List Bit) (more : List ReadAnswer), bs.length < n ∧ as = bs.map .bit ++ .endOfData :: more) ∨
    (∃ (bs : List Bit) (more : List ReadAnswer), bs.length < n ∧ as = bs.map .bit ++ .fail :: more) ∨
    (∃ bs : List Bit, bs.length < n ∧ as = bs.map .bit) := by
  induction n generalizing as with
  | zero => exact .inl ⟨[], as, rfl, rfl⟩
  | succ n ih =>
    match as with
    | [] => exact .inr (.inr (.inr ⟨[], by simp, rfl⟩))
    | .endOfData :: more => exact .inr (.inl ⟨[], more, by simp, rfl⟩)
    | .fail :: more => exact .inr (.inr (.inl ⟨[], more, by simp, rfl⟩))
    | .bit b :: as =>
      rcases ih as with ⟨bs, more, hn, h⟩ | ⟨bs, more, hn, h⟩ | ⟨bs, more, hn, h⟩ | ⟨bs, hn, h⟩
      · exact .inl ⟨b :: bs, more, by simp [hn], by simp [h]⟩
      · exact .inr (.inl ⟨b :: bs, more, by simpa using hn, by simp [h]⟩)
      · exact .inr (.inr (.inl ⟨b :: bs, more, by simpa using hn, by simp [h]⟩))
      · exact .inr (.inr (.inr ⟨b :: bs, by simpa using hn, by simp [h]⟩))

/-- Every bit is there. -/
theorem pullBits_value (bs : List Bit) (acc : Nat) (s : State) (more : List ReadAnswer)
    (h : s.readAnswers = bs.map .bit ++ more) :
    pullBits bs.length acc s = (.value (assembleFrom acc bs), { s with readAnswers := more }) := by
  induction bs generalizing s acc with
  | nil => simp at h; subst h; simp [pullBits, assembleFrom]
  | cons b bs ih =>
    simp only [List.map_cons, List.cons_append] at h
    simp only [List.length_cons, pullBits, h]
    rw [ih _ _ rfl]
    rfl

/-- The source ends inside the code: the bits before are consumed and carry no value. -/
theorem pullBits_physEnd (bs : List Bit) (left : Nat) (acc : Nat) (s : State) (more : List ReadAnswer)
    (hl : bs.length < left) (h : s.readAnswers = bs.map .bit ++ .endOfData :: more) :
    pullBits left acc s = (.physEnd, { s with readAnswers := more }) := by
  induction bs generalizing s acc left with
  | nil =>
    obtain ⟨left, rfl⟩ : ∃ k, left = k + 1 := ⟨left - 1, by simp at hl; omega⟩
    simp at h; simp [pullBits, h]
  | cons b bs ih =>
    obtain ⟨left, rfl⟩ : ∃ k, left = k + 1 := ⟨left - 1, by simp at hl; omega⟩
    simp only [List.map_cons, List.cons_append] at h
    simp only [pullBits, h]
    rw [ih left _ _ (by simpa using hl) rfl]

/-- A transfer fails inside the code. -/
theorem pullBits_failed (bs : List Bit) (left : Nat) (acc : Nat) (s : State) (more : List ReadAnswer)
    (hl : bs.length < left) (h : s.readAnswers = bs.map .bit ++ .fail :: more) :
    pullBits left acc s = (.failed, { s with readAnswers := more }) := by
  induction bs generalizing s acc left with
  | nil =>
    obtain ⟨left, rfl⟩ : ∃ k, left = k + 1 := ⟨left - 1, by simp at hl; omega⟩
    simp at h; simp [pullBits, h]
  | cons b bs ih =>
    obtain ⟨left, rfl⟩ : ∃ k, left = k + 1 := ⟨left - 1, by simp at hl; omega⟩
    simp only [List.map_cons, List.cons_append] at h
    simp only [pullBits, h]
    rw [ih left _ _ (by simpa using hl) rfl]

/-- The answers run out inside the code: the accumulator and the count wait. -/
theorem pullBits_waits (bs : List Bit) (left : Nat) (acc : Nat) (s : State)
    (hl : bs.length < left) (h : s.readAnswers = bs.map .bit) :
    pullBits left acc s =
      (.waits (assembleFrom acc bs) (left - bs.length), { s with readAnswers := [] }) := by
  induction bs generalizing s acc left with
  | nil =>
    obtain ⟨left, rfl⟩ : ∃ k, left = k + 1 := ⟨left - 1, by simp at hl; omega⟩
    simp at h; obtain ⟨⟩ := s; simp_all [pullBits, assembleFrom]
  | cons b bs ih =>
    obtain ⟨left, rfl⟩ : ∃ k, left = k + 1 := ⟨left - 1, by simp at hl; omega⟩
    simp only [List.map_cons] at h
    simp only [pullBits, h]
    rw [ih left _ _ (by simpa using hl) rfl]
    simp [assembleFrom]

/-- Everything the reading of bits can do. -/
theorem pullBits_cases (left : Nat) (acc : Nat) (s : State) :
    (∃ (bs : List Bit) (more : List ReadAnswer), bs.length = left ∧ s.readAnswers = bs.map .bit ++ more ∧
      pullBits left acc s = (.value (assembleFrom acc bs), { s with readAnswers := more })) ∨
    (∃ (bs : List Bit) (more : List ReadAnswer), bs.length < left ∧ s.readAnswers = bs.map .bit ++ .endOfData :: more ∧
      pullBits left acc s = (.physEnd, { s with readAnswers := more })) ∨
    (∃ (bs : List Bit) (more : List ReadAnswer), bs.length < left ∧ s.readAnswers = bs.map .bit ++ .fail :: more ∧
      pullBits left acc s = (.failed, { s with readAnswers := more })) ∨
    (∃ bs : List Bit, bs.length < left ∧ s.readAnswers = bs.map .bit ∧
      pullBits left acc s =
        (.waits (assembleFrom acc bs) (left - bs.length), { s with readAnswers := [] })) := by
  rcases readAnswers_cases left s.readAnswers with
    ⟨bs, more, hn, h⟩ | ⟨bs, more, hn, h⟩ | ⟨bs, more, hn, h⟩ | ⟨bs, hn, h⟩
  · exact .inl ⟨bs, more, hn, h, hn ▸ pullBits_value bs acc s more h⟩
  · exact .inr (.inl ⟨bs, more, hn, h, pullBits_physEnd bs left acc s more hn h⟩)
  · exact .inr (.inr (.inl ⟨bs, more, hn, h, pullBits_failed bs left acc s more hn h⟩))
  · exact .inr (.inr (.inr ⟨bs, hn, h, pullBits_waits bs left acc s hn h⟩))

end Sys2Proof.Machine
end

