-- ==== Sys2Proof/Laws/Steps.lean ====
section
/-! SUPPORT. The encoder's and the decoder's steps: keys, what each step can do, and the width function. -/

namespace Sys2Proof.Machine

/-! ## Sequence keys -/

@[simp] theorem skAppend_bytes (k : Key) (b : Byte) : (skAppend k b).bytes = k.bytes ++ [b] := rfl
@[simp] theorem skFromByte_bytes (b : Byte) : (skFromByte b).bytes = [b] := rfl

theorem foldl_skAppend_bytes (k : Key) (q : ByteSeq) : (q.foldl skAppend k).bytes = k.bytes ++ q := by
  induction q generalizing k with
  | nil => simp
  | cons b q ih => simp [ih]

theorem foldl_skAppend_hash (k : Key) (q : ByteSeq) : (q.foldl skAppend k).hash = hashFrom k.hash q := by
  induction q generalizing k with
  | nil => rfl
  | cons b q ih => rw [List.foldl_cons, ih]; rfl

@[simp] theorem skFromBytes_bytes (q : ByteSeq) : (skFromBytes q).bytes = q := by
  cases q with
  | nil => rfl
  | cons b q => simp [skFromBytes, foldl_skAppend_bytes]

theorem skFromBytes_hash (q : ByteSeq) : (skFromBytes q).hash = hash q := by
  cases q with
  | nil => rfl
  | cons b q => rw [skFromBytes, foldl_skAppend_hash]; rfl

/-! ## The encoder's steps -/

/-- The bytes of the candidate (41_encoder.md R121): `PENDING`, empty for none, and the byte. -/
@[simp] theorem candidate_bytes (p : Option ByteSeq) (b : Byte) :
    (candidate p b).bytes = p.getD [] ++ [b] := by
  cases p <;> simp [candidate]

theorem candidate_ne (p : Option ByteSeq) (b : Byte) : (candidate p b).bytes ≠ [] := by simp

/-- ENCODE_STEP on a candidate that is present (R121). -/
theorem encodeStep_extend {b : Byte} {s : State} {c : Nat}
    (h : revRead s (s.pending.getD [] ++ [b]) = some c) :
    encodeStep b s = .val none { s with pending := some (s.pending.getD [] ++ [b]) } := by
  simp [encodeStep, h, extendMatch]

/-- ENCODE_STEP on a candidate that is absent, with room for it (R122). -/
theorem encodeStep_emit {b : Byte} {s : State} {p : ByteSeq} {c : Nat} (hp : s.pending = some p)
    (h : revRead s (p ++ [b]) = none) (hc : revRead s p = some c) (hf : dictionaryFull s = false) :
    encodeStep b s = .val (some c) { learned (p ++ [b]) s with pending := some [b] } := by
  simp [encodeStep, emitAndLearn, hp, h, hc, learn_eq_val s (candidate_ne (some p) b) hf]

/-- ENCODE_STEP on a candidate that is absent, with no room (60_exceptions.md R247). -/
theorem encodeStep_full {b : Byte} {s : State} {p : ByteSeq} {c : Nat} (hp : s.pending = some p)
    (h : revRead s (p ++ [b]) = none) (hc : revRead s p = some c) (hf : dictionaryFull s = true) :
    encodeStep b s = .raised .capacityExceeded s := by
  simp [encodeStep, emitAndLearn, hp, h, hc, learn_eq_raised s (candidate_ne (some p) b) hf]

/-- Everything ENCODE_STEP can do. -/
theorem encodeStep_cases (b : Byte) (s : State) :
    (∃ c, revRead s (s.pending.getD [] ++ [b]) = some c ∧
      encodeStep b s = .val none { s with pending := some (s.pending.getD [] ++ [b]) }) ∨
    (revRead s (s.pending.getD [] ++ [b]) = none ∧ s.pending.bind (revRead s) = none ∧
      encodeStep b s = .stuck .pendingAbsent) ∨
    (∃ p c, s.pending = some p ∧ revRead s (p ++ [b]) = none ∧ revRead s p = some c ∧
      dictionaryFull s = true ∧ encodeStep b s = .raised .capacityExceeded s) ∨
    (∃ p c, s.pending = some p ∧ revRead s (p ++ [b]) = none ∧ revRead s p = some c ∧
      dictionaryFull s = false ∧
      encodeStep b s = .val (some c) { learned (p ++ [b]) s with pending := some [b] }) := by
  cases hr : revRead s (s.pending.getD [] ++ [b]) with
  | some c => exact .inl ⟨c, rfl, encodeStep_extend hr⟩
  | none =>
    cases hb : s.pending.bind (revRead s) with
    | none => exact .inr (.inl ⟨rfl, rfl, by simp [encodeStep, hr, emitAndLearn, hb]⟩)
    | some c =>
      obtain ⟨p, hp, hc⟩ := Option.bind_eq_some_iff.1 hb
      have hr' : revRead s (p ++ [b]) = none := by simpa [hp] using hr
      cases hf : dictionaryFull s with
      | true => exact .inr (.inr (.inl ⟨p, c, hp, hr', hc, rfl, encodeStep_full hp hr' hc hf⟩))
      | false => exact .inr (.inr (.inr ⟨p, c, hp, hr', hc, rfl, encodeStep_emit hp hr' hc hf⟩))

/-- ENCODE_FLUSH of an empty stream (R126). -/
theorem encodeFlush_noCode {s : State} (h : s.pending = none) : encodeFlush s = .val none s := by
  simp [encodeFlush, h]

/-- ENCODE_FLUSH of a pending match (R126, R127). -/
theorem encodeFlush_code {s : State} {p : ByteSeq} {c : Nat} (hp : s.pending = some p)
    (hc : revRead s p = some c) : encodeFlush s = .val (some c) { s with pending := none } := by
  simp [encodeFlush, hp, hc]

/-- Everything ENCODE_FLUSH can do (R126). -/
theorem encodeFlush_cases (s : State) :
    (s.pending = none ∧ encodeFlush s = .val none s) ∨
    (∃ p, s.pending = some p ∧ revRead s p = none ∧ encodeFlush s = .stuck .pendingAbsent) ∨
    (∃ p c, s.pending = some p ∧ revRead s p = some c ∧
      encodeFlush s = .val (some c) { s with pending := none }) := by
  cases hp : s.pending with
  | none => exact .inl ⟨rfl, by simp [encodeFlush, hp]⟩
  | some p =>
    cases hc : revRead s p with
    | none => exact .inr (.inl ⟨p, rfl, hc, by simp [encodeFlush, hp, hc]⟩)
    | some c => exact .inr (.inr ⟨p, c, rfl, hc, by simp [encodeFlush, hp, hc]⟩)

/-! ## The decoder's steps -/

/-- What `learnResolved` does with a resolved key and room for the entry (42_decoder.md R146). -/
theorem learnResolved_val {p t : ByteSeq} {h : Byte} {s : State} (hf : dictionaryFull s = false) :
    learnResolved p (h :: t) s =
      .val (some (h :: t)) { learned (p ++ [h]) s with prev := some (h :: t) } := by
  have hne : (skAppend (skFromBytes p) h).bytes ≠ [] := by simp
  simp [learnResolved, learn_eq_val s hne hf]

/-- Without room it raises before any write (60_exceptions.md R247). -/
theorem learnResolved_full {p t : ByteSeq} {h : Byte} {s : State} (hf : dictionaryFull s = true) :
    learnResolved p (h :: t) s = .raised .capacityExceeded s := by
  have hne : (skAppend (skFromBytes p) h).bytes ≠ [] := by simp
  simp [learnResolved, learn_eq_raised s hne hf]

/-- The conditions of the classes (30_encoding.md R74). -/
theorem wireClass_eoi {prev : Option ByteSeq} {n v w : Nat} (h : v = eoiPattern w) :
    wireClass prev n v w = .eoi := by simp [wireClass, h]

theorem wireClass_first {n v w : Nat} (h : v ≠ eoiPattern w) (hv : v < Config.alphabet) :
    wireClass none n v w = .first := by simp [wireClass, h, hv]

theorem wireClass_firstCorrupt {n v w : Nat} (h : v ≠ eoiPattern w) (hv : Config.alphabet ≤ v) :
    wireClass none n v w = .firstCorrupt := by
  simp [wireClass, h, Nat.not_lt.2 hv]

theorem wireClass_known {p : ByteSeq} {n v w : Nat} (h : v ≠ eoiPattern w) (hv : v < n) :
    wireClass (some p) n v w = .known := by simp [wireClass, h, hv]

theorem wireClass_unseen {p : ByteSeq} {n v w : Nat} (h : v ≠ eoiPattern w) (hv : v = n) :
    wireClass (some p) n v w = .unseen := by subst hv; simp [wireClass, h]

theorem wireClass_corrupt {p : ByteSeq} {n v w : Nat} (h : v ≠ eoiPattern w) (hv : n < v) :
    wireClass (some p) n v w = .corrupt := by
  simp [wireClass, h, show ¬ v < n by omega, show v ≠ n by omega]

/-- Everything DECODE_STEP can do (42_decoder.md R149). -/
theorem decodeStep_cases (v : Nat) (w : Nat) (s : State) :
    (v = eoiPattern w ∧ decodeStep v w s = .val none s) ∨
    (v ≠ eoiPattern w ∧ s.prev = none ∧ v < Config.alphabet ∧ decodeStep v w s = decodeFirst v s) ∨
    (v ≠ eoiPattern w ∧ s.prev = none ∧ Config.alphabet ≤ v ∧
      decodeStep v w s = .raised .corruptStream s) ∨
    (∃ p, v ≠ eoiPattern w ∧ s.prev = some p ∧ v < s.nextKey ∧ decodeStep v w s = decodeKnown v p s) ∨
    (∃ p, v ≠ eoiPattern w ∧ s.prev = some p ∧ v = s.nextKey ∧ decodeStep v w s = decodeUnseen p s) ∨
    (∃ p, v ≠ eoiPattern w ∧ s.prev = some p ∧ s.nextKey < v ∧
      decodeStep v w s = .raised .corruptStream s) := by
  by_cases he : v = eoiPattern w
  · exact .inl ⟨he, by simp [decodeStep, classOf, wireClass_eoi he, decodeClass, decodeEoi]⟩
  · cases hp : s.prev with
    | none =>
      by_cases hv : v < Config.alphabet
      · exact .inr (.inl ⟨he, rfl, hv, by
          simp [decodeStep, classOf, hp, wireClass_first he hv, decodeClass]⟩)
      · exact .inr (.inr (.inl ⟨he, rfl, Nat.not_lt.1 hv, by
          simp [decodeStep, classOf, hp, wireClass_firstCorrupt he (Nat.not_lt.1 hv), decodeClass,
            decodeFirstCorrupt]⟩))
    | some p =>
      rcases Nat.lt_trichotomy v s.nextKey with hv | hv | hv
      · exact .inr (.inr (.inr (.inl ⟨p, he, rfl, hv, by
          simp [decodeStep, classOf, hp, wireClass_known he hv, decodeClass, withPrev]⟩)))
      · exact .inr (.inr (.inr (.inr (.inl ⟨p, he, rfl, hv, by
          simp [decodeStep, classOf, hp, wireClass_unseen he hv, decodeClass, withPrev]⟩))))
      · exact .inr (.inr (.inr (.inr (.inr ⟨p, he, rfl, hv, by
          simp [decodeStep, classOf, hp, wireClass_corrupt he hv, decodeClass, decodeCorrupt]⟩))))

/-! ## Widths -/

theorem bits_low {n : Nat} (h : n < 512) : bits n = 9 := by
  simp [bits, Config.widthKnee, Config.minWidth, h]

theorem bits_high {n : Nat} (h : 512 ≤ n) : bits n = Nat.log2 (n - 1) + 1 := by
  simp [bits, Config.widthKnee, Nat.not_lt.2 h]

/-- `n` fits below 2 to its width: `n <= 2^bits(n)` (R170). -/
theorem le_two_pow_bits (n : Nat) : n ≤ 2 ^ bits n := by
  by_cases h : n < 512
  · rw [bits_low h]; omega
  · rw [bits_high (by omega)]
    have := Nat.lt_log2_self (n := n - 1)
    omega

/-- No smaller width does, from the knee on (R170). -/
theorem two_pow_lt_of_lt_bits {n w : Nat} (h : 512 ≤ n) (hw : w < bits n) : 2 ^ w < n := by
  rw [bits_high h] at hw
  have h1 : 2 ^ Nat.log2 (n - 1) ≤ n - 1 := Nat.log2_self_le (by omega)
  have h2 : 2 ^ w ≤ 2 ^ Nat.log2 (n - 1) := Nat.pow_le_pow_right (by omega) (by omega)
  omega

theorem nine_le_bits (n : Nat) : 9 ≤ bits n := by
  by_cases h : n < 512
  · rw [bits_low h]
  · by_contra hb
    have h1 := le_two_pow_bits n
    have h2 : 2 ^ bits n ≤ 2 ^ 8 := Nat.pow_le_pow_right (by omega) (by omega)
    omega

end Sys2Proof.Machine
end

