-- ==== Sys2Proof/Laws/Commands.lean ====
section
/-! SUPPORT. What the code transfers and the commands built on them can do: one lemma says everything each
can do. -/

namespace Sys2Proof.Machine

/-! ## Room -/

theorem dictionaryFull_eq_false {s : State} (h : HasRoom s) : dictionaryFull s = false := by
  unfold dictionaryFull
  cases hc : s.capacity with
  | none => rfl
  | some n => have := h n hc; simp; omega

theorem dictionaryFull_eq_true {s : State} (h : IsFull s) : dictionaryFull s = true := by
  obtain ⟨n, hc, h⟩ := h
  simp [dictionaryFull, hc, h]

theorem hasRoom_of_eq_false {s : State} (h : dictionaryFull s = false) : HasRoom s := by
  intro n hn
  simp only [dictionaryFull, hn, decide_eq_false_iff_not] at h
  omega

/-! ## Transfers -/

/-- Everything a writing of bits can do (43_width_and_serdes.md R177, 60_exceptions.md R248). -/
theorem writeBits_cases (own : Owner) (bs : List Bit) (s : State) :
    (∃ more, s.writeAnswers = List.replicate bs.length .accept ++ more ∧
      writeBits own bs s =
        .next (finishWrite own { s with writeAnswers := more, outBits := s.outBits ++ bs })) ∨
    (∃ j more, j < bs.length ∧ s.writeAnswers = List.replicate j .accept ++ .fail :: more ∧
      writeBits own bs s =
        .next (raise .bitIoError { s with writeAnswers := more, outBits := s.outBits ++ bs.take j })) ∨
    (∃ j, j < bs.length ∧ s.writeAnswers = List.replicate j .accept ∧
      writeBits own bs s = .next (hold (.write (bs.drop j) own)
        { s with writeAnswers := [], outBits := s.outBits ++ bs.take j })) := by
  unfold writeBits
  rcases pushBits_cases bs s with ⟨more, h, e⟩ | ⟨j, more, hj, h, e⟩ | ⟨j, hj, h, e⟩
  · exact .inl ⟨more, h, by rw [e]⟩
  · exact .inr (.inl ⟨j, more, hj, h, by rw [e]⟩)
  · exact .inr (.inr ⟨j, hj, h, by rw [e]⟩)

/-- Everything a reading of a code can do (R180, R181, 60_exceptions.md R248). -/
theorem readBits_cases (own : Owner) (w left acc : Nat) (s : State) :
    (∃ (bs : List Bit) (more : List ReadAnswer), bs.length = left ∧ s.readAnswers = bs.map .bit ++ more ∧
      readBits own w left acc s = finishValue own w (assembleFrom acc bs) { s with readAnswers := more }) ∨
    (∃ (bs : List Bit) (more : List ReadAnswer), bs.length < left ∧
      s.readAnswers = bs.map .bit ++ .endOfData :: more ∧
      readBits own w left acc s = finishPhysEnd own { s with readAnswers := more }) ∨
    (∃ (bs : List Bit) (more : List ReadAnswer), bs.length < left ∧
      s.readAnswers = bs.map .bit ++ .fail :: more ∧
      readBits own w left acc s = .next (raise .bitIoError { s with readAnswers := more })) ∨
    (∃ bs : List Bit, bs.length < left ∧ s.readAnswers = bs.map .bit ∧
      readBits own w left acc s = .next (hold (.read (assembleFrom acc bs) (left - bs.length) w own)
        { s with readAnswers := [] })) := by
  unfold readBits
  rcases pullBits_cases left acc s with
    ⟨bs, more, hl, h, e⟩ | ⟨bs, more, hl, h, e⟩ | ⟨bs, more, hl, h, e⟩ | ⟨bs, hl, h, e⟩
  · exact .inl ⟨bs, more, hl, h, by rw [e]⟩
  · exact .inr (.inl ⟨bs, more, hl, h, by rw [e]⟩)
  · exact .inr (.inr (.inl ⟨bs, more, hl, h, by rw [e]⟩))
  · exact .inr (.inr (.inr ⟨bs, hl, h, by rw [e]⟩))

/-- The sentinel on the wire is its width in one-bits (30_encoding.md R73). -/
theorem codeBits_ones (w c : Nat) : codeBits (2 ^ (w + c) - 1) w = List.replicate w true := by
  induction w generalizing c with
  | zero => rfl
  | succ w ih =>
    simp only [codeBits, List.replicate_succ]
    rw [show w + 1 + c = w + (c + 1) by omega, ih (c + 1)]
    congr 1
    have hc := Nat.two_pow_pos c
    have hw := Nat.two_pow_pos w
    have : (2 ^ (w + (c + 1)) - 1) / 2 ^ w = 2 ^ (c + 1) - 1 := by
      rw [Nat.pow_add, Nat.div_eq_of_lt_le]
      · rw [Nat.sub_mul, Nat.mul_comm]; omega
      · rw [Nat.sub_add_cancel (Nat.two_pow_pos _), Nat.mul_comm]
        have : 0 < 2 ^ (c + 1) * 2 ^ w := by positivity
        omega
    rw [Nat.shiftRight_eq_div_pow, this, Nat.pow_succ]
    simp; omega

/-- EMIT_EOI's bits (43_width_and_serdes.md R178). -/
theorem eoiBits_eq (n : Nat) : eoiBits n = List.replicate (bits (n - 1)) true :=
  codeBits_ones (bits (n - 1)) 0

/-! ## The prologue (44_stream_commands.md R200) -/

theorem whenLive_live {s : State} (k : Out) (h : Live s) : whenLive s k = k := by
  simp [whenLive, h.1, h.2]

/-- Everything the lifecycle checks can do. -/
theorem whenLive_cases (s : State) (k : Out) :
    (s.closed = true ∧ whenLive s k = .next (respond (.fault .streamClosed) s)) ∨
    (∃ f, s.closed = false ∧ s.fault = some f ∧ whenLive s k = .next (respond (.fault f) s)) ∨
    (Live s ∧ whenLive s k = k) := by
  unfold whenLive
  cases hc : s.closed with
  | true => exact .inl ⟨rfl, by simp [raise, isSticky]⟩
  | false =>
    cases hf : s.fault with
    | some f => exact .inr (.inl ⟨f, rfl, rfl, by simp⟩)
    | none => exact .inr (.inr ⟨⟨hc, hf⟩, by simp⟩)

/-- Everything the mode check can do. -/
theorem whenMode_cases (m : Mode) (s : State) (k : Out) :
    (s.mode ≠ m ∧ whenMode m s k = .next (respond (.fault .wrongMode) s)) ∨
    (s.mode = m ∧ whenMode m s k = k) := by
  unfold whenMode
  by_cases h : s.mode = m
  · exact .inr ⟨h, by simp [h]⟩
  · exact .inl ⟨h, by simp [h, raise, isSticky]⟩

/-! ## The commands past their prologue -/

theorem exec_wrb_live {s : State} (b : Byte) (h : Live s) (hm : s.mode = .compress) :
    exec (.wrb b) s = writeByte b s := by
  simp [exec, execWrb, whenLive, whenMode, h.1, h.2, hm, byteOperand]

theorem exec_rdb_live {s : State} (imm : Byte) (h : Live s) (hm : s.mode = .decompress) :
    exec (.rdb imm) s = readByte s := by
  simp [exec, execRdb, whenLive, whenMode, h.1, h.2, hm]

theorem exec_close_live {s : State} (imm : Byte) (h : Live s) (hm : s.mode = .compress) :
    exec (.close imm) s = closeStream { s with closed := true } := by
  simp [exec, execClose, h.1, h.2, hm]

/-- RDB with an exhausted buffer reads one code in the decoder's width (R210). -/
theorem exec_rdb_reads {s : State} (imm : Byte) (h : ReadsCode s) :
    exec (.rdb imm) s = readBits .command (bits (s.nextKey + 1)) (bits (s.nextKey + 1)) 0 s := by
  rw [exec_rdb_live imm h.1 h.2.1]
  have : s.outbuf[s.cursor]? = none := by simpa using h.2.2.1
  simp [readByte, this, h.2.2.2, widthDec]

/-- RDB on a code that arrives whole. -/
theorem exec_rdb_value {s : State} (imm : Byte) {bs : List Bit} {more : List ReadAnswer} (h : ReadsCode s)
    (hl : bs.length = bits (s.nextKey + 1)) (hr : s.readAnswers = bs.map .bit ++ more) :
    exec (.rdb imm) s = decodeAndServe (assemble bs) (bits (s.nextKey + 1)) { s with readAnswers := more } := by
  rw [exec_rdb_reads imm h]
  unfold readBits
  rw [← hl, pullBits_value bs 0 s more hr]
  rfl

/-- Everything WRB can do once the prologue has passed (R205). -/
theorem writeByte_cases (b : Byte) (s : State) :
    (∃ c, revRead s (s.pending.getD [] ++ [b]) = some c ∧
      writeByte b s = .next (respond .ok { s with pending := some (s.pending.getD [] ++ [b]) })) ∨
    (s.pending.bind (revRead s) = none ∧ writeByte b s = .fault .pendingAbsent) ∨
    (∃ p c, s.pending = some p ∧ revRead s (p ++ [b]) = none ∧ revRead s p = some c ∧
      dictionaryFull s = true ∧ writeByte b s = .next (raise .capacityExceeded s)) ∨
    (∃ p c, s.pending = some p ∧ revRead s (p ++ [b]) = none ∧ revRead s p = some c ∧
      dictionaryFull s = false ∧
      writeByte b s = writeBits .command (codeBits c (bits s.nextKey))
        { learned (p ++ [b]) s with pending := some [b] }) := by
  rcases encodeStep_cases b s with ⟨c, h, e⟩ | ⟨h, hb, e⟩ | ⟨p, c, hp, h, hc, hf, e⟩ | ⟨p, c, hp, h, hc, hf, e⟩
  · exact .inl ⟨c, h, by simp [writeByte, e]⟩
  · exact .inr (.inl ⟨hb, by simp [writeByte, e]⟩)
  · exact .inr (.inr (.inl ⟨p, c, hp, h, hc, hf, by simp [writeByte, e]⟩))
  · exact .inr (.inr (.inr ⟨p, c, hp, h, hc, hf, by simp [writeByte, e, widthEnc]⟩))

/-- Everything CLOSE can do in compress mode with no fault stored (R215). -/
theorem closeStream_cases (s : State) :
    (s.pending = none ∧ closeStream s = writeBits .command (eoiBits s.nextKey) s) ∨
    (∃ p, s.pending = some p ∧ revRead s p = none ∧ closeStream s = .fault .pendingAbsent) ∨
    (∃ p c, s.pending = some p ∧ revRead s p = some c ∧
      closeStream s = writeBits .command (codeBits c (bits (s.nextKey - 1)) ++ eoiBits s.nextKey)
        { s with pending := none }) := by
  rcases encodeFlush_cases s with ⟨h, e⟩ | ⟨p, hp, h, e⟩ | ⟨p, c, hp, h, e⟩
  · exact .inl ⟨h, by simp [closeStream, e, closingBits]⟩
  · exact .inr (.inl ⟨p, hp, h, by simp [closeStream, e]⟩)
  · exact .inr (.inr ⟨p, c, hp, h, by simp [closeStream, e, closingBits, widthEnc]⟩)

/-- Everything the learning classes can do once a key is resolved (42_decoder.md R146). -/
theorem learnResolved_cases (p q : ByteSeq) (s : State) :
    (q = [] ∧ learnResolved p q s = .stuck .emptyKey) ∨
    (∃ h t, q = h :: t ∧ dictionaryFull s = true ∧
      learnResolved p q s = .raised .capacityExceeded s) ∨
    (∃ h t, q = h :: t ∧ dictionaryFull s = false ∧
      learnResolved p q s = .val (some q) { learned (p ++ [h]) s with prev := some q }) := by
  cases q with
  | nil => exact .inl ⟨rfl, rfl⟩
  | cons h t =>
    cases hf : dictionaryFull s with
    | true => exact .inr (.inl ⟨h, t, rfl, rfl, learnResolved_full hf⟩)
    | false => exact .inr (.inr ⟨h, t, rfl, rfl, learnResolved_val hf⟩)

end Sys2Proof.Machine
end

