-- ==== Sys2Proof/Laws/Invariant.lean ====
section
/-! SUPPORT. What each update of the state does to the invariant of the block (Safety.lean). -/

namespace Sys2Proof.Machine

variable {s : State}

/-! ## Updates that leave the block's own state -/

/-- The ports, the reset input, the capacity and the result are no part of the invariant. -/
theorem blockInv_ports (h : BlockInv s) (c : Option Nat) (r : Option Mode) (cm : List CommandWord)
    (rs : List ResponseWord) (ob : List Bit) (wa : List WriteAnswer) (ra : List ReadAnswer)
    (re : Option StepResult) (pr : List ResponseWord) (pb : List Bit) :
    BlockInv { s with
      capacity := c
      resetInput := r
      commands := cm
      responses := rs
      outBits := ob
      writeAnswers := wa
      readAnswers := ra
      result := re
      pastResponses := pr
      pastBits := pb } :=
  ⟨h.1, h.2, h.3, h.4, h.5, h.6, h.7, h.8, h.9, h.10, h.11, h.12, h.13, fun t ht => by
    have := h.14 t ht
    cases t <;> exact this⟩

theorem blockInv_respond (h : BlockInv s) (r : Response) : BlockInv (respond r s) :=
  blockInv_ports h _ _ _ _ _ _ _ _ _ _

/-! ## Updates of the lifecycle -/

theorem blockInv_closed (h : BlockInv s) (ht : s.transfer = none) (b : Bool) :
    BlockInv { s with closed := b } :=
  ⟨h.1, h.2, h.3, h.4, h.5, h.6, h.7, h.8, h.9, h.10, h.11, h.12, h.13, by simp [ht]⟩

/-- A transfer that the block can have started may wait. -/
theorem blockInv_hold (h : BlockInv s) (t : Transfer) (ht : TransferOk s t) : BlockInv (hold t s) :=
  ⟨h.1, h.2, h.3, h.4, h.5, h.6, h.7, h.8, h.9, h.10, h.11, h.12, h.13, by
    intro u hu
    cases hu
    cases t <;> exact ht⟩

/-- A waiting transfer may end. -/
theorem blockInv_noTransfer (h : BlockInv s) : BlockInv { s with transfer := none } :=
  ⟨h.1, h.2, h.3, h.4, h.5, h.6, h.7, h.8, h.9, h.10, h.11, h.12, h.13, by simp⟩

/-- A raised fault, which is CORRUPT_STREAM in decompress mode only (60_exceptions.md R245). -/
theorem blockInv_raise (h : BlockInv s) (f : FaultCode) (hf : s.mode = .compress → f ≠ .corruptStream)
    (ht : s.transfer = none) : BlockInv (raise f s) := by
  unfold raise
  split
  · next hs =>
    apply blockInv_respond
    unfold storeFault
    split
    · exact h
    · next hn =>
      exact ⟨h.1, h.2, h.3, h.4, h.5, h.6, h.7, h.8, h.9, h.10,
        fun hm => ⟨(h.11 hm).1, (h.11 hm).2.1, (h.11 hm).2.2.1, (h.11 hm).2.2.2.1, by simpa using hf hm⟩,
        h.12, by simpa using hs, by simp [ht]⟩
  · exact blockInv_respond h _

/-! ## Updates of one side's state -/

/-- `PENDING` may become any key of the dictionary, in compress mode (10_state.md R27). -/
theorem blockInv_pending (h : BlockInv s) (hm : s.mode = .compress) (p : Option ByteSeq)
    (hp : ∀ q, p = some q → (revRead s q).isSome = true) (ht : s.transfer = none) :
    BlockInv { s with pending := p } :=
  ⟨h.1, h.2, h.3, h.4, h.5, h.6, h.7, hp, h.9, h.10, h.11, by simp [hm], h.13, by simp [ht]⟩

/-- The decoder's `PREV`, buffer and `ENDED`, in decompress mode (10_state.md R28, R29, R30). -/
theorem blockInv_decoder (h : BlockInv s) (hm : s.mode = .decompress) (ht : s.transfer = none)
    (p : Option ByteSeq) (ob : ByteSeq) (cu : Nat) (en : Bool) (hp : ∀ q, p = some q → q ≠ [])
    (hc : cu ≤ ob.length) :
    BlockInv { s with
      prev := p
      outbuf := ob
      cursor := cu
      ended := en } :=
  ⟨h.1, h.2, h.3, h.4, h.5, h.6, h.7, h.8, hp, hc, by simp [hm], h.12, h.13, by simp [ht]⟩

/-! ## The dictionary -/

/-- No code from `NEXT_KEY` on is present (10_state.md R24). -/
theorem fwdRead_none_of_le (h : BlockInv s) {c : Nat} (hc : s.nextKey ≤ c) : fwdRead s c = none := by
  have := h.present c
  cases hh : fwdRead s c with
  | none => rfl
  | some k => have := this.1 (by simp [hh]); omega

/-- A code below `NEXT_KEY` holds a key of at least one byte. -/
theorem fwdRead_cons_of_lt (h : BlockInv s) {c : Nat} (hc : c < s.nextKey) :
    ∃ b q, fwdRead s c = some (b :: q) := by
  obtain ⟨l, hl⟩ := Option.isSome_iff_exists.1 ((h.present c).2 hc)
  cases l with
  | nil => exact absurd rfl (h.entryNonempty c _ hl)
  | cons a b => exact ⟨a, b, hl⟩

/-- A key in the forward table is in the reverse table. -/
theorem revRead_isSome_of_fwdRead (h : BlockInv s) {c : Nat} {k : ByteSeq} (hc : fwdRead s c = some k) :
    (revRead s k).isSome = true := by
  classical
  have hex : ∃ d, fwdRead s d = some k := ⟨c, hc⟩
  have := (h.revLeast k (Nat.find hex)).2 ⟨Nat.find_spec hex, fun d hd => Nat.find_min hex hd⟩
  simp [this]

/-- Every one-byte key is present (20_memory.md R64). -/
theorem revRead_byte (h : BlockInv s) (b : Byte) : (revRead s [b]).isSome = true := by
  have hb := b.isLt
  have hs := h.seeded b.toNat (by simpa [Config.alphabet] using hb)
  have : Config.seedEntry b.toNat = some [b] := by
    simp only [Config.seedEntry, Config.alphabet, BitVec.ofNat_toNat, BitVec.setWidth_eq]
    exact if_pos hb
  exact revRead_isSome_of_fwdRead h (hs.trans this)

/-- After a Learn a key's code is still its smallest (10_state.md R26). -/
theorem revLeast_learned (h : BlockInv s) (k l : ByteSeq) (c : Nat) :
    revRead (learned k s) l = some c ↔
      fwdRead (learned k s) c = some l ∧ ∀ d, d < c → fwdRead (learned k s) d ≠ some l := by
  simp only [revRead_learned s k l h.canonical, fwdRead_learned s k _ h.canonical]
  have below : ∀ {d q}, fwdRead s d = some q → d < s.nextKey := fun hd => (h.present _).1 (by simp [hd])
  by_cases hl : l = k ∧ revRead s k = none
  · obtain ⟨rfl, hn⟩ := hl
    have absent : ∀ d, fwdRead s d ≠ some l := fun d hd => by
      have := revRead_isSome_of_fwdRead h hd
      simp [hn] at this
    simp only [hn, and_self, if_true]
    constructor
    · rintro ⟨⟩
      exact ⟨by simp, fun d hd => by rw [if_neg (by omega)]; exact absent d⟩
    · rintro ⟨h1, -⟩
      split at h1
      · next e => simp [e]
      · exact absurd h1 (absent c)
  · rw [if_neg hl, h.revLeast l c]
    constructor
    · rintro ⟨h1, h2⟩
      have hc := below h1
      exact ⟨by rw [if_neg (by omega)]; exact h1, fun d hd => by rw [if_neg (by omega)]; exact h2 d hd⟩
    · rintro ⟨h1, h2⟩
      by_cases hc : c = s.nextKey
      · exfalso
        rw [if_pos hc, Option.some.injEq] at h1
        obtain ⟨d, hd⟩ := Option.ne_none_iff_exists'.1 fun hn => hl ⟨h1.symm, hn⟩
        have hf := ((h.revLeast k d).1 hd).1
        have hdl := below hf
        have := h2 d (by omega)
        rw [if_neg (by omega), hf] at this
        exact this (by rw [h1])
      · rw [if_neg hc] at h1
        have hcl := below h1
        refine ⟨h1, fun d hd => ?_⟩
        have := h2 d hd
        rwa [if_neg (by omega)] at this

/-- A Learn keeps the invariant: of a non-empty key, in compress mode of an absent one (R25, R54). -/
theorem blockInv_learned (h : BlockInv s) {k : ByteSeq} (hk : k ≠ [])
    (hm : s.mode = .compress → revRead s k = none) (ht : s.transfer = none) : BlockInv (learned k s) where
  canonical := learned_wf s k h.canonical
  keyFloor := Nat.le_succ_of_le h.keyFloor
  present c := by
    rw [fwdRead_learned s k c h.canonical, learned_nextKey]
    by_cases hc : c = s.nextKey
    · simp [hc]
    · rw [if_neg hc, h.present c]; omega
  seeded c hc := by
    have := h.keyFloor
    rw [fwdRead_learned s k c h.canonical, if_neg (by simp only [Config.alphabet, Config.firstKey] at *; omega)]
    exact h.seeded c hc
  entryNonempty c l := by
    rw [fwdRead_learned s k c h.canonical]
    split
    · rintro ⟨⟩; exact hk
    · exact h.entryNonempty c l
  revLeast := revLeast_learned h k
  lockstep hmode c l hc := by
    rw [learned_mode] at hmode
    rw [fwdRead_learned s k c h.canonical] at hc
    rw [revRead_learned s k l h.canonical]
    split at hc
    · next e => cases hc; simp [hm hmode, e]
    · have := h.lockstep hmode c l hc
      rw [if_neg]
      · exact this
      · rintro ⟨rfl, hn⟩; simp [this] at hn
  pendingPresent p hp := by
    rw [learned_pending] at hp
    rw [revRead_learned s k p h.canonical]
    split
    · rfl
    · exact h.pendingPresent p hp
  prevNonempty p hp := h.prevNonempty p (by simpa using hp)
  cursorBound := by simpa using h.cursorBound
  compressSide := by simpa using h.compressSide
  decompressSide := by simpa using h.decompressSide
  faultSticky := by simpa using h.faultSticky
  transferOk := by simp [ht]

end Sys2Proof.Machine
end

