-- ==== Sys2Proof/Laws/PerInstr.lean ====
section
/-! SUPPORT. A fact about every row of the opcode table (00_scope.md R13): a row is of one kind, and its
kind is the one encoding it has. A command has a 12-bit word; a wire code has as many bits as its width;
an internal step has neither. -/

namespace Sys2Proof.Laws.OneForm

/-- A command's encoding is the 12 bits of its word, `OP` and `IMM8` in their places; a wire code's bits are
as many as its width; an internal step has no encoding; and no row is of two kinds. -/
def Statement (i : Instr) : Prop :=
  (∀ x, encodeCommand i = some x → commandFields i = some (opField x, immField x) ∧ encodeWire i = none ∧
    encode i = codeBits x.toNat 12) ∧
  (∀ bs, encodeWire i = some bs → (∃ v, wireFields i = some (v, bs.length)) ∧ encodeCommand i = none ∧
    encode i = bs) ∧
  (encodeCommand i = none → encodeWire i = none → encode i = [])

/-- A row whose word is an `OP` above an `IMM8`. -/
theorem of_command {i : Instr} (op : BitVec 4) (imm : Byte) (hf : commandFields i = some (op, imm))
    (hw : wireFields i = none) : Statement i := by
  refine ⟨fun x hx => ?_, fun bs hb => ?_, fun hc => ?_⟩
  · simp only [encodeCommand, hf, Option.map_some, Option.some.injEq] at hx
    subst hx
    exact ⟨by rw [opField_append, immField_append, hf], by simp [encodeWire, hw], by simp [encode, encodeCommand, hf]⟩
  · simp [encodeWire, hw] at hb
  · simp [encodeCommand, hf] at hc

/-- A row that is a value in a width. -/
theorem of_wire {i : Instr} (v w : Nat) (hf : commandFields i = none) (hw : wireFields i = some (v, w)) :
    Statement i := by
  refine ⟨fun x hx => ?_, fun bs hb => ?_, fun _ he => ?_⟩
  · simp [encodeCommand, hf] at hx
  · simp only [encodeWire, hw, Option.map_some, Option.some.injEq] at hb
    subst hb
    exact ⟨⟨v, by simp [Machine.codeBits_length, hw]⟩, by simp [encodeCommand, hf],
      by simp [encode, encodeCommand, encodeWire, hf, hw]⟩
  · simp [encodeWire, hw] at he

/-- A row with no word of its own. -/
theorem of_internal {i : Instr} (hf : commandFields i = none) (hw : wireFields i = none) : Statement i := by
  refine ⟨fun x hx => ?_, fun bs hb => ?_, fun _ _ => ?_⟩
  · simp [encodeCommand, hf] at hx
  · simp [encodeWire, hw] at hb
  · simp [encode, encodeCommand, encodeWire, hf, hw]

theorem wrb (imm : Byte) : Statement (.wrb imm) := of_command 0x1 imm rfl rfl
theorem rdb (imm : Byte) : Statement (.rdb imm) := of_command 0x2 imm rfl rfl
theorem close (imm : Byte) : Statement (.close imm) := of_command 0x3 imm rfl rfl
theorem flush (imm : Byte) : Statement (.flush imm) := of_command 0x4 imm rfl rfl
theorem seek (imm : Byte) : Statement (.seek imm) := of_command 0x5 imm rfl rfl
theorem getlen (imm : Byte) : Statement (.getlen imm) := of_command 0x6 imm rfl rfl
theorem getpos (imm : Byte) : Statement (.getpos imm) := of_command 0x7 imm rfl rfl
theorem setpos (imm : Byte) : Statement (.setpos imm) := of_command 0x8 imm rfl rfl
theorem reserved0 (imm : Byte) : Statement (.reserved0 imm) := of_command 0x0 imm rfl rfl
theorem reserved9 (imm : Byte) : Statement (.reserved9 imm) := of_command 0x9 imm rfl rfl
theorem reservedA (imm : Byte) : Statement (.reservedA imm) := of_command 0xA imm rfl rfl
theorem reservedB (imm : Byte) : Statement (.reservedB imm) := of_command 0xB imm rfl rfl
theorem reservedC (imm : Byte) : Statement (.reservedC imm) := of_command 0xC imm rfl rfl
theorem reservedD (imm : Byte) : Statement (.reservedD imm) := of_command 0xD imm rfl rfl
theorem reservedE (imm : Byte) : Statement (.reservedE imm) := of_command 0xE imm rfl rfl
theorem reservedF (imm : Byte) : Statement (.reservedF imm) := of_command 0xF imm rfl rfl
theorem wireEoi (v w : Nat) : Statement (.wireEoi v w) := of_wire v w rfl rfl
theorem wireFirst (v w : Nat) : Statement (.wireFirst v w) := of_wire v w rfl rfl
theorem wireFirstCorrupt (v w : Nat) : Statement (.wireFirstCorrupt v w) := of_wire v w rfl rfl
theorem wireKnown (v w : Nat) : Statement (.wireKnown v w) := of_wire v w rfl rfl
theorem wireUnseen (v w : Nat) : Statement (.wireUnseen v w) := of_wire v w rfl rfl
theorem wireCorrupt (v w : Nat) : Statement (.wireCorrupt v w) := of_wire v w rfl rfl
theorem skFromByte (b : Byte) : Statement (.skFromByte b) := of_internal rfl rfl
theorem skEq (k l : Key) : Statement (.skEq k l) := of_internal rfl rfl
theorem hash (q : ByteSeq) : Statement (.hash q) := of_internal rfl rfl
theorem skAppend (k : Key) (b : Byte) : Statement (.skAppend k b) := of_internal rfl rfl
theorem skFromBytes (q : ByteSeq) : Statement (.skFromBytes q) := of_internal rfl rfl
theorem learn (k : Key) : Statement (.learn k) := of_internal rfl rfl
theorem encodeStep (b : Byte) : Statement (.encodeStep b) := of_internal rfl rfl
theorem encodeFlush : Statement .encodeFlush := of_internal rfl rfl
theorem decodeStep (v w : Nat) : Statement (.decodeStep v w) := of_internal rfl rfl
theorem bits (n : Nat) : Statement (.bits n) := of_internal rfl rfl
theorem emitCode (c w : Nat) : Statement (.emitCode c w) := of_internal rfl rfl
theorem emitEoi : Statement .emitEoi := of_internal rfl rfl
theorem readCode (w : Nat) : Statement (.readCode w) := of_internal rfl rfl

end Sys2Proof.Laws.OneForm
end

