-- ==== Sys2Proof/Tests/Slice0.lean ====
section
/-! SUPPORT. The model's own tests. Expected values are the spec's: its vectors (95_test_vectors.md, named
V-…, P1 to P5), or words and bits written out from 30_encoding.md. After them the witnesses: states that
meet the hypotheses of the statements. -/

namespace Sys2Proof.Tests

open Sys2Proof.Machine

/-! ## Helpers -/

/-- A bit string written with the first bit on the wire leftmost. -/
def bitList (ns : List Nat) : List Bit := ns.map (· == 1)

/-- `65/9` on the wire. -/
def bits65 : List Bit := bitList [0, 0,1,0,0, 0,0,0,1]

/-- `66/9` on the wire. -/
def bits66 : List Bit := bitList [0, 0,1,0,0, 0,0,1,0]

/-- `256/9` on the wire. -/
def bits256 : List Bit := bitList [1, 0,0,0,0, 0,0,0,0]

/-- `257/9` on the wire. -/
def bits257 : List Bit := bitList [1, 0,0,0,0, 0,0,0,1]

/-- Nine one-bits: `EOI/9`. -/
def bitsEoi : List Bit := bitList [1, 1,1,1,1, 1,1,1,1]

/-- A primitive that accepts `n` bits. -/
def accepts (n : Nat) : List WriteAnswer := List.replicate n .accept

/-- A source that holds `bs`. -/
def source (bs : List Bit) : List ReadAnswer := bs.map .bit

/-- A compress instance after reset, on a primitive that answers `wa`. -/
def compressor (wa : List WriteAnswer) : State := { State.resetIn .compress with writeAnswers := wa }

/-- A compress instance whose pending match is `p`. -/
def pendingOn (p : ByteSeq) (wa : List WriteAnswer) : State := { compressor wa with pending := some p }

/-- A decompress instance after reset, on a primitive that answers `ra`. -/
def decompressor (ra : List ReadAnswer) : State := { State.resetIn .decompress with readAnswers := ra }

/-- A decompress instance that has decoded a first code with the key `p`. -/
def decodedOn (p : ByteSeq) (ra : List ReadAnswer) : State :=
  { decompressor ra with
    prev := some p
    outbuf := p
    cursor := p.length }

/-- What a view shows of the next state. -/
def seen {α : Type} (view : State → α) (o : Out) : Option α := (nextOf o).map view

/-! ## Well-formedness: an ill-formed term for each check -/

theorem test_wellFormed_width :
    wellFormed (.wireEoi 255 8) = false ∧ wellFormed (.decodeStep 1 8) = false ∧
    wellFormed (.emitCode 0 8) = false ∧ wellFormed (.readCode 8) = false := by decide

theorem test_wellFormed_value : wellFormed (.wireKnown 512 9) = false ∧
    wellFormed (.decodeStep 512 9) = false := by decide

theorem test_wellFormed_eoi : wellFormed (.wireEoi 510 9) = false ∧ wellFormed (.wireKnown 511 9) = false := by
  decide

theorem test_wellFormed_alphabet :
    wellFormed (.wireFirst 256 9) = false ∧ wellFormed (.wireFirstCorrupt 255 9) = false ∧
    wellFormed (.wireUnseen 255 9) = false ∧ wellFormed (.wireCorrupt 256 9) = false := by decide

theorem test_wellFormed_empty : wellFormed (.skFromBytes []) = false ∧ wellFormed (.learn emptyKey) = false := by
  refine ⟨rfl, ?_⟩
  simp [wellFormed, keyOk, emptyKey]

theorem test_wellFormed_hash : wellFormed (.skAppend ⟨[], Config.hashSeed + 1⟩ 0x41) = false ∧
    wellFormed (.skEq emptyKey ⟨[], Config.hashSeed + 1⟩) = false := by
  simp [wellFormed, keyConsistent, Machine.hash, hashFrom]

theorem test_wellFormed_accepts :
    wellFormed (.wireEoi 511 9) = true ∧ wellFormed (.wireFirst 255 9) = true ∧
    wellFormed (.wireFirstCorrupt 256 9) = true ∧ wellFormed (.wireKnown 0 9) = true ∧
    wellFormed (.wireUnseen 256 9) = true ∧ wellFormed (.wireCorrupt 257 9) = true ∧
    wellFormed (.emitCode 512 9) = true := by decide

/-! ## Decoding: words written out from 30_encoding.md R80, R81 -/

theorem test_decode_wrb : decodeWord 0b0001_0100_0001 = .wrb 0x41 := by decide
theorem test_decode_rdb : decodeWord 0b0010_0000_0000 = .rdb 0x00 := by decide
theorem test_decode_close : decodeWord 0b0011_0000_0000 = .close 0x00 := by decide
theorem test_decode_flush : decodeWord 0b0100_1111_1111 = .flush 0xFF := by decide
theorem test_decode_seek : decodeWord 0b0101_0000_0000 = .seek 0x00 := by decide
theorem test_decode_getlen : decodeWord 0b0110_0000_0000 = .getlen 0x00 := by decide
theorem test_decode_getpos : decodeWord 0b0111_0000_0000 = .getpos 0x00 := by decide
theorem test_decode_setpos : decodeWord 0b1000_0000_0000 = .setpos 0x00 := by decide
theorem test_decode_reserved0 : decodeWord 0b0000_0000_0001 = .reserved0 0x01 := by decide
theorem test_decode_reserved9 : decodeWord 0b1001_0000_0010 = .reserved9 0x02 := by decide
theorem test_decode_reservedA : decodeWord 0b1010_0000_0100 = .reservedA 0x04 := by decide
theorem test_decode_reservedB : decodeWord 0b1011_0000_1000 = .reservedB 0x08 := by decide
theorem test_decode_reservedC : decodeWord 0b1100_0001_0000 = .reservedC 0x10 := by decide
theorem test_decode_reservedD : decodeWord 0b1101_0010_0000 = .reservedD 0x20 := by decide
theorem test_decode_reservedE : decodeWord 0b1110_0100_0000 = .reservedE 0x40 := by decide
theorem test_decode_reservedF : decodeWord 0b1111_0100_0001 = .reservedF 0x41 := by decide

/-! Wire codes, written out from R71 and R74, for a decoder whose `NEXT_KEY` is 256. -/

theorem test_decode_wireEoi : decodeWire none 256 bitsEoi = .wireEoi 511 9 := by decide
theorem test_decode_wireFirst : decodeWire none 256 bits65 = .wireFirst 65 9 := by decide
theorem test_decode_wireFirstCorrupt : decodeWire none 256 bits256 = .wireFirstCorrupt 256 9 := by decide
theorem test_decode_wireKnown : decodeWire (some [0x41]) 256 bits66 = .wireKnown 66 9 := by decide
theorem test_decode_wireUnseen : decodeWire (some [0x41]) 256 bits256 = .wireUnseen 256 9 := by decide
theorem test_decode_wireCorrupt : decodeWire (some [0x41]) 256 bits257 = .wireCorrupt 257 9 := by decide

/-- The classes where their conditions meet (R74). -/
theorem test_wireClass_boundaries :
    wireClass none 256 255 9 = .first ∧ wireClass none 256 256 9 = .firstCorrupt ∧
    wireClass (some [0]) 300 299 9 = .known ∧ wireClass (some [0]) 300 300 9 = .unseen ∧
    wireClass (some [0]) 300 301 9 = .corrupt ∧ wireClass (some [0]) 511 511 9 = .eoi := by decide

theorem test_encode_wrb : encode (.wrb 0x41) = bitList [0,0,0,1, 0,1,0,0, 0,0,0,1] := by decide
theorem test_encode_setpos : encode (.setpos 0) = bitList [1,0,0,0, 0,0,0,0, 0,0,0,0] := by decide
theorem test_encode_wireFirst : encode (.wireFirst 65 9) = bits65 := by decide
theorem test_encode_wireEoi : encode (.wireEoi 1023 10) = bitList [1,1, 1,1,1,1, 1,1,1,1] := by decide
theorem test_encode_learn (k : Key) : encode (.learn k) = [] := rfl

/-- The table's numbering: a command's bits are 11:0, and a 13th bit makes it no command (R84). -/
theorem test_decodeTableWord : decodeTableWord 12 0x141 = some (.wrb 0x41) ∧
    decodeTableWord 16 0x0300 = some (.close 0) ∧ decodeTableWord 16 0x1141 = none := by decide

theorem test_withFetchWord : seen (fun t => (t.pending, t.responses))
    (step (State.reset.withFetchWord 16 0x141)) = some (some [0x41], [0x000]) := by decide

/-! ## Responses and status (R85, 10_state.md R36) -/

theorem test_responseWord : responseWord .ok = 0x000 ∧ responseWord (.byte 0x42) = 0x142 ∧
    responseWord .eod = 0x200 ∧ responseWord (.fault .bitIoError) = 0xF07 := by decide

theorem test_readResponse : readResponse 0x1FF = some (.byte 0xFF) ∧ readResponse 0xF06 = some (.fault .capacityExceeded) ∧
    readResponse 0x001 = none ∧ readResponse 0xF00 = none ∧ readResponse 0x300 = none := by decide

/-- The end states of P1, P2 and P3. -/
theorem test_statusWord :
    statusWord { State.resetIn .compress with closed := true } = 0x02 ∧
    statusWord { State.resetIn .decompress with closed := true, ended := true } = 0x07 ∧
    statusWord { State.resetIn .decompress with closed := true, fault := some .corruptStream } = 0x0B := by decide

/-! ## Commands -/

/-- V-CMD-1, and V-CMD-2: the code goes out in the width of `NEXT_KEY` after the Learn. -/
theorem test_wrb :
    (seen (fun t => (t.pending, t.nextKey, t.outBits, t.responses))
      (exec (.wrb 0x41) (compressor [])) = some (some [0x41], 256, [], [0x000])) ∧
    (seen (fun t => ((t.pending, t.nextKey), (t.outBits, fwdRead t 256), t.responses))
      (exec (.wrb 0x42) (pendingOn [0x41] (accepts 9))) =
        some ((some [0x42], 257), (bits65, some [0x41, 0x42]), [0x000])) :=
  ⟨by decide, by decide⟩

/-- V-DEC-2, the first RDB; and V-CMD-15, served from the buffer with no bits read. -/
theorem test_rdb :
    (seen (fun t => (t.prev, t.outbuf, t.cursor, t.nextKey, t.responses))
      (exec (.rdb 0) (decompressor (source (bits65 ++ bitsEoi)))) =
        some (some [0x41], [0x41], 1, 256, [0x141])) ∧
    (seen (fun t => (t.cursor, t.readAnswers, t.responses))
      (exec (.rdb 0) { decodedOn [0x41, 0x42] (source [true]) with cursor := 1 }) =
        some (2, source [true], [0x142])) :=
  ⟨by decide, by decide⟩

/-- V-CMD-20: `258/9` and `EOI/9`, in the same width; and V-CMD-19: a stored fault, so neither. -/
theorem test_close :
    (seen (fun t => (t.pending, t.closed, t.outBits, t.responses))
      (exec (.close 0) { pendingOn [0x41, 0x42, 0x41] (accepts 18) with
        rev := [([0x41, 0x42, 0x41], 258)], nextKey := 259 }) =
        some (none, true, bitList [1, 0,0,0,0, 0,0,1,0] ++ bitsEoi, [0x000])) ∧
    (seen (fun t => ((t.pending, t.closed), (t.outBits, t.fault), t.responses))
      (exec (.close 0) { pendingOn [0x42] (accepts 18) with fault := some .capacityExceeded }) =
        some ((some [0x42], true), ([], some .capacityExceeded), [0x000])) :=
  ⟨by decide, by decide⟩

/-- V-CMD-9: `IMM8` ignored, `PENDING` stays. -/
theorem test_flush : seen (fun t => (t.pending, t.outBits, t.responses))
    (exec (.flush 0xFF) (pendingOn [0x41] (accepts 9))) = some (some [0x41], [], [0x000]) := by decide

/-- V-FLT-7: the stored fault comes before FLUSH's OK. -/
theorem test_flush_faulted : seen (fun t => t.responses)
    (exec (.flush 0) { decompressor [] with fault := some .corruptStream }) = some [0xF01] := by decide

/-- V-FLT-3. -/
theorem test_seek : seen (fun t => (t.fault, t.responses))
    (exec (.seek 0) { decompressor [] with fault := some .corruptStream }) =
      some (some .corruptStream, [0xF02]) := by decide

/-- V-CMD-11. -/
theorem test_getlen : seen (fun t => (t.fault, t.responses)) (exec (.getlen 0) (compressor [])) =
    some (none, [0xF02]) := by decide

/-- V-FLT-2. -/
theorem test_getpos : seen (fun t => t.responses) (exec (.getpos 0) { compressor [] with closed := true }) =
    some [0xF02] := by decide

/-- V-CMD-13. -/
theorem test_setpos : seen (fun t => t.responses) (exec (.setpos 0) (decompressor [])) = some [0xF02] := by
  decide

/-- V-CMD-14, V-FLT-1, V-FLT-10. -/
theorem test_reserved : ∀ i ∈ [Instr.reserved0 0, .reserved9 0, .reservedA 0, .reservedB 0, .reservedC 0,
    .reservedD 0, .reservedE 0, .reservedF 0x41],
    seen (fun t => (t.fault, t.responses)) (exec i { compressor [] with closed := true }) =
      some (none, [0xF05]) := by decide

/-- V-FLT-6: the stored fault comes before the wrong mode; V-FLT-5: closed comes before the stored fault. -/
theorem test_priority :
    (seen (fun t => t.responses)
      (exec (.wrb 0x41) { decompressor [] with fault := some .corruptStream }) = some [0xF01]) ∧
    (seen (fun t => t.responses)
      (exec (.rdb 0) { decompressor [] with closed := true, fault := some .corruptStream }) =
        some [0xF04]) :=
  ⟨by decide, by decide⟩

/-! ## Faults inside a command -/

/-- V-FLT-13: the third bit fails; V-FLT-11, its third word: raised before any write. -/
theorem test_wrb_faults :
    (seen (fun t => ((t.outBits, t.nextKey), (t.pending, t.fault), t.responses))
      (exec (.wrb 0x42) (pendingOn [0x41] [.accept, .accept, .fail, .accept])) =
        some (([false, false], 257), (some [0x42], some .bitIoError), [0xF07])) ∧
    (seen (fun t => ((t.outBits, t.nextKey), (t.pending, t.fault), t.responses))
      (exec (.wrb 0x43) { pendingOn [0x42] (accepts 9) with capacity := some 257, nextKey := 257 }) =
        some (([], 257), (some [0x42], some .capacityExceeded), [0xF06])) :=
  ⟨by decide, by decide⟩

/-- V-FLT-16: the first bit of the sentinel fails. -/
theorem test_close_bitFailure : seen (fun t => (t.outBits, t.closed, t.fault, t.responses))
    (exec (.close 0) (pendingOn [0x41] (accepts 9 ++ [.fail]))) =
      some (bits65, true, some .bitIoError, [0xF07]) := by decide

/-- V-DEC-7: the code's bits are consumed and nothing is learned; and the physical end inside a code
(95_test_vectors.md L2.5), which is no fault. -/
theorem test_rdb_ends :
    (seen (fun t => ((t.readAnswers, t.nextKey), (t.prev, t.fault), t.responses))
      (exec (.rdb 0) (decodedOn [0x41] (source bits257))) =
        some (([], 256), (some [0x41], some .corruptStream), [0xF01])) ∧
    (seen (fun t => (t.ended, t.fault, t.readAnswers, t.responses))
      (exec (.rdb 0) (decodedOn [0x41] (source [true, true, true, true] ++ [.endOfData]))) =
        some (true, none, [], [0x200])) :=
  ⟨by decide, by decide⟩

/-! ## Wire codes -/

/-- V-DEC-1. -/
theorem test_wireEoi : seen (fun t => (t.prev, t.nextKey, t.result))
    (exec (.wireEoi 511 9) (decompressor [])) = some (none, 256, some .eoi) := by decide

/-- V-DEC-2. -/
theorem test_wireFirst : seen (fun t => (t.prev, t.nextKey, t.result))
    (exec (.wireFirst 65 9) (decompressor [])) = some (some [0x41], 256, some (.seq [0x41])) := by decide

/-- V-DEC-3. -/
theorem test_wireFirstCorrupt : seen (fun t => (t.prev, t.fault))
    (exec (.wireFirstCorrupt 256 9) (decompressor [])) = some (none, some .corruptStream) := by decide

/-- V-DEC-4. -/
theorem test_wireKnown : seen (fun t => (t.prev, t.nextKey, fwdRead t 256, t.result))
    (exec (.wireKnown 66 9) (decodedOn [0x41] [])) =
      some (some [0x42], 257, some [0x41, 0x42], some (.seq [0x42])) := by decide

/-- V-DEC-5. -/
theorem test_wireUnseen : seen (fun t => (t.prev, t.nextKey, fwdRead t 256, t.result))
    (exec (.wireUnseen 256 9) (decodedOn [0x41] [])) =
      some (some [0x41, 0x41], 257, some [0x41, 0x41], some (.seq [0x41, 0x41])) := by decide

/-- V-DEC-7. -/
theorem test_wireCorrupt : seen (fun t => (t.prev, t.nextKey, t.fault))
    (exec (.wireCorrupt 257 9) (decodedOn [0x41] [])) = some (some [0x41], 256, some .corruptStream) := by decide

/-- A row outside its class does not run (R74): here the code is known. -/
theorem test_wireFirst_refused : nextOf (exec (.wireFirst 65 9) (decodedOn [0x41] [])) = none := by decide

/-- V-DEC-10, the third code: its key is in `REV` already, and `REV` keeps the smaller code. -/
theorem test_wireKnown_duplicate : seen (fun t => (t.nextKey, fwdRead t 257, revRead t [0x41, 0x41]))
    (exec (.wireKnown 65 9) { decodedOn [0x41] [] with
      fwd := [(256, [0x41, 0x41])], rev := [([0x41, 0x41], 256)], nextKey := 257 }) =
      some (258, some [0x41, 0x41], some 256) := by decide

/-! ## Internal steps -/

/-- V-SK-1, for any seed. -/
theorem test_skFromByte (seed : HashWord) : hashFrom seed [0x41] = seed * 31 + 65 := rfl

/-- V-SK-1 with seed 17, V-SK-2 with seeds 0 and 17. -/
theorem test_skAppend : hashFrom 17 [0x41] = 592 ∧ hashFrom 0 [0x41, 0x42] = 2081 ∧
    hashFrom 17 [0x41, 0x42] = 18418 := by decide

/-- V-SK-6: the accumulator wraps; V-SK-5: equal hashes of unequal keys. -/
theorem test_hash : hashFrom 0 [0xFF, 0xFF, 0xFF, 0xFF, 0xFF, 0xFF, 0xFF] = 1928985951 ∧
    hashFrom 0 [0x00] = hashFrom 0 [0x00, 0x00] := by decide

/-- V-SK-3. -/
theorem test_skFromBytes : skFromBytes [0x41, 0x42] = skAppend (skFromByte 0x41) 0x42 := rfl

/-- V-SK-4, V-SK-5. -/
theorem test_skEq : skEq (skFromBytes [0x41, 0x42]) (skFromBytes [0x42, 0x41]) = false ∧
    skEq ⟨[0x00], 0⟩ ⟨[0x00, 0x00], 0⟩ = false ∧ skEq ⟨[0x41], 0⟩ ⟨[0x41], 1⟩ = true := by decide

/-- V-ENC-4, its entry. -/
theorem test_learn : seen (fun t => (t.nextKey, fwdRead t 256, revRead t [0x41, 0x42], t.result))
    (exec (.learn ⟨[0x41, 0x42], 0⟩) (compressor [])) =
      some (257, some [0x41, 0x42], some 256, some .done) := by decide

/-- The trace of V-ENC-6: the second byte misses. -/
theorem test_encodeStep_miss : seen (fun t => (t.pending, t.nextKey, t.outBits, t.result))
    (exec (.encodeStep 0x42) (pendingOn [0x41] [])) = some (some [0x42], 257, [], some (.code 65)) := by decide

/-- The trace of V-ENC-3: the third byte hits. -/
theorem test_encodeStep_hit : seen (fun t => (t.pending, t.nextKey, t.result))
    (exec (.encodeStep 0x41) { pendingOn [0x41] [] with
      fwd := [(256, [0x41, 0x41])], rev := [([0x41, 0x41], 256)], nextKey := 257 }) =
      some (some [0x41, 0x41], 257, some .noCode) := by decide

/-- V-ENC-2's flush code, and V-ENC-1's empty flush. -/
theorem test_encodeFlush : seen (fun t => (t.pending, t.result)) (exec .encodeFlush (pendingOn [0x41] [])) =
      some (none, some (.code 65)) ∧
    seen (fun t => (t.pending, t.result)) (exec .encodeFlush (compressor [])) = some (none, some .noCode) := by
  decide

/-- V-DEC-6, the unseen code 258. -/
theorem test_decodeStep : seen (fun t => (t.prev, t.nextKey, fwdRead t 258))
    (exec (.decodeStep 258 9) { decodedOn [0x41, 0x42] [] with
      fwd := [(256, [0x41, 0x42]), (257, [0x42, 0x41])], nextKey := 258 }) =
      some (some [0x41, 0x42, 0x41], 259, some [0x41, 0x42, 0x41]) := by decide

/-- V-W-1 to V-W-4. -/
theorem test_bits_low : bits 256 = 9 ∧ bits 511 = 9 ∧ bits 512 = 9 ∧ bits 513 = 10 := by decide

/-- V-W-5 to V-W-9. -/
theorem test_bits_high : bits 1024 = 10 ∧ bits 1025 = 11 ∧ bits 2048 = 11 ∧ bits 2049 = 12 ∧
    bits 4097 = 13 := by decide

/-- V-SER-1. -/
theorem test_emitCode : seen (fun t => (t.outBits, t.responses, t.result))
    (exec (.emitCode 65 9) (compressor (accepts 9))) = some (bits65, [], some .done) := by decide

/-- V-SER-4: the high bit is lost. -/
theorem test_emitCode_overflow : codeBits 512 9 = bitList [0, 0,0,0,0, 0,0,0,0] ∧
    codeBits 258 10 = bitList [0,1, 0,0,0,0, 0,0,1,0] := by decide

/-- V-SER-3. -/
theorem test_emitEoi : seen (fun t => t.outBits) (exec .emitEoi (compressor (accepts 9))) = some bitsEoi := by
  decide

/-- V-SER-7. -/
theorem test_readCode : seen (fun t => (t.readAnswers, t.result))
    (exec (.readCode 9) (decompressor (source (bits65 ++ [true])))) =
      some (source [true], some (.value 65)) := by decide

/-- V-SER-9. -/
theorem test_readCode_physEnd : seen (fun t => t.result)
    (exec (.readCode 9) (decompressor (source [true, true, true, true] ++ [.endOfData]))) =
      some (some .physEnd) := by decide

/-! ## Holding and reset (70_reset_and_hazards.md R280, R291) -/

/-- The primitive accepts four bits and then does not answer. -/
theorem test_hold : seen (fun t => (t.transfer, t.outBits, t.responses))
    (exec (.wrb 0x42) (pendingOn [0x41] (accepts 4))) =
      some (some (.write [false, false, false, false, true] .command), [false, false, true, false], []) := by
  decide

/-- The answers come: the command completes. -/
theorem test_resume : seen (fun t => (t.transfer, t.outBits, t.responses))
    (step { compressor (accepts 5) with
      transfer := some (.write [false, false, false, false, true] .command)
      outBits := [false, false, true, false] }) = some (none, bits65, [0x000]) := by decide

/-- Reset abandons a waiting command without a response. -/
theorem test_reset_abandons : seen (fun t => ((t.mode, t.transfer), (t.nextKey, wireBits t), t.responses))
    (step { pendingOn [0x42] [] with
      transfer := some (.write [true] .command)
      nextKey := 257
      outBits := [true]
      resetInput := some .decompress }) = some ((.decompress, none), (256, [true]), []) := by decide

/-- A run's output counts from reset (R285): what an earlier run wrote and read is no part of it. -/
theorem test_output_since_reset :
    seen (fun t => ((compressOutput t, decompressOutput t), (t.pastBits, t.pastResponses)))
      (step { compressor [] with
        outBits := [true], responses := [0x141], resetInput := some .compress }) =
      some (([], []), ([true], [0x141])) ∧
    seen (fun t => (t.pastResponses, decompressOutput t))
      (step { decodedOn [0x41, 0x42] [] with
        cursor := 1, pastResponses := [0x143], responses := [0x141], commands := [0x200] }) =
      some ([0x143], [0x41, 0x42]) := by decide

/-! ## Listings and packing (30_encoding.md R77, R87, R88, 20_memory.md R60) -/

theorem test_assembleLine : assembleLine ['1', '4', '1', ' ', 'W', 'R', 'B', ' ', '\'', 'A', '\'', ' ', ';', 'x'] =
    some [0x141] := by decide

theorem test_assembleLine_shown : assembleLine ['4', 'F', 'F', ' ', 'f', 'l', 'u', 's', 'h'] = some [0x4FF] ∧
    assembleLine ['1', '4', '2', ' ', 'W', 'R', 'B', ' ', '0', 'x', '4', '1'] = none := by decide

/-- The lines `F41 (reserved)` and `000 (reserved)` of P2 and P4 in 95_test_vectors.md; a mnemonic's word
has no such line, and a comment is no word. -/
theorem test_assembleLine_reserved :
    assembleLine (['F', '4', '1', ' ', ' '] ++ reservedMark ++ [' ', ';', '-']) = some [0xF41] ∧
    assembleLine (['0', '0', '0', ' '] ++ reservedMark) = some [0x000] ∧
    assembleLine (['2', '0', '0', ' '] ++ reservedMark) = none ∧ assembleLine [';', 'x'] = some [] := by decide

theorem test_expand_compress : wordsOf (expand (.compress [0x41, 0x42])) = [0x141, 0x142, 0x300] := by decide

theorem test_expand_others : wordsOf (expand (.wrs [0x41])) = [0x141] ∧
    wordsOf (expand (.rdn 2)) = [0x200, 0x200] := by decide

theorem test_wireCode : wireCodeOf ['2', '5', '6', '/', '9'] = some (256, 9) ∧
    wireCodeOf ['E', 'O', 'I', '/', '1', '0'] = some (1023, 10) := by decide

/-- V-ENC-2's hex stream `20 FF C0`. -/
theorem test_packBytes : packBytes (List.replicate 6 false) (bits65 ++ bitsEoi) = [0x20, 0xFF, 0xC0] ∧
    padLength 18 = 6 ∧ byteBits 0x20 = bitList [0,0,1,0, 0,0,0,0] := by decide

/-! ## The dictionary's canonical form (log 6) -/

theorem test_canonical_orders : (dictInsert 257 [0x42] (dictInsert 256 [0x41, 0x42] (compressor []))).fwd =
      [(256, [0x41, 0x42]), (257, [0x42])] ∧
    (dictInsert 256 [0x42] (dictInsert 257 [0x41, 0x42] (compressor []))).fwd =
      [(256, [0x42]), (257, [0x41, 0x42])] ∧
    (fwdWrite 65 [0x41] (compressor [])).fwd = [] := by decide

/-! ## Witnesses: states and operands that meet the hypotheses of the statements

Each is named after its obligation. Where a statement has several clauses with hypotheses of their own,
each clause has its witness. -/

theorem next_of_isSome {o : Out} (h : (nextOf o).isSome = true) : ∃ t, o = .next t := by
  cases o with
  | next t => exact ⟨t, rfl⟩
  | fault f => cases h
  | refused r => cases h

theorem room_of_unbounded {s : State} (h : s.capacity = none) : HasRoom s := by
  intro n hn
  rw [h] at hn
  cases hn

theorem full_of_bound {s : State} (h : s.capacity = some s.nextKey) : IsFull s := ⟨_, h, Nat.le_refl _⟩

/-! ### States of the invariant -/

/-- The block after reset and one `bits` run by itself. -/
def afterBits (m : Mode) : State := { State.resetIn m with result := some (.width 9) }

theorem fwdRead_afterBits (m : Mode) (c : Nat) :
    fwdRead (afterBits m) c = if c < 256 then some [BitVec.ofNat 8 c] else none := rfl

theorem revRead_afterBits (m : Mode) (k : ByteSeq) : revRead (afterBits m) k = Config.seedKey k := rfl

theorem afterBits_inv (m : Mode) : BlockInv (afterBits m) where
  canonical := by cases m <;> decide
  keyFloor := Nat.le_refl _
  present c := by
    rw [fwdRead_afterBits]
    by_cases h : c < 256 <;> simp [h, afterBits, Config.firstKey]
  seeded c _ := rfl
  entryNonempty c k h := by
    rw [fwdRead_afterBits] at h
    split at h <;> simp at h
    simp [← h]
  revLeast k c := by
    rw [revRead_afterBits]
    constructor
    · intro h
      match k, h with
      | [b], h =>
        simp only [Config.seedKey, Config.seedCode, Option.some.injEq] at h
        subst h
        have hb := b.isLt
        refine ⟨by simp [fwdRead_afterBits]; omega, fun d hd => ?_⟩
        rw [fwdRead_afterBits]
        split
        · intro h
          simp only [Option.some.injEq, List.cons.injEq, and_true] at h
          subst h
          simp at hd; omega
        · simp
    · rintro ⟨h, _⟩
      rw [fwdRead_afterBits] at h
      split at h <;> simp at h
      subst h
      simp [Config.seedKey, Config.seedCode]; omega
  lockstep _ c k h := by
    rw [fwdRead_afterBits] at h
    split at h <;> simp at h
    subst h
    simp [revRead_afterBits, Config.seedKey, Config.seedCode]; omega
  pendingPresent := by simp [afterBits]
  prevNonempty := by simp [afterBits]
  cursorBound := by simp [afterBits]
  compressSide := by simp [afterBits]
  decompressSide := by simp [afterBits]
  faultSticky := by simp [afterBits]
  transferOk := by simp [afterBits]

/-- Compress mode, `PENDING` the byte 0x41. -/
def matching : State := { afterBits .compress with pending := some [0x41] }

theorem matching_inv : BlockInv matching :=
  blockInv_pending (afterBits_inv .compress) rfl _ (by rintro q ⟨⟩; rfl) rfl

/-- Compress mode, one entry learned, `PENDING` the byte 0x41: after the bytes 41 41. -/
def matched : State := { learned [0x41, 0x41] matching with pending := some [0x41] }

theorem matched_inv : BlockInv matched :=
  blockInv_pending (blockInv_learned matching_inv (by simp) (fun _ => rfl) rfl) rfl _
    (by rintro q ⟨⟩; rfl) rfl

/-- Decompress mode, the first code 65 decoded and served. -/
def decoded : State :=
  { afterBits .decompress with
    prev := some [0x41]
    outbuf := [0x41]
    cursor := 1 }

theorem decoded_inv : BlockInv decoded :=
  blockInv_decoder (afterBits_inv .decompress) rfl rfl _ _ _ _ (by rintro q ⟨⟩; simp) (by simp)

/-- The decoder that has decoded the code `matched`'s encoder has emitted. -/
theorem mirrors_matched : Mirrors matched decoded where
  behind := rfl
  agree c hc := by
    have h : c ≠ matching.nextKey := Nat.ne_of_lt hc
    show fwdRead (afterBits .decompress) c = fwdRead (learned [0x41, 0x41] matching) c
    rw [fwdRead_learned _ _ _ matching_inv.canonical, if_neg h]
    rfl
  last := ⟨[0x41], 0x41, [], rfl, rfl, rfl⟩
  sameCapacity := rfl

/-- Compress mode after learning the runs of 2 to `n + 1` bytes of 41. -/
def runs : Nat → State
  | 0 => matching
  | n + 1 => learned (List.replicate (n + 2) 0x41) (runs n)

theorem runs_facts (n : Nat) : BlockInv (runs n) ∧ (runs n).mode = .compress ∧ (runs n).nextKey = 256 + n ∧
    (runs n).transfer = none ∧ (∀ j, n + 2 ≤ j → revRead (runs n) (List.replicate j 0x41) = none) ∧
    (n ≠ 0 → revRead (runs n) (List.replicate (n + 1) 0x41) = some (255 + n)) := by
  induction n with
  | zero =>
    refine ⟨matching_inv, rfl, rfl, rfl, fun j hj => ?_, by simp⟩
    obtain ⟨j, rfl⟩ : ∃ i, j = i + 2 := ⟨j - 2, by omega⟩
    rfl
  | succ n ih =>
    obtain ⟨hi, hm, hk, ht, habs, -⟩ := ih
    have ha := habs (n + 2) (Nat.le_refl _)
    refine ⟨blockInv_learned hi (by simp) (fun _ => ha) ht, hm ▸ learned_mode _ _, ?_, ?_, ?_, ?_⟩
    · rw [runs, learned_nextKey, hk]; omega
    · rw [runs, learned_transfer, ht]
    · intro j hj
      rw [runs, revRead_learned _ _ _ hi.canonical, if_neg, habs j (by omega)]
      rintro ⟨h, -⟩
      have := congrArg List.length h
      simp at this; omega
    · intro _
      rw [runs, revRead_learned _ _ _ hi.canonical, if_pos ⟨rfl, ha⟩, hk]
      congr 1; omega

/-! ### Encoding -/

theorem witness_OpcodeMapDecodes : (0x2 : BitVec 4) ≠ 0x1 := by decide

theorem witness_CommandEncodingRoundTrip : encodeCommand (.wrb 0x41) = some 0x141 := by decide

theorem witness_WireEncodingRoundTrip : wireFields (.wireUnseen 256 9) = some (256, 9) ∧
    wellFormed (.wireUnseen 256 9) = true ∧
    Instr.wireUnseen 256 9 = (wireClass (some [0x41]) 256 256 9).instr 256 9 := by decide

/-! ### The step -/

theorem witness_ResetAtAnyTime :
    { compressor [] with transfer := some (.write [true] .command), resetInput := some .decompress }.resetInput =
      some .decompress := rfl

theorem witness_StepRunsDecodedCommand : ∃ s : State, s.resetInput = none ∧ s.transfer = none ∧
    s.commands = 0x141 :: [0x300] := ⟨compressSetup [0x41] 18, by decide⟩

theorem witness_BlockHoldsWhileItWaits :
    (∃ s : State, s.resetInput = none ∧ s.transfer = none ∧ s.commands = []) ∧
    (∃ s : State, s.resetInput = none ∧ s.transfer = some (.write [true] .command) ∧ s.writeAnswers = []) ∧
    ∃ s : State, s.resetInput = none ∧ s.transfer = some (.read 0 (8 + 1) 9 .command) ∧ s.readAnswers = [] :=
  ⟨⟨compressor [], by decide⟩, ⟨{ compressor [] with transfer := some (.write [true] .command) }, by decide⟩,
    ⟨{ decompressor [] with transfer := some (.read 0 9 9 .command) }, by decide⟩⟩

/-- A state of the outcome, where a test on it holds. -/
theorem next_of_all {o : Out} {p : State → Bool} (h : (nextOf o).any p = true) : ∃ t, o = .next t ∧ p t = true := by
  cases o with
  | next t => exact ⟨t, rfl, h⟩
  | fault f => cases h
  | refused r => cases h

theorem witness_HeldCommandEndsAsUninterrupted :
    (∃ s t, s.resetInput = none ∧ s.transfer = none ∧ exec (.wrb 0x42) s = .next t ∧ t.transfer ≠ none) ∧
    ∃ s t, s.resetInput = none ∧ s.transfer = none ∧ exec (.rdb 0) s = .next t ∧ t.transfer ≠ none := by
  refine ⟨⟨pendingOn [0x41] (accepts 4), ?_⟩, ⟨decompressor (source [true]), ?_⟩⟩
  · obtain ⟨t, h, ht⟩ := next_of_all (o := exec (.wrb 0x42) (pendingOn [0x41] (accepts 4)))
      (p := fun t => t.transfer.isSome) (by decide)
    exact ⟨t, rfl, rfl, h, by rintro e; simp [e] at ht⟩
  · obtain ⟨t, h, ht⟩ := next_of_all (o := exec (.rdb 0) (decompressor (source [true])))
      (p := fun t => t.transfer.isSome) (by decide)
    exact ⟨t, rfl, rfl, h, by rintro e; simp [e] at ht⟩

theorem witness_StepKeepsInvariant : ∃ s t, BlockInv s ∧ step s = .next t ∧ t.pending ≠ s.pending := by
  refine ⟨{ afterBits .compress with commands := [0x141] }, ?_⟩
  obtain ⟨t, h, ht⟩ := next_of_all (o := step { afterBits .compress with commands := [0x141] })
    (p := fun t => t.pending.isSome) (by decide)
  refine ⟨t, blockInv_ports (afterBits_inv .compress) _ _ _ _ _ _ _ _ _ _, h, ?_⟩
  rintro e
  rw [e] at ht
  cases ht

theorem witness_StepNeverStops : BlockInv matched := matched_inv

/-! ### The checks -/

theorem witness_FlushHasNoEffect : Live (compressor []) := by decide

theorem witness_ClosedStreamRefuses : { compressor [] with closed := true }.closed = true := rfl

theorem witness_StoredFaultIsReported : ∃ s : State, s.closed = false ∧ s.fault = some .bitIoError :=
  ⟨{ compressor [] with fault := some .bitIoError }, by decide⟩

theorem witness_WrongModeRefused : (Live (decompressor []) ∧ (decompressor []).mode = .decompress) ∧
    (Live (compressor []) ∧ (compressor []).mode = .compress) := by decide

/-! ### WRB -/

theorem witness_WrbExtendsMatch : Live (compressor []) ∧ (compressor []).mode = .compress ∧
    revRead (compressor []) ((compressor []).pending.getD [] ++ [0x41]) = some 0x41 := by decide

theorem witness_WrbEmitsCode : ∃ s : State, Live s ∧ s.mode = .compress ∧ HasRoom s ∧ s.pending = some [0x41] ∧
    revRead s ([0x41] ++ [0x42]) = none ∧ revRead s [0x41] = some 0x41 ∧
    s.writeAnswers = List.replicate (bits s.nextKey) .accept ++ [.fail] :=
  ⟨pendingOn [0x41] (accepts 9 ++ [.fail]), by decide, rfl, room_of_unbounded rfl, rfl, by decide, by decide,
    by decide⟩

theorem witness_WrbFrame : ∃ s t, Memory.wf s ∧ exec (.wrb 0x42) s = .next t ∧ t.nextKey = s.nextKey + 1 := by
  obtain ⟨t, h, ht⟩ := next_of_all (o := exec (.wrb 0x42) (pendingOn [0x41] (accepts 9)))
    (p := fun t => t.nextKey == 257) (by decide)
  exact ⟨_, t, by decide, h, beq_iff_eq.1 ht⟩

/-! ### RDB -/

theorem witness_RdbServesBuffer : ∃ s : State, Live s ∧ s.mode = .decompress ∧ s.outbuf[s.cursor]? = some 0x42 :=
  ⟨{ decodedOn [0x41, 0x42] [] with cursor := 1 }, by decide⟩

theorem witness_RdbEndsStream :
    (∃ s : State, ReadsCode s ∧ bitsEoi.length = bits (s.nextKey + 1) ∧
      assemble bitsEoi = 2 ^ bits (s.nextKey + 1) - 1 ∧ s.readAnswers = bitsEoi.map .bit ++ []) ∧
    (∃ s : State, ReadsCode s ∧ [true].length < bits (s.nextKey + 1) ∧
      s.readAnswers = [true].map .bit ++ .endOfData :: []) ∧
    ∃ s : State, Live s ∧ s.mode = .decompress ∧ s.outbuf.length ≤ s.cursor ∧ s.ended = true :=
  ⟨⟨decompressor (source bitsEoi), by decide⟩, ⟨decompressor (source [true] ++ [.endOfData]), by decide⟩,
    ⟨{ decodedOn [0x41] [] with ended := true }, by decide⟩⟩

theorem witness_RdbServesFirstCode : ∃ s : State, ReadsCode s ∧ s.prev = none ∧
    bits65.length = bits (s.nextKey + 1) ∧ s.readAnswers = bits65.map .bit ++ [] ∧
    assemble bits65 ≠ 2 ^ bits (s.nextKey + 1) - 1 ∧ assemble bits65 < 256 ∧
    fwdRead s (assemble bits65) = some (0x41 :: []) := ⟨decompressor (source bits65), by decide⟩

theorem witness_RdbServesKnownCode : ∃ s : State, ReadsCode s ∧ HasRoom s ∧ s.prev = some [0x41] ∧
    bits66.length = bits (s.nextKey + 1) ∧ s.readAnswers = bits66.map .bit ++ [] ∧
    assemble bits66 ≠ 2 ^ bits (s.nextKey + 1) - 1 ∧ assemble bits66 < s.nextKey ∧
    fwdRead s (assemble bits66) = some (0x42 :: []) :=
  ⟨decodedOn [0x41] (source bits66), by decide, room_of_unbounded rfl, by decide⟩

theorem witness_RdbServesUnseenCode : ∃ s : State, ReadsCode s ∧ HasRoom s ∧ s.prev = some (0x41 :: []) ∧
    bits256.length = bits (s.nextKey + 1) ∧ s.readAnswers = bits256.map .bit ++ [] ∧
    assemble bits256 ≠ 2 ^ bits (s.nextKey + 1) - 1 ∧ assemble bits256 = s.nextKey :=
  ⟨decodedOn [0x41] (source bits256), by decide, room_of_unbounded rfl, by decide⟩

theorem witness_RdbRaisesCorruptStream :
    (∃ s : State, ReadsCode s ∧ bits256.length = bits (s.nextKey + 1) ∧
      s.readAnswers = bits256.map .bit ++ [] ∧ assemble bits256 ≠ 2 ^ bits (s.nextKey + 1) - 1 ∧
      s.prev = none ∧ 256 ≤ assemble bits256) ∧
    ∃ s : State, ReadsCode s ∧ bits257.length = bits (s.nextKey + 1) ∧
      s.readAnswers = bits257.map .bit ++ [] ∧ assemble bits257 ≠ 2 ^ bits (s.nextKey + 1) - 1 ∧
      s.prev ≠ none ∧ s.nextKey < assemble bits257 :=
  ⟨⟨decompressor (source bits256), by decide⟩, ⟨decodedOn [0x41] (source bits257), by decide⟩⟩

theorem witness_RdbFrame : ∃ s t, Memory.wf s ∧ exec (.rdb 0) s = .next t ∧ t.nextKey = s.nextKey + 1 := by
  obtain ⟨t, h, ht⟩ := next_of_all (o := exec (.rdb 0) (decodedOn [0x41] (source bits256)))
    (p := fun t => t.nextKey == 257) (by decide)
  exact ⟨_, t, by decide, h, beq_iff_eq.1 ht⟩

/-! ### CLOSE -/

theorem witness_CloseFlushesAndEnds :
    (∃ s : State, Live s ∧ s.mode = .compress ∧ s.pending = none ∧
      s.writeAnswers = List.replicate (([] : List Bit).length + bits (s.nextKey - 1)) .accept ++ []) ∧
    ∃ s : State, Live s ∧ s.mode = .compress ∧ s.pending = some [0x41] ∧ revRead s [0x41] = some 0x41 ∧
      s.writeAnswers =
        List.replicate ((codeBits 0x41 (bits (s.nextKey - 1))).length + bits (s.nextKey - 1)) .accept ++ [] :=
  ⟨⟨compressor (accepts 9), by decide⟩, ⟨pendingOn [0x41] (accepts 18), by decide⟩⟩

theorem witness_CloseWritesNothing :
    (∃ s : State, s.closed = false ∧ s.mode = .decompress) ∧
    ∃ s : State, s.closed = false ∧ s.mode = .compress ∧ s.fault ≠ none :=
  ⟨⟨decompressor [], by decide⟩, ⟨{ compressor [] with fault := some .bitIoError }, by decide⟩⟩

theorem witness_CloseFrame : ∃ s t, exec (.close 0) s = .next t ∧ t.outBits ≠ s.outBits := by
  obtain ⟨t, h, ht⟩ := next_of_all (o := exec (.close 0) (compressor (accepts 9)))
    (p := fun t => t.outBits == bitsEoi) (by decide)
  refine ⟨_, t, h, ?_⟩
  rw [beq_iff_eq] at ht
  rw [ht]
  decide

/-! ### Capacity and bit-port failures -/

theorem witness_FullDictionaryRaises_step : ∃ s t, s.capacity = none ∧
    s.fault ≠ some .capacityExceeded ∧ step s = .next t := by
  obtain ⟨t, h⟩ := next_of_isSome (o := step { pendingOn [0x41] (accepts 9) with commands := [0x142] }) (by decide)
  exact ⟨_, t, rfl, by decide, h⟩

theorem witness_FullDictionaryRaises_wrb : ∃ s : State, Live s ∧ IsFull s ∧ s.mode = .compress ∧
    s.pending = some [0x41] ∧ revRead s ([0x41] ++ [0x42]) = none ∧ revRead s [0x41] = some 0x41 :=
  ⟨{ pendingOn [0x41] [] with capacity := some 256 }, by decide, full_of_bound rfl, by decide⟩

theorem witness_FullDictionaryRaises_rdb :
    (∃ s : State, Live s ∧ IsFull s ∧ ReadsCode s ∧ s.prev = some (0x41 :: []) ∧
      bits66.length = bits (s.nextKey + 1) ∧ s.readAnswers = bits66.map .bit ++ [] ∧
      assemble bits66 ≠ 2 ^ bits (s.nextKey + 1) - 1 ∧ assemble bits66 < s.nextKey ∧
      fwdRead s (assemble bits66) = some (0x42 :: [])) ∧
    ∃ s : State, Live s ∧ IsFull s ∧ ReadsCode s ∧ s.prev = some (0x41 :: []) ∧
      bits256.length = bits (s.nextKey + 1) ∧ s.readAnswers = bits256.map .bit ++ [] ∧
      assemble bits256 ≠ 2 ^ bits (s.nextKey + 1) - 1 ∧ assemble bits256 = s.nextKey :=
  ⟨⟨{ decodedOn [0x41] (source bits66) with capacity := some 256 }, by decide, full_of_bound rfl, by decide⟩,
    ⟨{ decodedOn [0x41] (source bits256) with capacity := some 256 }, by decide, full_of_bound rfl, by decide⟩⟩

theorem witness_BitFailureEndsCommand_wrb : ∃ s : State, Live s ∧ s.mode = .compress ∧ HasRoom s ∧
    s.pending = some [0x41] ∧ revRead s ([0x41] ++ [0x42]) = none ∧ revRead s [0x41] = some 0x41 ∧
    8 < bits s.nextKey ∧ s.writeAnswers = List.replicate 8 .accept ++ .fail :: [] :=
  ⟨pendingOn [0x41] (accepts 8 ++ [.fail]), by decide, rfl, room_of_unbounded rfl, by decide⟩

theorem witness_BitFailureEndsCommand_rdb : ∃ s : State, Live s ∧ ReadsCode s ∧
    ([] : List Bit).length < bits (s.nextKey + 1) ∧ s.readAnswers = ([] : List Bit).map .bit ++ .fail :: [] :=
  ⟨decompressor [.fail], by decide⟩

theorem witness_BitFailureEndsCommand_close :
    (∃ s : State, Live s ∧ s.mode = .compress ∧ s.pending = none ∧
      0 < ([] : List Bit).length + bits (s.nextKey - 1) ∧
      s.writeAnswers = List.replicate 0 .accept ++ .fail :: []) ∧
    ∃ s : State, Live s ∧ s.mode = .compress ∧ s.pending = some [0x41] ∧ revRead s [0x41] = some 0x41 ∧
      9 < (codeBits 0x41 (bits (s.nextKey - 1))).length + bits (s.nextKey - 1) ∧
      s.writeAnswers = List.replicate 9 .accept ++ .fail :: [] :=
  ⟨⟨compressor [.fail], by decide⟩, ⟨pendingOn [0x41] (accepts 9 ++ [.fail]), by decide⟩⟩

/-! ### Internal steps -/

theorem witness_KeysDoNotDependOnPath : keyConsistent (skFromBytes [0x41, 0x42]) = true ∧
    keyConsistent (skAppend (skFromByte 0x41) 0x42) = true ∧
    skEq (skFromBytes [0x41, 0x42]) (skAppend (skFromByte 0x41) 0x42) = true := by
  simp [keyConsistent, skFromBytes, skAppend, skFromByte, skEq, Machine.hash, hashFrom]

theorem witness_LearnAddsOneEntry :
    (∃ (s : State) (k : Key), Memory.wf s ∧ k.bytes ≠ [] ∧ HasRoom s) ∧
    ∃ (s : State) (k : Key), Memory.wf s ∧ k.bytes ≠ [] ∧ IsFull s ∧ s.fault = none :=
  ⟨⟨compressor [], ⟨[0x41, 0x42], 0⟩, by decide, by decide, room_of_unbounded rfl⟩,
    ⟨{ compressor [] with capacity := some 256 }, ⟨[0x41, 0x42], 0⟩, by decide, by decide, full_of_bound rfl, rfl⟩⟩

theorem witness_EncoderStepCases :
    revRead (compressor []) ((compressor []).pending.getD [] ++ [0x41]) = some 0x41 ∧
    (HasRoom (pendingOn [0x41] []) ∧ (pendingOn [0x41] []).pending = some [0x41] ∧
      revRead (pendingOn [0x41] []) ([0x41] ++ [0x42]) = none ∧
      revRead (pendingOn [0x41] []) [0x41] = some 0x41) ∧
    (compressor []).pending = none :=
  ⟨by decide, ⟨room_of_unbounded rfl, by decide⟩, rfl⟩

theorem witness_WireCodesThatLearnNothing :
    511 = 2 ^ 9 - 1 ∧
    (255 ≠ 2 ^ 9 - 1 ∧ (decompressor []).prev = none ∧ 255 < 256 ∧ fwdRead (decompressor []) 255 = some [0xFF]) ∧
    (256 ≠ 2 ^ 9 - 1 ∧ (decompressor []).prev = none ∧ 256 ≤ 256 ∧ (decompressor []).fault = none) ∧
    (257 ≠ 2 ^ 9 - 1 ∧ (decodedOn [0x41] []).prev ≠ none ∧ (decodedOn [0x41] []).nextKey < 257 ∧
      (decodedOn [0x41] []).fault = none) := by decide

theorem witness_WireCodesThatLearn :
    (∃ s : State, HasRoom s ∧ 255 ≠ 2 ^ 9 - 1 ∧ s.prev = some [0x41] ∧ 255 < s.nextKey ∧
      fwdRead s 255 = some (0xFF :: [])) ∧
    ∃ s : State, HasRoom s ∧ 256 ≠ 2 ^ 9 - 1 ∧ s.prev = some (0x41 :: []) ∧ 256 = s.nextKey :=
  ⟨⟨decodedOn [0x41] [], room_of_unbounded rfl, by decide⟩, ⟨decodedOn [0x41] [], room_of_unbounded rfl, by decide⟩⟩

theorem witness_DecodeStepRunsItsClass :
    511 = 2 ^ 9 - 1 ∧
    (∃ s : State, BlockInv s ∧ 255 ≠ 2 ^ 9 - 1 ∧ s.prev = none ∧ 255 < 256) ∧
    BlockInv decoded ∧ 256 ≠ 2 ^ 9 - 1 ∧ decoded.prev ≠ none ∧ 256 ≤ decoded.nextKey ∧ HasRoom decoded :=
  ⟨rfl, ⟨afterBits .decompress, afterBits_inv _, by decide⟩, decoded_inv, by decide, by decide, by decide,
    room_of_unbounded rfl⟩

theorem witness_BitsIsLeastWidth : 511 < 512 ∧ 512 ≤ 512 := by decide

theorem witness_EmittedBits :
    (compressor (accepts 9)).writeAnswers = List.replicate 9 .accept ++ [] ∧
    (compressor (accepts 9)).writeAnswers = List.replicate (bits ((compressor []).nextKey - 1)) .accept ++ [] := by
  decide

theorem witness_ReadCodeAssembles :
    (bits65.length = 9 ∧ (decompressor (source bits65)).readAnswers = bits65.map .bit ++ []) ∧
    ([true].length < 9 ∧
      (decompressor (source [true] ++ [.endOfData])).readAnswers = [true].map .bit ++ .endOfData :: []) := by decide

theorem witness_InternalStepFrame :
    (∃ s t, Memory.wf s ∧ exec (.bits 513) s = .next t) ∧
    (∃ s t, Memory.wf s ∧ exec (.learn ⟨[0x41, 0x42], 0⟩) s = .next t) ∧
    (∃ s t, Memory.wf s ∧ exec (.encodeStep 0x42) s = .next t) ∧
    (∃ s t, Memory.wf s ∧ exec .encodeFlush s = .next t) ∧
    (∃ s t, Memory.wf s ∧ exec (.wireEoi 511 9) s = .next t) ∧
    (∃ s t, Memory.wf s ∧ exec (.wireFirst 255 9) s = .next t) ∧
    (∃ s t, Memory.wf s ∧ exec (.wireFirstCorrupt 256 9) s = .next t) ∧
    (∃ s t, Memory.wf s ∧ exec (.wireUnseen 256 9) s = .next t) ∧
    ∃ s t, Memory.wf s ∧ exec .emitEoi s = .next t := by
  obtain ⟨t, h⟩ := next_of_isSome (o := exec (.bits 513) (compressor [])) (by decide)
  obtain ⟨u, hu⟩ := next_of_isSome (o := exec (.encodeStep 0x42) (pendingOn [0x41] [])) (by decide)
  obtain ⟨v, hv⟩ := next_of_isSome (o := exec (.wireUnseen 256 9) (decodedOn [0x41] [])) (by decide)
  obtain ⟨w, hw⟩ := next_of_isSome (o := exec .emitEoi (compressor (accepts 9))) (by decide)
  obtain ⟨l, hl⟩ := next_of_isSome (o := exec (.learn ⟨[0x41, 0x42], 0⟩) (compressor [])) (by decide)
  obtain ⟨e, he⟩ := next_of_isSome (o := exec .encodeFlush (pendingOn [0x41] [])) (by decide)
  obtain ⟨x, hx⟩ := next_of_isSome (o := exec (.wireEoi 511 9) (decompressor [])) (by decide)
  obtain ⟨y, hy⟩ := next_of_isSome (o := exec (.wireFirst 255 9) (decompressor [])) (by decide)
  obtain ⟨z, hz⟩ := next_of_isSome (o := exec (.wireFirstCorrupt 256 9) (decompressor [])) (by decide)
  exact ⟨⟨_, t, by decide, h⟩, ⟨_, l, by decide, hl⟩, ⟨_, u, by decide, hu⟩, ⟨_, e, by decide, he⟩,
    ⟨_, x, by decide, hx⟩, ⟨_, y, by decide, hy⟩, ⟨_, z, by decide, hz⟩, ⟨_, v, by decide, hv⟩,
    ⟨_, w, by decide, hw⟩⟩

/-! ### Rules of the whole machine -/

/-- RDB on a code that is corrupt, in a block whose buffer is served. -/
theorem witness_LifecycleOnlyAdvances :
    (∃ s t, s.resetInput = none ∧ step s = .next t ∧ s.fault = none ∧ t.fault ≠ none) ∧
    ∃ s t, s.resetInput = none ∧ step s = .next t ∧ s.closed = true ∧ s.ended = true ∧
      s.fault = some .bitIoError := by
  obtain ⟨t, h, ht⟩ := next_of_all
    (o := step { decodedOn [0x41] (source bits257) with commands := [0x200] }) (p := fun t => t.fault.isSome)
    (by decide)
  obtain ⟨u, hu⟩ := next_of_isSome (o := step { decompressor [] with
    closed := true, ended := true, fault := some .bitIoError, commands := [0x300] }) (by decide)
  exact ⟨⟨_, t, rfl, h, rfl, by rintro e; simp [e] at ht⟩, ⟨_, u, rfl, hu, rfl, rfl, rfl⟩⟩

theorem witness_DictionaryAndWidthsOnlyGrow : ∃ s t, Memory.wf s ∧ s.resetInput = none ∧ step s = .next t ∧
    t.nextKey = s.nextKey + 1 := by
  obtain ⟨t, h, ht⟩ := next_of_all (o := step { pendingOn [0x41] (accepts 9) with commands := [0x142] })
    (p := fun t => t.nextKey == 257) (by decide)
  exact ⟨_, t, by decide, rfl, h, beq_iff_eq.1 ht⟩

theorem witness_OneDirectionOnThePort :
    (∃ s t, BlockInv s ∧ step s = .next t ∧ s.resetInput = none ∧ s.mode = .compress ∧
      compressOutput t ≠ compressOutput s) ∧
    ∃ s t, BlockInv s ∧ step s = .next t ∧ s.mode = .decompress ∧ t.readAnswers ≠ s.readAnswers := by
  obtain ⟨t, h, ht⟩ := next_of_all
    (o := step { matching with commands := [0x142], writeAnswers := accepts 9 })
    (p := fun t => compressOutput t == bits65) (by decide)
  obtain ⟨u, hu, hu'⟩ := next_of_all
    (o := step { afterBits .decompress with commands := [0x200], readAnswers := source bits65 })
    (p := fun t => t.readAnswers == []) (by decide)
  refine ⟨⟨_, t, blockInv_ports matching_inv _ _ _ _ _ _ _ _ _ _, h, rfl, rfl, ?_⟩,
    ⟨_, u, blockInv_ports (afterBits_inv .decompress) _ _ _ _ _ _ _ _ _ _, hu, rfl, ?_⟩⟩
  · rw [beq_iff_eq] at ht
    rw [ht]
    decide
  · rw [beq_iff_eq] at hu'
    rw [hu']
    decide

theorem witness_StatusWordPacks : ∃ s : State, BlockInv s ∧ s.mode = .compress :=
  ⟨afterBits .compress, afterBits_inv _, rfl⟩

theorem witness_OneResponsePerCommand :
    (∃ s t, BlockInv s ∧ s.resetInput = none ∧ s.commands ≠ [] ∧ step s = .next t) ∧
    ∃ s t, BlockInv s ∧ s.resetInput = none ∧ s.transfer ≠ none ∧ step s = .next t := by
  obtain ⟨t, h⟩ := next_of_isSome (o := step { matching with commands := [0x142] }) (by decide)
  obtain ⟨u, hu⟩ := next_of_isSome (o := step (hold (.write [true] .command) matching)) (by decide)
  exact ⟨⟨_, t, blockInv_ports matching_inv _ _ _ _ _ _ _ _ _ _, rfl, by decide, h⟩,
    ⟨_, u, blockInv_hold matching_inv (.write [true] .command) ⟨rfl, rfl, rfl, by decide⟩, rfl, by decide, hu⟩⟩

theorem witness_ResponsesOfCommands :
    (∃ s t, BlockInv s ∧ t.responses = s.responses ++ [responseWord .ok] ∧ exec (.wrb 0x41) s = .next t) ∧
    (∃ s t, BlockInv s ∧ t.responses = s.responses ++ [responseWord .eod] ∧ exec (.rdb 0) s = .next t) ∧
    (∃ s t, BlockInv s ∧ t.responses = s.responses ++ [responseWord .ok] ∧ exec (.close 0) s = .next t) ∧
    ∃ s t, BlockInv s ∧ t.responses = s.responses ++ [responseWord .ok] ∧ exec (.flush 0) s = .next t := by
  obtain ⟨t, h, ht⟩ := next_of_all (o := exec (.wrb 0x41) (afterBits .compress))
    (p := fun t => t.responses == [0x000]) (by decide)
  obtain ⟨u, hu, hu'⟩ := next_of_all
    (o := exec (.rdb 0) { afterBits .decompress with readAnswers := [.endOfData] })
    (p := fun t => t.responses == [0x200]) (by decide)
  obtain ⟨v, hv, hv'⟩ := next_of_all (o := exec (.close 0) (afterBits .decompress))
    (p := fun t => t.responses == [0x000]) (by decide)
  obtain ⟨w, hw, hw'⟩ := next_of_all (o := exec (.flush 0) (afterBits .compress))
    (p := fun t => t.responses == [0x000]) (by decide)
  rw [beq_iff_eq] at ht hu' hv' hw'
  exact ⟨⟨_, t, afterBits_inv _, ht, h⟩,
    ⟨{ afterBits .decompress with readAnswers := [.endOfData] }, u,
      blockInv_ports (afterBits_inv .decompress) _ _ _ _ _ _ _ _ _ _, hu', hu⟩,
    ⟨_, v, afterBits_inv _, hv', hv⟩, ⟨_, w, afterBits_inv _, hw', hw⟩⟩

theorem witness_UnreadTableIsUnobservable :
    (∃ s t, s.mode = .compress ∧ (∀ acc left w own, s.transfer ≠ some (.read acc left w own)) ∧
      step s = .next t ∧ t.fwd ≠ s.fwd) ∧
    ∃ s t, s.mode = .decompress ∧ step s = .next t ∧ t.rev ≠ s.rev := by
  obtain ⟨t, h, ht⟩ := next_of_all (o := step { pendingOn [0x41] (accepts 9) with commands := [0x142] })
    (p := fun t => t.fwd == [(256, [0x41, 0x42])]) (by decide)
  obtain ⟨u, hu, hu'⟩ := next_of_all
    (o := step { decodedOn [0x41] (source bits66) with commands := [0x200] })
    (p := fun t => t.rev == [([0x41, 0x42], 256)]) (by decide)
  rw [beq_iff_eq] at ht hu'
  refine ⟨⟨_, t, rfl, fun _ _ _ _ => by simp [pendingOn, compressor], h, ?_⟩, ⟨_, u, rfl, hu, ?_⟩⟩
  · rw [ht]; decide
  · rw [hu']; decide

theorem witness_EqualReadsAreEqualTables : ∃ s t : State, Memory.wf s ∧ Memory.wf t ∧
    (∀ c, fwdRead s c = fwdRead t c) ∧ (∀ k, revRead s k = revRead t k) ∧ s ≠ t :=
  ⟨dictInsert 256 [0x41, 0x42] (compressor []), dictInsert 256 [0x41, 0x42] (decompressor []),
    by decide, by decide, fun _ => rfl, fun _ => rfl, by decide⟩

/-! ### The codec -/

theorem witness_EncoderIsGreedyAndLossless : BlockInv matched ∧ matched.mode = .compress ∧ HasRoom matched :=
  ⟨matched_inv, rfl, room_of_unbounded rfl⟩

/-- The run just learned as the pending match: its code is `NEXT_KEY - 1`. -/
theorem runs_pending (n : Nat) (hn : n ≠ 0) : ∃ s p, BlockInv s ∧ s.mode = .compress ∧ s.pending = some p ∧
    revRead s p = some (255 + n) ∧ s.nextKey = 256 + n := by
  obtain ⟨hi, hm, hk, ht, -, hr⟩ := runs_facts n
  exact ⟨{ runs n with pending := some (List.replicate (n + 1) 0x41) }, _,
    blockInv_pending hi hm _ (by rintro q ⟨⟩; rw [hr hn]; rfl) ht, hm, rfl, hr hn, hk⟩

/-- A flush code that overflows, at `NEXT_KEY = 513`, and one that fits. -/
theorem witness_FlushOverflowsExactlyAtPowers :
    (∃ s p, BlockInv s ∧ s.mode = .compress ∧ s.pending = some p ∧ revRead s p = some 512 ∧
      s.nextKey - 1 = 2 ^ 9 ∧ ¬ 512 < 2 ^ bits (s.nextKey - 1)) ∧
    ∃ s p, BlockInv s ∧ s.mode = .compress ∧ s.pending = some p ∧ revRead s p = some 0x41 := by
  obtain ⟨s, p, hi, hm, hp, hr, hk⟩ := runs_pending 257 (by decide)
  refine ⟨⟨s, p, hi, hm, hp, hr, ?_, ?_⟩, ⟨matching, [0x41], matching_inv, rfl, rfl, rfl⟩⟩
  · rw [hk]; decide
  · rw [hk]; decide

theorem witness_UnseenCodeCollidesWithEoi : ∃ s : State, 9 ≤ 9 ∧ s.nextKey = 2 ^ 9 - 1 ∧ ReadsCode s ∧
    bitsEoi.length = 9 ∧ assemble bitsEoi = s.nextKey ∧ s.readAnswers = bitsEoi.map .bit ++ [] :=
  ⟨{ decodedOn [0x41] (source bitsEoi) with nextKey := 511 }, by decide⟩

theorem witness_EoiWidthHazard :
    (∃ s : State, 9 ≤ 9 ∧ s.nextKey = 2 ^ 9 ∧ s.prev ≠ none ∧ ReadsCode s ∧
      s.readAnswers = List.replicate 9 (.bit true) ++ .bit true :: []) ∧
    (∃ s : State, 9 ≤ 9 ∧ s.nextKey = 2 ^ 9 ∧ s.prev ≠ none ∧ ReadsCode s ∧
      s.readAnswers = List.replicate 9 (.bit true) ++ .endOfData :: []) ∧
    ∃ s : State, 9 ≤ 9 ∧ s.nextKey = 2 ^ 9 ∧ s.prev ≠ none ∧ ReadsCode s ∧
      s.readAnswers = List.replicate 9 (.bit true) ++ .bit false :: [] :=
  ⟨⟨{ decodedOn [0x41] (source (bitsEoi ++ [true])) with nextKey := 512 }, by decide⟩,
    ⟨{ decodedOn [0x41] (source bitsEoi ++ [.endOfData]) with nextKey := 512 }, by decide⟩,
    ⟨{ decodedOn [0x41] (source (bitsEoi ++ [false])) with nextKey := 512 }, by decide⟩⟩

theorem witness_DecoderMirrorsEncoder_first : ∃ e e' d c, BlockInv e ∧ BlockInv d ∧ e.mode = .compress ∧
    e.nextKey = 256 ∧ d.nextKey = 256 ∧ d.prev = none ∧ d.capacity = e.capacity ∧
    encodeStep 0x41 e = .val (some c) e' :=
  ⟨matching, matched, afterBits .decompress, 0x41, matching_inv, afterBits_inv _, rfl, rfl, rfl, rfl, rfl,
    encodeStep_emit (s := matching) (p := [0x41]) rfl (by decide) (by decide) (by decide)⟩

theorem witness_DecoderMirrorsEncoder_next : ∃ e e' d c, BlockInv e ∧ BlockInv d ∧ e.mode = .compress ∧
    Mirrors e d ∧ encodeStep 0x42 e = .val (some c) e' ∧ c ≠ eoiPattern (bits (d.nextKey + 1)) :=
  ⟨matched, { learned [0x41, 0x42] matched with pending := some [0x42] }, decoded, 0x41, matched_inv, decoded_inv,
    rfl, mirrors_matched, encodeStep_emit (p := [0x41]) rfl (by decide) (by decide) (by decide), by decide⟩

theorem witness_DecoderMirrorsEncoder_extend : ∃ e e' d, Mirrors e d ∧ encodeStep 0x41 e = .val none e' :=
  ⟨matched, _, decoded, mirrors_matched, encodeStep_extend (c := 256) (by decide)⟩

theorem witness_ShortInputsRoundTrip : [0x41, 0x41, (0x41 : Byte)].length ≤ 256 := by decide

end Sys2Proof.Tests
end

section
/-! SUPPORT. What a command word and a step can do: each command is one effect, and one lemma says
everything a step can do. -/

namespace Sys2Proof.Machine

/-! ## What a command does -/

/-- What a command does once the checks of 44_stream_commands.md R200 have chosen it. -/
inductive Effect where
  /-- Only a response: a refusal, a stored fault, FLUSH, a second CLOSE. -/
  | answer (r : Response)
  /-- CLOSE that writes nothing (R215, R216). -/
  | shut
  | write (b : Byte)
  | read
  /-- CLOSE that flushes and ends the stream (R215). -/
  | finish

/-- The run of an effect. -/
def Effect.run : Effect → State → Out
  | .answer r, s => .next (respond r s)
  | .shut, s => .next (respond .ok { s with closed := true })
  | .write b, s => writeByte b s
  | .read, s => readByte s
  | .finish, s => closeStream { s with closed := true }

/-- Where an effect can be chosen (R200). -/
def Effect.Guard : Effect → State → Prop
  | .answer _, _ => True
  | .shut, s => s.closed = false ∧ ¬ (s.mode = .compress ∧ s.fault = none)
  | .write _, s => Live s ∧ s.mode = .compress
  | .read, s => Live s ∧ s.mode = .decompress
  | .finish, s => Live s ∧ s.mode = .compress

/-- The two states pass the same checks of R200. -/
structure SameChecks (s s' : State) : Prop where
  mode : s'.mode = s.mode
  closed : s'.closed = s.closed
  fault : s'.fault = s.fault

/-- In `s`, and in every state that passes the same checks, `k` is one effect. -/
def HasEffect (k : State → Out) (s : State) : Prop :=
  ∃ e : Effect, e.Guard s ∧ ∀ s', SameChecks s s' → k s' = e.run s'

theorem HasEffect.of_answer {k : State → Out} {s : State} (r : Response)
    (h : ∀ s', k s' = .next (respond r s')) : HasEffect k s :=
  ⟨.answer r, trivial, fun s' _ => h s'⟩

theorem HasEffect.whenLive {k : State → Out} {s : State} (h : Live s → HasEffect k s) :
    HasEffect (fun s' => whenLive s' (k s')) s := by
  cases hc : s.closed with
  | true =>
    exact ⟨.answer (.fault .streamClosed), trivial, fun s' hs => by
      simp [Machine.whenLive, hs.closed, hc, Effect.run, raise, isSticky]⟩
  | false =>
    cases hf : s.fault with
    | some f =>
      exact ⟨.answer (.fault f), trivial, fun s' hs => by
        simp [Machine.whenLive, hs.closed, hc, hs.fault, hf, Effect.run]⟩
    | none =>
      obtain ⟨e, hg, he⟩ := h ⟨hc, hf⟩
      exact ⟨e, hg, fun s' hs =>
        (whenLive_live _ ⟨hs.closed.trans hc, hs.fault.trans hf⟩).trans (he s' hs)⟩

theorem HasEffect.whenMode {k : State → Out} {s : State} (m : Mode) (h : s.mode = m → HasEffect k s) :
    HasEffect (fun s' => whenMode m s' (k s')) s := by
  by_cases hm : s.mode = m
  · obtain ⟨e, hg, he⟩ := h hm
    exact ⟨e, hg, fun s' hs => (if_pos (hs.mode.trans hm)).trans (he s' hs)⟩
  · exact ⟨.answer (.fault .wrongMode), trivial, fun s' hs => by
      simp [Machine.whenMode, hs.mode, hm, Effect.run, raise, isSticky]⟩

theorem hasEffect_execWrb (imm : Byte) (s : State) : HasEffect (execWrb imm) s :=
  HasEffect.whenLive fun hl => HasEffect.whenMode _ fun hm => ⟨.write imm, ⟨hl, hm⟩, fun _ _ => rfl⟩

theorem hasEffect_execRdb (imm : Byte) (s : State) : HasEffect (execRdb imm) s :=
  HasEffect.whenLive fun hl => HasEffect.whenMode _ fun hm => ⟨.read, ⟨hl, hm⟩, fun _ _ => rfl⟩

theorem hasEffect_execFlush (imm : Byte) (s : State) : HasEffect (execFlush imm) s :=
  HasEffect.whenLive fun _ => HasEffect.of_answer .ok fun _ => rfl

theorem hasEffect_execClose (imm : Byte) (s : State) : HasEffect (execClose imm) s := by
  cases hc : s.closed with
  | true =>
    exact ⟨.answer .ok, trivial, fun s' hs => by simp [execClose, hs.closed, hc, Effect.run]⟩
  | false =>
    by_cases h : s.mode = .compress ∧ s.fault = none
    · exact ⟨.finish, ⟨⟨hc, h.2⟩, h.1⟩, fun s' hs => by
        simp [execClose, hs.closed, hc, hs.mode, hs.fault, h, Effect.run]⟩
    · exact ⟨.shut, ⟨hc, h⟩, fun s' hs => by
        simp only [execClose, hs.closed, hc, hs.mode, hs.fault, h, Effect.run]; simp⟩

/-- Every command is one effect, chosen by MODE, CLOSED and FAULT alone (R200). -/
theorem hasEffect_exec {i : Instr} (h : (commandFields i).isSome = true) (s : State) :
    HasEffect (exec i) s := by
  cases i with
  | wrb imm => exact hasEffect_execWrb imm s
  | rdb imm => exact hasEffect_execRdb imm s
  | close imm => exact hasEffect_execClose imm s
  | flush imm => exact hasEffect_execFlush imm s
  | seek _ | getlen _ | getpos _ | setpos _ =>
    exact HasEffect.of_answer (.fault .unsupportedOperation) fun _ => rfl
  | reserved0 _ | reserved9 _ | reservedA _ | reservedB _ | reservedC _ | reservedD _ | reservedE _
  | reservedF _ => exact HasEffect.of_answer (.fault .illegalCommand) fun _ => rfl
  | _ => simp [commandFields] at h

theorem commandFields_decodeWord (x : CommandWord) : (commandFields (decodeWord x)).isSome = true := by
  unfold decodeWord decodeFields
  split <;> rfl

/-- What a command word does in a state. -/
theorem exec_decodeWord_cases (x : CommandWord) (s : State) :
    ∃ e : Effect, e.Guard s ∧ exec (decodeWord x) s = e.run s := by
  obtain ⟨e, hg, he⟩ := hasEffect_exec (commandFields_decodeWord x) s
  exact ⟨e, hg, he s ⟨rfl, rfl, rfl⟩⟩

/-! ## RDB -/

/-- A byte of the buffer (R211). -/
theorem readByte_buffer {s : State} {b : Byte} (h : s.outbuf[s.cursor]? = some b) :
    readByte s = .next (respond (.byte b) { s with cursor := s.cursor + 1 }) := by
  simp [readByte, h]

/-- The buffer exhausted, the end reached (R213). -/
theorem readByte_ended {s : State} (h : s.outbuf[s.cursor]? = none) (he : s.ended = true) :
    readByte s = .next (respond .eod s) := by
  simp [readByte, h, he]

/-- The buffer exhausted, the end not reached (R210). -/
theorem readByte_code {s : State} (h : s.outbuf[s.cursor]? = none) (he : s.ended = false) :
    readByte s = readBits .command (widthDec s.nextKey) (widthDec s.nextKey) 0 s := by
  simp [readByte, h, he]

/-- Everything RDB can do once the prologue has passed. -/
theorem readByte_cases (s : State) :
    (∃ b, s.outbuf[s.cursor]? = some b ∧
      readByte s = .next (respond (.byte b) { s with cursor := s.cursor + 1 })) ∨
    (s.outbuf[s.cursor]? = none ∧ s.ended = true ∧ readByte s = .next (respond .eod s)) ∨
    (s.outbuf[s.cursor]? = none ∧ s.ended = false ∧
      readByte s = readBits .command (widthDec s.nextKey) (widthDec s.nextKey) 0 s) := by
  cases hb : s.outbuf[s.cursor]? with
  | some b => exact .inl ⟨b, rfl, readByte_buffer hb⟩
  | none =>
    cases he : s.ended with
    | true => exact .inr (.inl ⟨rfl, rfl, readByte_ended hb he⟩)
    | false => exact .inr (.inr ⟨rfl, rfl, readByte_code hb he⟩)

/-- The state in which RDB has decoded a key and served its first byte (R210). -/
def served (b : Byte) (q : ByteSeq) (s : State) : State :=
  respond (.byte b) { s with
    prev := some (b :: q)
    outbuf := b :: q
    cursor := 1 }

/-- RDB on a code that learns, once its key is resolved (42_decoder.md R146). -/
theorem serve_learnResolved_cases (p q : ByteSeq) (s : State) :
    (q = [] ∧ settleWith (learnResolved p q s) serveDecoded = .fault .emptyKey) ∨
    (q ≠ [] ∧ dictionaryFull s = true ∧
      settleWith (learnResolved p q s) serveDecoded = .next (raise .capacityExceeded s)) ∨
    (∃ b t, q = b :: t ∧ dictionaryFull s = false ∧
      settleWith (learnResolved p q s) serveDecoded = .next (served b t (learned (p ++ [b]) s))) := by
  rcases learnResolved_cases p q s with ⟨hq, e⟩ | ⟨b, t, rfl, hf, e⟩ | ⟨b, t, rfl, hf, e⟩
  · exact .inl ⟨hq, by rw [e]; rfl⟩
  · exact .inr (.inl ⟨by simp, hf, by rw [e]; rfl⟩)
  · exact .inr (.inr ⟨b, t, rfl, hf, by rw [e]; rfl⟩)

/-- Everything RDB can do with a code that has arrived (R210, R212, 42_decoder.md R149), where it
answers. -/
theorem decodeAndServe_cases {v w : Nat} {s t : State} (h : decodeAndServe v w s = .next t) :
    (v = eoiPattern w ∧ t = endOfStream s) ∨
    (t = raise .corruptStream s) ∨
    (s.prev = none ∧ ∃ b q, fwdRead s v = some (b :: q) ∧ t = served b q s) ∨
    (dictionaryFull s = true ∧ t = raise .capacityExceeded s) ∨
    (dictionaryFull s = false ∧ ∃ p b q, s.prev = some p ∧ t = served b q (learned (p ++ [b]) s)) := by
  unfold decodeAndServe at h
  have resolved {p q : ByteSeq} (hp : s.prev = some p)
      (hr : settleWith (learnResolved p q s) serveDecoded = .next t) :
      (dictionaryFull s = true ∧ t = raise .capacityExceeded s) ∨
      (dictionaryFull s = false ∧ ∃ p b q, s.prev = some p ∧ t = served b q (learned (p ++ [b]) s)) := by
    rcases serve_learnResolved_cases p q s with ⟨-, e⟩ | ⟨-, hf, e⟩ | ⟨b, u, -, hf, e⟩ <;>
      rw [e] at hr <;> cases hr
    · exact .inl ⟨hf, rfl⟩
    · exact .inr ⟨hf, p, b, u, hp, rfl⟩
  rcases decodeStep_cases v w s with ⟨hv, e⟩ | ⟨-, hp, -, e⟩ | ⟨-, -, -, e⟩ | ⟨p, -, hp, -, e⟩ |
    ⟨p, -, hp, -, e⟩ | ⟨p, -, -, -, e⟩ <;> rw [e] at h
  · cases h
    exact .inl ⟨hv, rfl⟩
  · unfold decodeFirst at h
    split at h
    · cases h
    · next q hq =>
      cases q with
      | nil => cases h
      | cons b q => cases h; exact .inr (.inr (.inl ⟨hp, b, q, hq, rfl⟩))
  · cases h
    exact .inr (.inl rfl)
  · unfold decodeKnown at h
    split at h
    · cases h
    · exact .inr (.inr (.inr (resolved hp h)))
  · cases p with
    | nil => cases h
    | cons b q => exact .inr (.inr (.inr (resolved hp h)))
  · cases h
    exact .inr (.inl rfl)

/-! ## The step -/

theorem step_reset {s : State} {m : Mode} (h : s.resetInput = some m) : step s = .next (applyReset m s) := by
  simp [step, h]

theorem step_transfer {s : State} {tr : Transfer} (hr : s.resetInput = none) (h : s.transfer = some tr) :
    step s = resume tr { s with transfer := none } := by
  simp [step, hr, h]

theorem step_idle {s : State} (hr : s.resetInput = none) (ht : s.transfer = none) (h : s.commands = []) :
    step s = .next s := by
  simp [step, hr, ht, takeCommand, h]

theorem step_command {s : State} {x : CommandWord} {rest : List CommandWord} (hr : s.resetInput = none)
    (ht : s.transfer = none) (h : s.commands = x :: rest) :
    step s = exec (decodeWord x) { s with commands := rest } := by
  simp [step, hr, ht, takeCommand, h, runWord]

/-- Everything a step can do (70_reset_and_hazards.md R280, R281, R291, 20_memory.md R65). -/
theorem step_cases (s : State) :
    (∃ m, s.resetInput = some m ∧ step s = .next (applyReset m s)) ∨
    (∃ tr, s.resetInput = none ∧ s.transfer = some tr ∧ step s = resume tr { s with transfer := none }) ∨
    (s.resetInput = none ∧ s.transfer = none ∧ s.commands = [] ∧ step s = .next s) ∨
    (∃ x rest, s.resetInput = none ∧ s.transfer = none ∧ s.commands = x :: rest ∧
      step s = exec (decodeWord x) { s with commands := rest }) := by
  rcases Option.eq_none_or_eq_some s.resetInput with hr | ⟨m, hr⟩
  · rcases Option.eq_none_or_eq_some s.transfer with ht | ⟨tr, ht⟩
    · by_cases hc : s.commands = []
      · exact .inr (.inr (.inl ⟨hr, ht, hc, step_idle hr ht hc⟩))
      · obtain ⟨x, rest, hc⟩ := List.exists_cons_of_ne_nil hc
        exact .inr (.inr (.inr ⟨x, rest, hr, ht, hc, step_command hr ht hc⟩))
    · exact .inr (.inl ⟨tr, hr, ht, step_transfer hr ht⟩)
  · exact .inl ⟨m, hr, step_reset hr⟩

end Sys2Proof.Machine
end

section
/-! SUPPORT. The invariant of the block at reset and along every step (O6, O8, O12). -/

namespace Sys2Proof.Machine

/-! ## The reset state (10_state.md R40) -/

@[simp] theorem fwdRead_resetIn (m : Mode) (c : Nat) : fwdRead (State.resetIn m) c = Config.seedEntry c := rfl

@[simp] theorem revRead_resetIn (m : Mode) (k : ByteSeq) : revRead (State.resetIn m) k = Config.seedKey k := rfl

theorem seedEntry_of_lt {c : Nat} (h : c < 256) : Config.seedEntry c = some [BitVec.ofNat 8 c] := if_pos h

theorem seedEntry_isSome_iff (c : Nat) : (Config.seedEntry c).isSome = true ↔ c < 256 := by
  by_cases h : c < 256 <;> simp [Config.seedEntry, Config.alphabet, h]

theorem seedEntry_toNat (b : Byte) : Config.seedEntry b.toNat = some [b] := by
  simp [seedEntry_of_lt b.isLt]

/-- The two seedings are inverse to each other. -/
theorem seedKey_eq_some_iff (k : ByteSeq) (c : Nat) :
    Config.seedKey k = some c ↔ Config.seedEntry c = some k := by
  constructor
  · intro h
    match k, h with
    | [b], h =>
      cases h
      exact seedEntry_toNat b
  · intro h
    have hc : c < 256 := (seedEntry_isSome_iff c).1 (by simp [h])
    cases (seedEntry_of_lt hc).symm.trans h
    simp only [Config.seedKey, Config.seedCode, BitVec.toNat_ofNat, Nat.mod_eq_of_lt hc]

theorem seedKey_none_of_length {k : ByteSeq} (h : k.length ≠ 1) : Config.seedKey k = none := by
  match k, h with
  | [], _ => rfl
  | _ :: _ :: _, _ => rfl

theorem blockInv_resetIn (m : Mode) : BlockInv (State.resetIn m) where
  canonical := ⟨⟨List.Pairwise.nil, by simp⟩, ⟨List.Pairwise.nil, by simp⟩⟩
  keyFloor := Nat.le_refl _
  present := seedEntry_isSome_iff
  seeded c _ := rfl
  entryNonempty c k h := by
    have := (seedKey_eq_some_iff k c).2 h
    rintro rfl
    cases this
  revLeast k c := by
    refine (seedKey_eq_some_iff k c).trans ⟨fun h => ⟨h, fun d hd hdk => ?_⟩, And.left⟩
    have hc := (seedKey_eq_some_iff k c).2 h
    have hd' := (seedKey_eq_some_iff k d).2 hdk
    have : c = d := Option.some.inj (hc.symm.trans hd')
    omega
  lockstep _ c k := (seedKey_eq_some_iff k c).2
  pendingPresent := by simp
  prevNonempty := by simp
  cursorBound := by simp
  compressSide := by simp
  decompressSide := by simp
  faultSticky := by simp
  transferOk := by simp

/-- Settles O6: the tables at reset read as the seeding, and every other element is a literal. -/
theorem resetValues : Obligations.ResetValues := fun _ =>
  ⟨rfl, rfl, fun _ => rfl, fun _ => rfl, fun _ hk => seedKey_none_of_length hk, rfl, rfl, rfl, rfl, rfl,
    rfl, rfl, rfl⟩

/-- Settles O8: the tables at reset are the two seedings, which are inverse to each other. -/
theorem resetMeetsInvariant : Obligations.ResetMeetsInvariant := blockInv_resetIn

/-! ## The invariant along a step -/

variable {s t : State}

theorem blockInv_applyReset (m : Mode) (s : State) : BlockInv (applyReset m s) :=
  blockInv_ports (blockInv_resetIn m) _ _ _ _ _ _ _ _ _ _

/-- Writing keeps the invariant: what has no answer waits as a transfer of the mode. -/
theorem blockInv_writeBits {bs : List Bit} (h : BlockInv s) (hm : s.mode = .compress) (hf : s.fault = none)
    (ht : s.transfer = none) (e : writeBits .command bs s = .next t) : BlockInv t := by
  have ports (wa ob) : BlockInv { s with writeAnswers := wa, outBits := ob } :=
    blockInv_ports h _ _ _ _ _ _ _ _ _ _
  rcases writeBits_cases .command bs s with ⟨more, -, e'⟩ | ⟨j, more, -, -, e'⟩ | ⟨j, hj, -, e'⟩ <;>
    rw [e'] at e <;> cases e
  · exact blockInv_respond (ports _ _) .ok
  · exact blockInv_raise (ports _ _) .bitIoError (fun _ => nofun) ht
  · exact blockInv_hold (ports _ _) _ ⟨rfl, hm, hf, by simpa [List.drop_eq_nil_iff] using hj⟩

/-- RDB's serving of a decoded key keeps the invariant. -/
theorem blockInv_served (h : BlockInv s) (hm : s.mode = .decompress) (ht : s.transfer = none) (b : Byte)
    (q : ByteSeq) : BlockInv (served b q s) :=
  blockInv_respond (blockInv_decoder h hm ht (some (b :: q)) (b :: q) 1 s.ended (by simp) (by simp)) _

theorem blockInv_decodeAndServe {v w : Nat} (h : BlockInv s) (hm : s.mode = .decompress)
    (ht : s.transfer = none) (e : decodeAndServe v w s = .next t) : BlockInv t := by
  have hne : s.mode ≠ .compress := by simp [hm]
  rcases decodeAndServe_cases e with ⟨-, rfl⟩ | rfl | ⟨-, b, q, -, rfl⟩ | ⟨-, rfl⟩ | ⟨-, p, b, q, -, rfl⟩
  · exact blockInv_respond
      (blockInv_decoder h hm ht s.prev s.outbuf s.cursor true h.prevNonempty h.cursorBound) .eod
  · exact blockInv_raise h _ (fun hc => absurd hc hne) ht
  · exact blockInv_served h hm ht b q
  · exact blockInv_raise h _ (fun hc => absurd hc hne) ht
  · exact blockInv_served (blockInv_learned h (by simp) (fun hc => absurd hc hne) ht) (by simp [hm])
      (by simp [ht]) b q

/-- Reading keeps the invariant: a code that is not whole waits as one the block can have started. -/
theorem blockInv_readBits {acc left w : Nat} (h : BlockInv s) (ht : s.transfer = none)
    (ok : TransferOk s (.read acc left w .command)) (e : readBits .command w left acc s = .next t) :
    BlockInv t := by
  have ports (ra) : BlockInv { s with readAnswers := ra } := blockInv_ports h _ _ _ _ _ _ _ _ _ _
  obtain ⟨-, hm, hf, hc, he, hw, -, hlw, hacc, hcur⟩ := ok
  rcases readBits_cases .command w left acc s with
    ⟨bs, more, -, -, e'⟩ | ⟨bs, more, -, -, e'⟩ | ⟨bs, more, -, -, e'⟩ | ⟨bs, hl, -, e'⟩ <;> rw [e'] at e
  · exact blockInv_decodeAndServe (ports more) hm ht e
  · cases e
    exact blockInv_respond (blockInv_decoder (ports more) hm ht s.prev s.outbuf s.cursor true h.prevNonempty
      h.cursorBound) .eod
  · cases e
    exact blockInv_raise (ports more) .bitIoError (fun _ => nofun) ht
  · cases e
    have hacc' := assembleFrom_lt bs hacc
    rw [show w - left + bs.length = w - (left - bs.length) by omega] at hacc'
    exact blockInv_hold (ports []) _ ⟨rfl, hm, hf, hc, he, hw, by omega, by omega, hacc', hcur⟩

theorem blockInv_writeByte {b : Byte} (h : BlockInv s) (hl : Live s) (hm : s.mode = .compress)
    (ht : s.transfer = none) (e : writeByte b s = .next t) : BlockInv t := by
  rcases writeByte_cases b s with ⟨c, hc, e'⟩ | ⟨-, e'⟩ | ⟨p, c, -, -, -, -, e'⟩ | ⟨p, c, -, hn, -, -, e'⟩ <;>
    rw [e'] at e
  · cases e
    exact blockInv_respond (blockInv_pending h hm _ (by rintro q ⟨⟩; simp [hc]) ht) _
  · cases e
  · cases e
    exact blockInv_raise h _ (fun _ => nofun) ht
  · have hlearn : BlockInv (learned (p ++ [b]) s) := blockInv_learned h (by simp) (fun _ => hn) ht
    have hpend := blockInv_pending hlearn (by simp [hm]) (some [b])
      (by rintro q ⟨⟩; exact revRead_byte hlearn b) (by simp [ht])
    exact blockInv_writeBits hpend (by simp [hm]) (by simp [hl.2]) (by simp [ht]) e

theorem blockInv_closeStream (h : BlockInv s) (hf : s.fault = none) (hm : s.mode = .compress)
    (ht : s.transfer = none) (e : closeStream s = .next t) : BlockInv t := by
  rcases closeStream_cases s with ⟨-, e'⟩ | ⟨p, -, -, e'⟩ | ⟨p, c, -, -, e'⟩ <;> rw [e'] at e
  · exact blockInv_writeBits h hm hf ht e
  · cases e
  · exact blockInv_writeBits (blockInv_pending h hm none nofun ht) hm hf ht e

theorem blockInv_readByte (h : BlockInv s) (hl : Live s) (hm : s.mode = .decompress)
    (ht : s.transfer = none) (e : readByte s = .next t) : BlockInv t := by
  rcases readByte_cases s with ⟨b, hb, e'⟩ | ⟨-, -, e'⟩ | ⟨hb, hend, e'⟩ <;> rw [e'] at e
  · cases e
    obtain ⟨hlt, -⟩ := List.getElem?_eq_some_iff.1 hb
    exact blockInv_respond (blockInv_decoder h hm ht s.prev s.outbuf (s.cursor + 1) s.ended h.prevNonempty hlt) _
  · cases e
    exact blockInv_respond h _
  · have hpos : 0 < widthDec s.nextKey := Nat.lt_of_lt_of_le (by omega) (nine_le_bits (s.nextKey + 1))
    exact blockInv_readBits h ht
      ⟨rfl, hm, hl.2, hl.1, hend, rfl, hpos, Nat.le_refl _, Nat.two_pow_pos _,
        List.getElem?_eq_none_iff.1 hb⟩ e

theorem blockInv_effect {x : Effect} (h : BlockInv s) (hg : x.Guard s) (ht : s.transfer = none)
    (e : x.run s = .next t) : BlockInv t := by
  cases x with
  | answer r => cases e; exact blockInv_respond h r
  | shut => cases e; exact blockInv_respond (blockInv_closed h ht true) .ok
  | write b =>
    obtain ⟨hl, hm⟩ := hg
    exact blockInv_writeByte h hl hm ht e
  | read =>
    obtain ⟨hl, hm⟩ := hg
    exact blockInv_readByte h hl hm ht e
  | finish =>
    obtain ⟨⟨-, hf⟩, hm⟩ := hg
    exact blockInv_closeStream (blockInv_closed h ht true) hf hm ht e

/-- A waiting transfer of the invariant goes on inside it. -/
theorem blockInv_resume {tr : Transfer} (h : BlockInv s) (ht : s.transfer = none) (ok : TransferOk s tr)
    (e : resume tr s = .next t) : BlockInv t := by
  cases tr with
  | write rest own =>
    obtain ⟨rfl, hm, hf, -⟩ := ok
    exact blockInv_writeBits h hm hf ht e
  | read acc left w own =>
    obtain ⟨rfl, -⟩ := id ok
    exact blockInv_readBits h ht ok e

/-- Settles O12: reset meets the invariant, a waiting transfer is one that may go on, and each effect of a
command keeps it. -/
theorem stepKeepsInvariant : Obligations.StepKeepsInvariant := by
  intro s t h e
  rcases step_cases s with ⟨m, -, e'⟩ | ⟨tr, -, htr, e'⟩ | ⟨-, -, -, e'⟩ | ⟨x, rest, -, ht, -, e'⟩ <;>
    rw [e'] at e
  · cases e
    exact blockInv_applyReset m s
  · have ok : TransferOk { s with transfer := none } tr := by cases tr <;> exact h.transferOk _ htr
    exact blockInv_resume (blockInv_noTransfer h) rfl ok e
  · cases e
    exact h
  · obtain ⟨f, hg, e''⟩ := exec_decodeWord_cases x { s with commands := rest }
    rw [e''] at e
    exact blockInv_effect (blockInv_ports h _ _ _ _ _ _ _ _ _ _) hg ht e

end Sys2Proof.Machine
end

section
/-! SUPPORT. What every step without a reset leaves or only advances: the lifecycle, the dictionary and the
widths (O47, O48). -/

namespace Sys2Proof.Machine

variable {s t u : State}

/-! ## What every step without a reset leaves or only advances -/

/-- MODE and the capacity stay; CLOSED, ENDED and a stored fault stay once set (10_state.md R21, R30, R34,
R35). -/
structure Advances (s t : State) : Prop where
  mode : t.mode = s.mode
  capacity : t.capacity = s.capacity
  closed : s.closed = true → t.closed = true
  ended : s.ended = true → t.ended = true
  fault : ∀ f, s.fault = some f → t.fault = some f

theorem Advances.refl (s : State) : Advances s s := ⟨rfl, rfl, id, id, fun _ => id⟩

theorem Advances.trans (h : Advances s t) (h' : Advances t u) : Advances s u :=
  ⟨h'.mode.trans h.mode, h'.capacity.trans h.capacity, h'.closed ∘ h.closed, h'.ended ∘ h.ended,
    fun f hf => h'.fault f (h.fault f hf)⟩

/-- Equal tables and an equal `NEXT_KEY`. -/
structure SameTables (s t : State) : Prop where
  nextKey : t.nextKey = s.nextKey
  fwd : t.fwd = s.fwd
  rev : t.rev = s.rev

theorem SameTables.trans (h : SameTables s t) (h' : SameTables t u) : SameTables s u :=
  ⟨h'.nextKey.trans h.nextKey, h'.fwd.trans h.fwd, h'.rev.trans h.rev⟩

theorem dictInsert_rev (c : Nat) (k : ByteSeq) (s : State) :
    (dictInsert c k s).rev =
      if (revRead s k).isSome then s.rev else writeTable keyRank Config.seedKey k c s.rev := by
  unfold dictInsert
  cases revRead s k <;> rfl

/-- What Learn makes of the tables depends on the tables alone. -/
theorem SameTables.learned (h : SameTables s t) (k : ByteSeq) :
    SameTables (learned k s) (learned k t) where
  nextKey := congrArg (· + 1) h.nextKey
  fwd := by simp [Machine.learned, h.nextKey, h.fwd]
  rev := by
    have hr : revRead t k = revRead s k := by rw [revRead, revRead, h.rev]
    simp [Machine.learned, dictInsert_rev, hr, h.nextKey, h.rev]

/-- The tables are as they were, or have learned one key of at least one byte (20_memory.md R54). -/
def LearnsAtMostOne (s t : State) : Prop := SameTables s t ∨ ∃ k, k ≠ [] ∧ SameTables (learned k s) t

/-- A part of a step that learns nothing. -/
structure Keeps (s t : State) : Prop where
  advances : Advances s t
  tables : SameTables s t

/-- A part of a step that may learn one key. -/
structure Progresses (s t : State) : Prop where
  advances : Advances s t
  tables : LearnsAtMostOne s t

theorem Keeps.trans (h : Keeps s t) (h' : Keeps t u) : Keeps s u :=
  ⟨h.advances.trans h'.advances, h.tables.trans h'.tables⟩

theorem Keeps.progresses (h : Keeps s t) : Progresses s t := ⟨h.advances, .inl h.tables⟩

theorem Keeps.trans_progresses (h : Keeps s t) (h' : Progresses t u) : Progresses s u :=
  ⟨h.advances.trans h'.advances, h'.tables.imp h.tables.trans fun ⟨k, hk, ht⟩ =>
    ⟨k, hk, (h.tables.learned k).trans ht⟩⟩

theorem Progresses.trans_keeps (h : Progresses s t) (h' : Keeps t u) : Progresses s u :=
  ⟨h.advances.trans h'.advances, h.tables.imp (·.trans h'.tables) fun ⟨k, hk, ht⟩ =>
    ⟨k, hk, ht.trans h'.tables⟩⟩

/-- An update of other fields. -/
theorem Keeps.of_eq (hm : t.mode = s.mode := by rfl) (hk : t.capacity = s.capacity := by rfl)
    (hc : s.closed = true → t.closed = true := by exact id) (he : s.ended = true → t.ended = true := by exact id)
    (hf : t.fault = s.fault := by rfl) (hn : t.nextKey = s.nextKey := by rfl) (hw : t.fwd = s.fwd := by rfl)
    (hr : t.rev = s.rev := by rfl) : Keeps s t :=
  ⟨⟨hm, hk, hc, he, fun _ h => hf.trans h⟩, ⟨hn, hw, hr⟩⟩

theorem Keeps.refl (s : State) : Keeps s s := .of_eq

theorem keeps_respond (r : Response) (s : State) : Keeps s (respond r s) := .of_eq

/-- Raising stores a fault where none is stored (log 19). -/
theorem keeps_raise (f : FaultCode) (s : State) : Keeps s (raise f s) where
  advances := by
    refine ⟨by simp, by simp, by simp, by simp, fun g hg => ?_⟩
    rw [raise_fault, hg]
    simp
  tables := ⟨by simp, by simp, by simp⟩

theorem keeps_endOfStream (s : State) : Keeps s (endOfStream s) := .of_eq (he := fun _ => rfl)

theorem progresses_learned {k : ByteSeq} (hk : k ≠ []) (s : State) : Progresses s (learned k s) where
  advances := ⟨by simp, by simp, by simp, by simp, by simp⟩
  tables := .inr ⟨k, hk, ⟨rfl, rfl, rfl⟩⟩

/-! ## The operations -/

theorem writeBits_keeps {own : Owner} {bs : List Bit} (e : writeBits own bs s = .next t) : Keeps s t := by
  rcases writeBits_cases own bs s with ⟨more, -, e'⟩ | ⟨j, more, -, -, e'⟩ | ⟨j, -, -, e'⟩ <;>
    rw [e'] at e <;> cases e
  · cases own <;> exact .of_eq
  · exact Keeps.trans .of_eq (keeps_raise _ _)
  · exact .of_eq

theorem decodeAndServe_progresses {v w : Nat} (e : decodeAndServe v w s = .next t) : Progresses s t := by
  rcases decodeAndServe_cases e with ⟨-, rfl⟩ | rfl | ⟨-, b, q, -, rfl⟩ | ⟨-, rfl⟩ | ⟨-, p, b, q, -, rfl⟩
  · exact (keeps_endOfStream s).progresses
  · exact (keeps_raise _ s).progresses
  · exact Keeps.progresses .of_eq
  · exact (keeps_raise _ s).progresses
  · exact (progresses_learned (k := p ++ [b]) (by simp) s).trans_keeps .of_eq

theorem readBits_progresses {own : Owner} {w left acc : Nat} (e : readBits own w left acc s = .next t) :
    Progresses s t := by
  rcases readBits_cases own w left acc s with
    ⟨bs, more, -, -, e'⟩ | ⟨bs, more, -, -, e'⟩ | ⟨bs, more, -, -, e'⟩ | ⟨bs, -, -, e'⟩ <;> rw [e'] at e
  · cases own with
    | command => exact Keeps.trans_progresses .of_eq (decodeAndServe_progresses e)
    | internalStep => cases e; exact Keeps.progresses .of_eq
  · cases own with
    | command => cases e; exact (Keeps.trans .of_eq (keeps_endOfStream _)).progresses
    | internalStep => cases e; exact Keeps.progresses .of_eq
  · cases e
    exact (Keeps.trans .of_eq (keeps_raise _ _)).progresses
  · cases e
    exact Keeps.progresses .of_eq

theorem writeByte_progresses {b : Byte} (e : writeByte b s = .next t) : Progresses s t := by
  rcases writeByte_cases b s with ⟨c, -, e'⟩ | ⟨-, e'⟩ | ⟨p, c, -, -, -, -, e'⟩ | ⟨p, c, -, -, -, -, e'⟩ <;>
    rw [e'] at e
  · cases e
    exact Keeps.progresses .of_eq
  · cases e
  · cases e
    exact (keeps_raise _ s).progresses
  · exact (progresses_learned (k := p ++ [b]) (by simp) s).trans_keeps (Keeps.trans .of_eq (writeBits_keeps e))

theorem closeStream_keeps (e : closeStream s = .next t) : Keeps s t := by
  rcases closeStream_cases s with ⟨-, e'⟩ | ⟨p, -, -, e'⟩ | ⟨p, c, -, -, e'⟩ <;> rw [e'] at e
  · exact writeBits_keeps e
  · cases e
  · exact Keeps.trans .of_eq (writeBits_keeps e)

theorem readByte_progresses (e : readByte s = .next t) : Progresses s t := by
  rcases readByte_cases s with ⟨b, -, e'⟩ | ⟨-, -, e'⟩ | ⟨-, -, e'⟩ <;> rw [e'] at e
  · cases e
    exact Keeps.progresses .of_eq
  · cases e
    exact (keeps_respond _ s).progresses
  · exact readBits_progresses e

theorem effect_progresses {x : Effect} (e : x.run s = .next t) : Progresses s t := by
  cases x with
  | answer r => cases e; exact (keeps_respond r s).progresses
  | shut => cases e; exact Keeps.progresses (.of_eq (hc := fun _ => rfl))
  | write b => exact writeByte_progresses e
  | read => exact readByte_progresses e
  | finish => exact (Keeps.trans (.of_eq (hc := fun _ => rfl)) (closeStream_keeps e)).progresses

theorem resume_progresses {tr : Transfer} (e : resume tr s = .next t) : Progresses s t := by
  cases tr with
  | write rest own => exact (writeBits_keeps e).progresses
  | read acc left w own => exact readBits_progresses e

/-- Every step without a reset. -/
theorem step_progresses (hr : s.resetInput = none) (e : step s = .next t) : Progresses s t := by
  rcases step_cases s with ⟨m, hm, -⟩ | ⟨tr, -, -, e'⟩ | ⟨-, -, -, e'⟩ | ⟨x, rest, -, -, -, e'⟩
  · simp [hr] at hm
  · rw [e'] at e
    exact Keeps.trans_progresses .of_eq (resume_progresses e)
  · rw [e'] at e
    cases e
    exact (Keeps.refl s).progresses
  · obtain ⟨f, -, e''⟩ := exec_decodeWord_cases x { s with commands := rest }
    rw [e', e''] at e
    exact Keeps.trans_progresses .of_eq (effect_progresses e)

/-! ## What follows for the dictionary and the widths -/

/-- A wider argument has no smaller width (43_width_and_serdes.md R176). -/
theorem bits_mono {m n : Nat} (h : m ≤ n) : bits m ≤ bits n := by
  by_cases hm : m < 512
  · rw [bits_low hm]
    exact nine_le_bits n
  · by_contra hlt
    have h1 := two_pow_lt_of_lt_bits (n := m) (by omega) (Nat.lt_of_not_le hlt)
    have h2 := le_two_pow_bits n
    omega

theorem LearnsAtMostOne.nextKey_le (h : LearnsAtMostOne s t) : s.nextKey ≤ t.nextKey := by
  rcases h with h | ⟨k, -, h⟩
  · exact h.nextKey.ge
  · rw [h.nextKey, learned_nextKey]
    exact Nat.le_succ _

/-- What the dictionary reads after a step's Learn. -/
theorem LearnsAtMostOne.reads (h : LearnsAtMostOne s t) (hw : Memory.wf s) :
    SameDictionary s t ∨ ∃ k, k ≠ [] ∧ GrowsBy k s t :=
  h.imp (fun h => sameDictionary_of_eq s h.nextKey h.fwd h.rev) fun ⟨k, hk, h⟩ =>
    ⟨k, hk, growsBy_learned s hw h.nextKey h.fwd h.rev⟩

/-- Settles O47: no part of a step sets these back, and reset, which does, is not asserted. -/
theorem lifecycleOnlyAdvances : Obligations.LifecycleOnlyAdvances := by
  intro s t hr e
  obtain ⟨hm, hk, hc, he, hf⟩ := (step_progresses hr e).advances
  exact ⟨hm, hk, hc, he, hf⟩

/-- Settles O48: a step learns at most one key, so NEXT_KEY and the widths, which follow it, only grow. -/
theorem dictionaryAndWidthsOnlyGrow : Obligations.DictionaryAndWidthsOnlyGrow := by
  intro s t hw hr e
  have hl := (step_progresses hr e).tables
  have hn := hl.nextKey_le
  exact ⟨hl.reads hw, bits_mono (by omega), bits_mono (by omega)⟩

end Sys2Proof.Machine
end

section
/-! SUPPORT. The fields of STATUS (O60). -/

namespace Sys2Proof.Machine

/-! ## STATUS (10_state.md R36) -/

/-- Every bit of the packing. -/
theorem statusWord_getLsbD (s : State) (i : Nat) :
    (statusWord s).getLsbD i =
      if i < 1 then (modeBit s.mode).getLsbD i
      else if i - 1 < 1 then (BitVec.ofBool s.closed).getLsbD (i - 1)
      else if i - 1 - 1 < 1 then (BitVec.ofBool s.ended).getLsbD (i - 1 - 1)
      else if i - 1 - 1 - 1 < 3 then (faultField s.fault).getLsbD (i - 1 - 1 - 1)
      else (0 : BitVec 2).getLsbD (i - 1 - 1 - 1 - 3) := by
  change BitVec.getLsbD (w := 2 + 3 + 1 + 1 + 1) ((0 : BitVec 2) ++ faultField s.fault ++
    BitVec.ofBool s.ended ++ BitVec.ofBool s.closed ++ modeBit s.mode) i = _
  simp only [BitVec.getLsbD_append]

theorem statusWord_modeBit (s : State) : (statusWord s).getLsbD 0 = true ↔ s.mode = .decompress := by
  rw [statusWord_getLsbD]
  cases s.mode <;> simp [modeBit]

theorem statusWord_closedBit (s : State) : (statusWord s).getLsbD 1 = s.closed := by
  rw [statusWord_getLsbD]
  simp

theorem statusWord_endedBit (s : State) : (statusWord s).getLsbD 2 = s.ended := by
  rw [statusWord_getLsbD]
  simp

theorem statusWord_faultField (s : State) : (statusWord s).extractLsb' 3 3 = faultField s.fault := by
  refine BitVec.eq_of_getLsbD_eq fun i hi => ?_
  rw [BitVec.getLsbD_extractLsb', statusWord_getLsbD]
  simp [hi, show ¬ 3 + i < 1 by omega]

theorem statusWord_zeroField (s : State) : (statusWord s).extractLsb' 6 2 = 0 := by
  refine BitVec.eq_of_getLsbD_eq fun i hi => ?_
  rw [BitVec.getLsbD_extractLsb', statusWord_getLsbD]
  simp [show ¬ 6 + i < 1 by omega]

theorem faultNumber_injective : Function.Injective faultNumber := by
  intro f g
  cases f <;> cases g <;> decide

/-- Distinct faults have distinct numbers, none of them 0 (60_exceptions.md R240). -/
theorem faultField_injective : Function.Injective faultField := by
  rintro (_ | f) (_ | g) h
  · rfl
  · cases g <;> cases h
  · cases f <;> cases h
  · rw [faultNumber_injective h]

theorem faultField_mem_of_sticky {f : Option FaultCode} (h : ∀ g, f = some g → isSticky g = true) :
    faultField f ∈ [0, 1, 6, 7] := by
  cases f with
  | none => decide
  | some g =>
    have hs := h g rfl
    cases g with
    | corruptStream | capacityExceeded | bitIoError => decide
    | _ => cases hs

/-- Settles O60: each field of STATUS is read back, and the invariant makes the values legal. -/
theorem statusWordPacks : Obligations.StatusWordPacks := by
  intro s h
  have field (f : Option FaultCode) : faultField s.fault = faultField f ↔ s.fault = f :=
    faultField_injective.eq_iff
  rw [statusWord_faultField, statusWord_closedBit, statusWord_endedBit]
  refine ⟨statusWord_modeBit s, Iff.rfl, Iff.rfl, fun hm => ?_, field none, field (some .corruptStream),
    field (some .capacityExceeded), field (some .bitIoError), faultField_mem_of_sticky h.faultSticky,
    statusWord_zeroField s⟩
  obtain ⟨-, -, -, he, -⟩ := h.compressSide hm
  exact he

end Sys2Proof.Machine
end

section
/-! SUPPORT. The table a mode does not read changes nothing but itself (O52). -/

namespace Sys2Proof.Machine

variable {s t : State}

/-! ## The operations where both tables are replaced

The bit port sees neither table. -/

/-- The state with other tables. -/
def withTables (f : List (Nat × ByteSeq)) (r : List (ByteSeq × Nat)) (s : State) : State :=
  { s with fwd := f, rev := r }

/-- The state with another FWD. -/
def withFwd (f : List (Nat × ByteSeq)) (s : State) : State := { s with fwd := f }

/-- The state with another REV. -/
def withRev (r : List (ByteSeq × Nat)) (s : State) : State := { s with rev := r }

theorem raise_withTables (x : FaultCode) (f : List (Nat × ByteSeq)) (r : List (ByteSeq × Nat)) (s : State) :
    raise x (withTables f r s) = withTables f r (raise x s) := by
  cases hs : isSticky x <;> cases hf : s.fault <;> simp [raise, storeFault, respond, withTables, hs, hf]

theorem writeBits_withTables {own : Owner} {bs : List Bit} (f : List (Nat × ByteSeq))
    (r : List (ByteSeq × Nat)) (e : writeBits own bs s = .next t) :
    writeBits own bs (withTables f r s) = .next (withTables f r t) := by
  rcases writeBits_cases own bs s with ⟨more, h, e'⟩ | ⟨j, more, hj, h, e'⟩ | ⟨j, hj, h, e'⟩ <;>
    rw [e'] at e <;> cases e
  · rw [writeBits, pushBits_done bs (withTables f r s) more h]
    cases own <;> rfl
  · rw [writeBits, pushBits_failed bs (withTables f r s) j more hj h]
    exact congrArg Host.Outcome.next
      (raise_withTables _ f r { s with writeAnswers := more, outBits := s.outBits ++ bs.take j })
  · rw [writeBits, pushBits_waits bs (withTables f r s) j hj h]
    rfl

/-! ## FWD in compress mode -/

theorem learned_replaceFwd (k : ByteSeq) (f : List (Nat × ByteSeq)) (s : State) :
    ∃ g, learned k (withFwd f s) = withFwd g (learned k s) := by
  have hr : revRead (withFwd f s) k = revRead s k := rfl
  refine ⟨(learned k (withFwd f s)).fwd, ?_⟩
  unfold learned dictInsert
  rw [hr]
  cases revRead s k <;> rfl

theorem writeBits_replaceFwd {own : Owner} {bs : List Bit} (f : List (Nat × ByteSeq))
    (e : writeBits own bs s = .next t) :
    ∃ g, writeBits own bs (withFwd f s) = .next (withFwd g t) := by
  have hr : t.rev = s.rev := (writeBits_keeps e).tables.rev
  exact ⟨f, (writeBits_withTables f s.rev e).trans (by rw [← hr]; rfl)⟩

theorem raise_replaceFwd (x : FaultCode) (f : List (Nat × ByteSeq)) (s : State) :
    raise x (withFwd f s) = withFwd f (raise x s) :=
  (raise_withTables x f s.rev s).trans (by rw [← raise_rev s x]; rfl)

theorem writeByte_replaceFwd {b : Byte} (f : List (Nat × ByteSeq)) (e : writeByte b s = .next t) :
    ∃ g, writeByte b (withFwd f s) = .next (withFwd g t) := by
  rcases writeByte_cases b s with ⟨c, h, e'⟩ | ⟨-, e'⟩ | ⟨p, c, hp, h, hc, hf, e'⟩ |
    ⟨p, c, hp, h, hc, hf, e'⟩ <;> rw [e'] at e
  · cases e
    rw [writeByte, encodeStep_extend (s := withFwd f s) h]
    exact ⟨f, rfl⟩
  · cases e
  · cases e
    rw [writeByte, encodeStep_full (s := withFwd f s) hp h hc hf]
    exact ⟨f, congrArg Host.Outcome.next (raise_replaceFwd _ f s)⟩
  · obtain ⟨g, hg⟩ := learned_replaceFwd (p ++ [b]) f s
    rw [writeByte, encodeStep_emit (s := withFwd f s) hp h hc hf, hg]
    exact writeBits_replaceFwd g e

theorem closeStream_replaceFwd (f : List (Nat × ByteSeq)) (e : closeStream s = .next t) :
    ∃ g, closeStream (withFwd f s) = .next (withFwd g t) := by
  rcases closeStream_cases s with ⟨hp, e'⟩ | ⟨p, -, -, e'⟩ | ⟨p, c, hp, hc, e'⟩ <;> rw [e'] at e
  · rw [closeStream, encodeFlush_noCode (s := withFwd f s) hp]
    exact writeBits_replaceFwd f e
  · cases e
  · rw [closeStream, encodeFlush_code (s := withFwd f s) hp hc]
    exact writeBits_replaceFwd f e

theorem effect_replaceFwd {x : Effect} (f : List (Nat × ByteSeq)) (hm : s.mode = .compress) (hg : x.Guard s)
    (e : x.run s = .next t) : ∃ g, x.run (withFwd f s) = .next (withFwd g t) := by
  cases x with
  | answer r => cases e; exact ⟨f, rfl⟩
  | shut => cases e; exact ⟨f, rfl⟩
  | write b => exact writeByte_replaceFwd f e
  | read => simp [Effect.Guard, hm] at hg
  | finish => exact closeStream_replaceFwd f e

/-! ## REV in decompress mode -/

theorem learned_replaceRev (k : ByteSeq) (r : List (ByteSeq × Nat)) (s : State) :
    ∃ g, learned k (withRev r s) = withRev g (learned k s) := by
  refine ⟨(learned k (withRev r s)).rev, ?_⟩
  unfold learned dictInsert
  cases revRead s k <;> cases revRead (withRev r s) k <;> rfl

theorem writeBits_replaceRev {own : Owner} {bs : List Bit} (r : List (ByteSeq × Nat))
    (e : writeBits own bs s = .next t) :
    ∃ g, writeBits own bs (withRev r s) = .next (withRev g t) := by
  have hf : t.fwd = s.fwd := (writeBits_keeps e).tables.fwd
  exact ⟨r, (writeBits_withTables s.fwd r e).trans (by rw [← hf]; rfl)⟩

theorem raise_replaceRev (x : FaultCode) (r : List (ByteSeq × Nat)) (s : State) :
    raise x (withRev r s) = withRev r (raise x s) :=
  (raise_withTables x s.fwd r s).trans (by rw [← raise_fwd s x]; rfl)

theorem serve_learnResolved_replaceRev {p q : ByteSeq} (r : List (ByteSeq × Nat))
    (e : settleWith (learnResolved p q s) serveDecoded = .next t) :
    ∃ g, settleWith (learnResolved p q (withRev r s)) serveDecoded = .next (withRev g t) := by
  cases q with
  | nil => cases e
  | cons b q =>
    cases hf : dictionaryFull s with
    | true =>
      rw [learnResolved_full hf] at e
      cases e
      rw [learnResolved_full (s := withRev r s) hf]
      exact ⟨r, congrArg Host.Outcome.next (raise_replaceRev _ r s)⟩
    | false =>
      obtain ⟨g, hg⟩ := learned_replaceRev (p ++ [b]) r s
      rw [learnResolved_val hf] at e
      cases e
      rw [learnResolved_val (s := withRev r s) hf, hg]
      exact ⟨g, rfl⟩

theorem serve_decodeFirst_replaceRev {v : Nat} (r : List (ByteSeq × Nat))
    (e : settleWith (decodeFirst v s) serveDecoded = .next t) :
    ∃ g, settleWith (decodeFirst v (withRev r s)) serveDecoded = .next (withRev g t) := by
  have hread : fwdRead (withRev r s) v = fwdRead s v := rfl
  unfold decodeFirst at e ⊢
  rw [hread]
  generalize fwdRead s v = x at e ⊢
  rcases x with _ | _ | ⟨b, q⟩ <;> cases e
  exact ⟨r, rfl⟩

theorem serve_decodeKnown_replaceRev {v : Nat} {p : ByteSeq} (r : List (ByteSeq × Nat))
    (e : settleWith (decodeKnown v p s) serveDecoded = .next t) :
    ∃ g, settleWith (decodeKnown v p (withRev r s)) serveDecoded = .next (withRev g t) := by
  have hread : fwdRead (withRev r s) v = fwdRead s v := rfl
  unfold decodeKnown at e ⊢
  rw [hread]
  generalize fwdRead s v = x at e ⊢
  cases x with
  | none => cases e
  | some q => exact serve_learnResolved_replaceRev r e

theorem serve_decodeUnseen_replaceRev {p : ByteSeq} (r : List (ByteSeq × Nat))
    (e : settleWith (decodeUnseen p s) serveDecoded = .next t) :
    ∃ g, settleWith (decodeUnseen p (withRev r s)) serveDecoded = .next (withRev g t) := by
  cases p with
  | nil => cases e
  | cons b p => exact serve_learnResolved_replaceRev r e

theorem withPrev_some {p : ByteSeq} (h : s.prev = some p) (k : ByteSeq → Res (Option ByteSeq)) :
    withPrev s k = k p := by simp [withPrev, h]

/-- A class that reads `PREV` (30_encoding.md R74), once its work on that `PREV` is known. -/
theorem serve_withPrev_replaceRev {k : ByteSeq → State → Res (Option ByteSeq)} (r : List (ByteSeq × Nat))
    (hk : ∀ {p}, settleWith (k p s) serveDecoded = .next t →
      ∃ g, settleWith (k p (withRev r s)) serveDecoded = .next (withRev g t))
    (e : settleWith (withPrev s fun p => k p s) serveDecoded = .next t) :
    ∃ g, settleWith (withPrev (withRev r s) fun p => k p (withRev r s)) serveDecoded =
      .next (withRev g t) := by
  cases hp : s.prev with
  | none => simp [withPrev, hp] at e
  | some p =>
    rw [withPrev_some hp] at e
    rw [withPrev_some (s := withRev r s) hp]
    exact hk e

/-- What RDB does with a code of each class (30_encoding.md R74). -/
theorem serve_decodeClass_replaceRev (c : WireClass) {v : Nat} (r : List (ByteSeq × Nat))
    (e : settleWith (decodeClass c v s) serveDecoded = .next t) :
    ∃ g, settleWith (decodeClass c v (withRev r s)) serveDecoded = .next (withRev g t) := by
  cases c with
  | eoi => cases e; exact ⟨r, rfl⟩
  | firstCorrupt | corrupt => cases e; exact ⟨r, congrArg Host.Outcome.next (raise_replaceRev _ r s)⟩
  | first => exact serve_decodeFirst_replaceRev r e
  | known => exact serve_withPrev_replaceRev (k := decodeKnown v) r (serve_decodeKnown_replaceRev r) e
  | unseen => exact serve_withPrev_replaceRev (k := decodeUnseen) r (serve_decodeUnseen_replaceRev r) e

theorem decodeAndServe_replaceRev {v w : Nat} (r : List (ByteSeq × Nat)) (e : decodeAndServe v w s = .next t) :
    ∃ g, decodeAndServe v w (withRev r s) = .next (withRev g t) :=
  serve_decodeClass_replaceRev (classOf s v w) r e

theorem readBits_replaceRev {own : Owner} {w left acc : Nat} (r : List (ByteSeq × Nat))
    (e : readBits own w left acc s = .next t) :
    ∃ g, readBits own w left acc (withRev r s) = .next (withRev g t) := by
  rcases readBits_cases own w left acc s with ⟨bs, more, rfl, h, e'⟩ | ⟨bs, more, hl, h, e'⟩ |
    ⟨bs, more, hl, h, e'⟩ | ⟨bs, hl, h, e'⟩ <;> rw [e'] at e
  · rw [readBits, pullBits_value bs acc (withRev r s) more h]
    cases own with
    | command => exact decodeAndServe_replaceRev r e
    | internalStep => cases e; exact ⟨r, rfl⟩
  · rw [readBits, pullBits_physEnd bs left acc (withRev r s) more hl h]
    cases own <;> cases e <;> exact ⟨r, rfl⟩
  · cases e
    rw [readBits, pullBits_failed bs left acc (withRev r s) more hl h]
    exact ⟨r, congrArg Host.Outcome.next (raise_replaceRev _ r { s with readAnswers := more })⟩
  · cases e
    rw [readBits, pullBits_waits bs left acc (withRev r s) hl h]
    exact ⟨r, rfl⟩

theorem readByte_replaceRev (r : List (ByteSeq × Nat)) (e : readByte s = .next t) :
    ∃ g, readByte (withRev r s) = .next (withRev g t) := by
  rcases readByte_cases s with ⟨b, hb, e'⟩ | ⟨hb, he, e'⟩ | ⟨hb, he, e'⟩ <;> rw [e'] at e
  · cases e
    exact ⟨r, readByte_buffer (s := withRev r s) hb⟩
  · cases e
    exact ⟨r, readByte_ended (s := withRev r s) hb he⟩
  · rw [readByte_code (s := withRev r s) hb he]
    exact readBits_replaceRev r e

theorem effect_replaceRev {x : Effect} (r : List (ByteSeq × Nat)) (hm : s.mode = .decompress)
    (hg : x.Guard s) (e : x.run s = .next t) :
    ∃ g, x.run (withRev r s) = .next (withRev g t) := by
  cases x with
  | answer a => cases e; exact ⟨r, rfl⟩
  | shut => cases e; exact ⟨r, rfl⟩
  | read => exact readByte_replaceRev r e
  | write _ | finish => simp [Effect.Guard, hm] at hg

theorem resume_replaceRev {tr : Transfer} (r : List (ByteSeq × Nat)) (e : resume tr s = .next t) :
    ∃ g, resume tr (withRev r s) = .next (withRev g t) := by
  cases tr with
  | write rest own => exact writeBits_replaceRev r e
  | read acc left w own => exact readBits_replaceRev r e

/-! ## The step -/

theorem resume_replaceFwd {tr : Transfer} (f : List (Nat × ByteSeq))
    (hread : ∀ acc left w own, tr ≠ .read acc left w own) (e : resume tr s = .next t) :
    ∃ g, resume tr (withFwd f s) = .next (withFwd g t) := by
  cases tr with
  | write rest own => exact writeBits_replaceFwd f e
  | read acc left w own => exact absurd rfl (hread acc left w own)

theorem exec_decodeWord_replaceFwd {x : CommandWord} (f : List (Nat × ByteSeq)) (hm : s.mode = .compress)
    (e : exec (decodeWord x) s = .next t) :
    ∃ g, exec (decodeWord x) (withFwd f s) = .next (withFwd g t) := by
  obtain ⟨a, hg, ha⟩ := hasEffect_exec (commandFields_decodeWord x) s
  rw [ha s ⟨rfl, rfl, rfl⟩] at e
  rw [ha (withFwd f s) ⟨rfl, rfl, rfl⟩]
  exact effect_replaceFwd f hm hg e

theorem exec_decodeWord_replaceRev {x : CommandWord} (r : List (ByteSeq × Nat)) (hm : s.mode = .decompress)
    (e : exec (decodeWord x) s = .next t) :
    ∃ g, exec (decodeWord x) (withRev r s) = .next (withRev g t) := by
  obtain ⟨a, hg, ha⟩ := hasEffect_exec (commandFields_decodeWord x) s
  rw [ha s ⟨rfl, rfl, rfl⟩] at e
  rw [ha (withRev r s) ⟨rfl, rfl, rfl⟩]
  exact effect_replaceRev r hm hg e

theorem step_replaceFwd (f : List (Nat × ByteSeq)) (hm : s.mode = .compress)
    (hread : ∀ acc left w own, s.transfer ≠ some (.read acc left w own)) (e : step s = .next t) :
    ∃ g, step (withFwd f s) = .next (withFwd g t) := by
  rcases step_cases s with ⟨m, hr, e'⟩ | ⟨tr, hr, ht, e'⟩ | ⟨hr, ht, hc, e'⟩ | ⟨x, rest, hr, ht, hc, e'⟩ <;>
    rw [e'] at e
  · cases e
    exact ⟨[], step_reset (s := withFwd f s) hr⟩
  · rw [step_transfer (s := withFwd f s) hr ht]
    exact resume_replaceFwd f (fun acc left w own h => hread acc left w own (h ▸ ht)) e
  · cases e
    exact ⟨f, step_idle (s := withFwd f s) hr ht hc⟩
  · rw [step_command (s := withFwd f s) hr ht hc]
    exact exec_decodeWord_replaceFwd (s := { s with commands := rest }) f hm e

theorem step_replaceRev (r : List (ByteSeq × Nat)) (hm : s.mode = .decompress) (e : step s = .next t) :
    ∃ g, step (withRev r s) = .next (withRev g t) := by
  rcases step_cases s with ⟨m, hr, e'⟩ | ⟨tr, hr, ht, e'⟩ | ⟨hr, ht, hc, e'⟩ | ⟨x, rest, hr, ht, hc, e'⟩ <;>
    rw [e'] at e
  · cases e
    exact ⟨[], step_reset (s := withRev r s) hr⟩
  · rw [step_transfer (s := withRev r s) hr ht]
    exact resume_replaceRev r e
  · cases e
    exact ⟨r, step_idle (s := withRev r s) hr ht hc⟩
  · rw [step_command (s := withRev r s) hr ht hc]
    exact exec_decodeWord_replaceRev (s := { s with commands := rest }) r hm e

/-- Settles O52: the encoder reads REV alone and the decoder FWD alone, and the port reads neither. -/
theorem unreadTableIsUnobservable : Obligations.UnreadTableIsUnobservable :=
  ⟨fun _ _ f hm hread e => step_replaceFwd f hm hread e, fun _ _ r hm e => step_replaceRev r hm e⟩

end Sys2Proof.Machine
end

section
/-! SUPPORT. The dictionary's tables and Learn (O38, O53), and the command that a word decodes to (O9). -/

namespace Sys2Proof.Machine

variable {s t : State}

/-! ## Command words -/

/-- A command is well formed whatever its `IMM8` (30_encoding.md R83). -/
theorem wellFormed_of_command {i : Instr} (h : (commandFields i).isSome = true) : wellFormed i = true := by
  cases i with
  | wrb _ | rdb _ | close _ | flush _ | seek _ | getlen _ | getpos _ | setpos _ => rfl
  | reserved0 _ | reserved9 _ | reservedA _ | reservedB _ | reservedC _ | reservedD _ | reservedE _
  | reservedF _ => rfl
  | _ => simp [commandFields] at h

/-- Settles O9: every word decodes to a command, and the step takes the word off the port first. -/
theorem stepRunsDecodedCommand : Obligations.StepRunsDecodedCommand := fun _ x _ hr ht hc =>
  ⟨wellFormed_of_command (commandFields_decodeWord x), step_command hr ht hc⟩

/-! ## Canonical tables -/

/-- The entries of a canonical table are what it reads beside the seeding (log 6). -/
theorem mem_iff_readTable {κ β : Type} [DecidableEq κ] [DecidableEq β] {rank : κ → Nat}
    {seed : κ → Option β} {l : List (κ × β)} (h : tableWf rank seed l) (k : κ) (v : β) :
    (k, v) ∈ l ↔ readTable seed l k = some v ∧ seed k ≠ some v := by
  obtain ⟨hrising, hnew⟩ := h
  constructor
  · intro hmem
    exact ⟨by simp [readTable, findEntry_of_mem hrising hmem], hnew _ hmem⟩
  · rintro ⟨hread, hseed⟩
    unfold readTable at hread
    split at hread
    · next hfind => exact findEntry_mem (hfind.trans hread)
    · exact absurd hread hseed

/-- Canonical tables that read alike have the same entries, in the one rising order. -/
theorem tableWf_ext {κ β : Type} [DecidableEq κ] [DecidableEq β] {rank : κ → Nat}
    {seed : κ → Option β} {l m : List (κ × β)} (hl : tableWf rank seed l) (hm : tableWf rank seed m)
    (h : ∀ k, readTable seed l k = readTable seed m k) : l = m := by
  have irreflexive : Std.Irrefl fun a b : κ × β => rank a.1 < rank b.1 := ⟨fun _ => Nat.lt_irrefl _⟩
  have asymmetric : Std.Asymm fun a b : κ × β => rank a.1 < rank b.1 := ⟨fun _ _ => Nat.lt_asymm⟩
  refine hl.1.eq_of_mem_iff hm.1 fun e => ?_
  rw [mem_iff_readTable hl, mem_iff_readTable hm, h]

/-- Settles O53: a canonical table is determined by its reads. -/
theorem equalReadsAreEqualTables : Obligations.EqualReadsAreEqualTables := fun _ _ hs ht hf hr =>
  ⟨tableWf_ext hs.1 ht.1 hf, tableWf_ext hs.2 ht.2 hr⟩

/-! ## Learn -/

/-- Learn changes the tables and NEXT_KEY alone (20_memory.md R54). -/
theorem learned_eq (k : ByteSeq) (s : State) :
    learned k s = { s with fwd := (learned k s).fwd, rev := (learned k s).rev, nextKey := s.nextKey + 1 } := by
  unfold learned dictInsert
  cases revRead s k <;> rfl

/-- Raising changes FAULT and the responses alone (60_exceptions.md R252). -/
theorem raise_eq (f : FaultCode) (s : State) :
    raise f s = { s with fault := (raise f s).fault, responses := (raise f s).responses } := by
  unfold raise storeFault
  cases isSticky f <;> cases hf : s.fault <;> simp [respond, hf]

/-- A sticky fault raised where none is stored. -/
theorem raise_of_none {f : FaultCode} (h : isSticky f = true) (hf : s.fault = none) :
    raise f s = { s with fault := some f, responses := s.responses ++ [responseWord (.fault f)] } := by
  rw [raise_sticky s h, storeFault_of_none s f hf]
  rfl

theorem exec_learn_room {k : Key} (h : k.bytes ≠ []) (hroom : dictionaryFull s = false) :
    exec (.learn k) s = .next (giveResult .done (learned k.bytes s)) := by
  simp [exec, execLearn, learn_eq_val s h hroom]

theorem exec_learn_full {k : Key} (h : k.bytes ≠ []) (hfull : dictionaryFull s = true) :
    exec (.learn k) s = .next (raise .capacityExceeded s) := by
  simp [exec, execLearn, learn_eq_raised s h hfull]

/-- Settles O38: with room Learn is the insertion under NEXT_KEY, whose reads are known, and in a full
dictionary only the fault. -/
theorem learnAddsOneEntry : Obligations.LearnAddsOneEntry := by
  intro s k hw hk
  constructor
  · intro hroom
    refine ⟨_, exec_learn_room hk (dictionaryFull_eq_false hroom), ?_, fun c => ?_, fun l => ?_⟩
    · rw [learned_eq]
      rfl
    · exact fwdRead_learned s k.bytes c hw
    · exact revRead_learned s k.bytes l hw
  · intro hfull hf
    rw [exec_learn_full hk (dictionaryFull_eq_true hfull), raise_of_none rfl hf]
    rfl

end Sys2Proof.Machine
end

section
/-! SUPPORT. The commands and the steps that emit a code or learn from one (O22, O27, O28, O41, O44). -/

namespace Sys2Proof.Machine

variable {s t : State}

/-! ## Emitted bits -/

/-- Bit `w - 1` of a code is written first, bit 0 last (30_encoding.md R71). -/
theorem codeBits_eq_map_testBit (c w : Nat) :
    codeBits c w = (List.range w).map fun i => c.testBit (w - 1 - i) := by
  induction w with
  | zero => rfl
  | succ w ih =>
    have hbit : decide ((c >>> w) % 2 = 1) = c.testBit w := by
      rw [Nat.testBit_eq_decide_div_mod_eq, Nat.shiftRight_eq_div_pow]
    have hrest : (fun i => c.testBit (w + 1 - 1 - i)) ∘ Nat.succ = fun i => c.testBit (w - 1 - i) := by
      funext i
      rw [Function.comp_apply, show w + 1 - 1 - i.succ = w - 1 - i by omega]
    rw [codeBits, ih, List.range_succ_eq_map, List.map_cons, List.map_map, hrest, hbit]
    rfl

/-- A primitive that accepts every bit (43_width_and_serdes.md R177). -/
theorem writeBits_done {own : Owner} {bs : List Bit} {more : List WriteAnswer}
    (h : s.writeAnswers = List.replicate bs.length .accept ++ more) :
    writeBits own bs s =
      .next (finishWrite own { s with writeAnswers := more, outBits := s.outBits ++ bs }) := by
  rw [writeBits, pushBits_done bs s more h]

/-- Settles O44: both steps write their bits on a primitive that accepts them. -/
theorem emittedBits : Obligations.EmittedBits := by
  intro s more
  constructor
  · intro c w h
    rw [← codeBits_eq_map_testBit]
    exact writeBits_done (by rwa [codeBits_length])
  · intro h
    rw [← eoiBits_eq]
    exact writeBits_done (by rwa [eoiBits_eq, List.length_replicate])

/-- WRB of a byte that ends the match writes the code in the width of NEXT_KEY after the Learn (R205). -/
theorem writeByte_emit {b : Byte} {p : ByteSeq} {c : Nat} (hp : s.pending = some p)
    (habsent : revRead s (p ++ [b]) = none) (hc : revRead s p = some c) (hroom : dictionaryFull s = false) :
    writeByte b s = writeBits .command (codeBits c (bits s.nextKey))
      { learned (p ++ [b]) s with pending := some [b] } := by
  simp [writeByte, encodeStep_emit hp habsent hc hroom, widthEnc]

/-- Settles O22: ENCODE_STEP learns and emits, and the code's bits are accepted. -/
theorem wrbEmitsCode : Obligations.WrbEmitsCode := by
  intro s b p c more hlive hm hroom hp habsent hc hwa
  rw [exec_wrb_live b hlive hm, writeByte_emit hp habsent hc (dictionaryFull_eq_false hroom),
    writeBits_done (more := more) (by simpa using hwa)]
  simp [finishWrite, respond, learned, responseWord]

/-! ## Codes that learn -/

/-- The class of a known code, with room (42_decoder.md R146). -/
theorem decodeClass_known {v : Nat} {h : Byte} {p q : ByteSeq} (hp : s.prev = some p)
    (hv : fwdRead s v = some (h :: q)) (hroom : dictionaryFull s = false) :
    decodeClass .known v s =
      .val (some (h :: q)) { learned (p ++ [h]) s with prev := some (h :: q) } := by
  simp [decodeClass, withPrev, hp, decodeKnown, hv, learnResolved_val hroom]

/-- The class of the unseen code, with room (42_decoder.md R145). -/
theorem decodeClass_unseen {v : Nat} {h : Byte} {p : ByteSeq} (hp : s.prev = some (h :: p))
    (hroom : dictionaryFull s = false) :
    decodeClass .unseen v s =
      .val (some (h :: p ++ [h])) { learned (h :: p ++ [h]) s with prev := some (h :: p ++ [h]) } := by
  simp [decodeClass, withPrev, hp, decodeUnseen, learnResolved_val hroom]

theorem classOf_known {v w : Nat} {p : ByteSeq} (hp : s.prev = some p) (he : v ≠ 2 ^ w - 1)
    (hv : v < s.nextKey) : classOf s v w = .known := by
  rw [classOf, hp, wireClass_known he hv]

theorem classOf_unseen {v w : Nat} {p : ByteSeq} (hp : s.prev = some p) (he : v ≠ 2 ^ w - 1)
    (hv : v = s.nextKey) : classOf s v w = .unseen := by
  rw [classOf, hp, wireClass_unseen he hv]

/-- A wire row in a state that puts its value into its class. -/
theorem execClass_of_classOf {c : WireClass} {v w : Nat} (h : classOf s v w = c) :
    execClass c v w s = settleDecode (decodeClass c v s) := if_pos h

/-- Settles O41: in its class, with room, each of the two rows learns the resolved key. -/
theorem wireCodesThatLearn : Obligations.WireCodesThatLearn := by
  intro s v w h p hroom he
  have hfull := dictionaryFull_eq_false hroom
  constructor
  · intro q hp hv hq
    rw [exec, execWireKnown, execClass_of_classOf (classOf_known hp he hv), decodeClass_known hp hq hfull]
    rfl
  · intro hp hv
    rw [exec, execWireUnseen, execClass_of_classOf (classOf_unseen hp he hv), decodeClass_unseen hp hfull]
    rfl

/-- Learn does not see the answers to come. -/
theorem learned_setReadAnswers (k : ByteSeq) (s : State) (more : List ReadAnswer) :
    learned k { s with readAnswers := more } = { learned k s with readAnswers := more } := by
  have hrev : revRead { s with readAnswers := more } k = revRead s k := rfl
  unfold learned dictInsert
  rw [hrev]
  cases revRead s k <;> rfl

/-- RDB on a code whose class learns: the first byte of the resolved key is served (R210). -/
theorem exec_rdb_learns {imm b : Byte} {q k : ByteSeq} {bs : List Bit} {more : List ReadAnswer}
    {c : WireClass} (hread : ReadsCode s) (hlen : bs.length = bits (s.nextKey + 1))
    (hra : s.readAnswers = bs.map .bit ++ more)
    (hc : classOf s (assemble bs) (bits (s.nextKey + 1)) = c)
    (h : decodeClass c (assemble bs) { s with readAnswers := more } =
      .val (some (b :: q)) { learned k { s with readAnswers := more } with prev := some (b :: q) }) :
    exec (.rdb imm) s = .next { dictInsert s.nextKey k s with
      nextKey := s.nextKey + 1
      prev := some (b :: q)
      outbuf := b :: q
      cursor := 1
      readAnswers := more
      responses := s.responses ++ [(0x1 : BitVec 4) ++ b] } := by
  have hc' : classOf { s with readAnswers := more } (assemble bs) (bits (s.nextKey + 1)) = c := hc
  rw [exec_rdb_value imm hread hlen hra, decodeAndServe, decodeStep, hc', h, learned_setReadAnswers]
  simp [serveDecoded, serveFirst, respond, learned, responseWord]

/-- Settles O27: the code's class is a known code, which serves its key and learns. -/
theorem rdbServesKnownCode : Obligations.RdbServesKnownCode := by
  intro s imm h p q bs more hread hroom hp hlen hra he hv hq
  have hclass := decodeClass_known (s := { s with readAnswers := more }) hp hq (dictionaryFull_eq_false hroom)
  exact exec_rdb_learns hread hlen hra (classOf_known hp he hv) hclass

/-- Settles O28: the code's class is the unseen code, which serves and learns PREV with its first byte. -/
theorem rdbServesUnseenCode : Obligations.RdbServesUnseenCode := by
  intro s imm h p bs more hread hroom hp hlen hra he hv
  have hclass := decodeClass_unseen (s := { s with readAnswers := more }) (v := assemble bs) hp
    (dictionaryFull_eq_false hroom)
  exact exec_rdb_learns hread hlen hra (classOf_unseen hp he hv) hclass

end Sys2Proof.Machine
end

section
/-! SUPPORT. What the internal steps and the wire codes leave unchanged (O46). -/

namespace Sys2Proof.Machine

variable {s t : State}

theorem sameDictionary_refl (s : State) : SameDictionary s s := ⟨rfl, fun _ => rfl, fun _ => rfl⟩

theorem sameDictionary_raise (f : FaultCode) (s : State) : SameDictionary s (raise f s) :=
  sameDictionary_of_eq s (by simp) (by simp) (by simp)

/-! ## The steps of the encoder's side -/

theorem learn_frame {k : Key} (hw : Memory.wf s) (e : exec (.learn k) s = .next t) :
    GrowsByAtMost k.bytes s t ∧ t = { s with
      fwd := t.fwd, rev := t.rev, nextKey := t.nextKey, fault := t.fault, responses := t.responses,
      result := t.result } := by
  rw [exec, execLearn] at e
  rcases learn_cases s k with ⟨-, e'⟩ | ⟨-, -, e'⟩ | ⟨-, -, e'⟩ <;> rw [e'] at e <;> cases e
  · exact ⟨.inl (sameDictionary_raise _ s), by rw [raise_eq]⟩
  · refine ⟨.inr (growsBy_learned s hw rfl rfl rfl), ?_⟩
    rw [learned_eq]
    rfl

theorem encodeStep_frame {b : Byte} (hw : Memory.wf s) (e : exec (.encodeStep b) s = .next t) :
    GrowsByAtMost (s.pending.getD [] ++ [b]) s t ∧ t = { s with
      fwd := t.fwd, rev := t.rev, nextKey := t.nextKey, pending := t.pending, fault := t.fault,
      responses := t.responses, result := t.result } := by
  rw [exec, execEncodeStep] at e
  rcases encodeStep_cases b s with ⟨c, -, e'⟩ | ⟨-, -, e'⟩ | ⟨p, c, -, -, -, -, e'⟩ | ⟨p, c, hp, -, -, -, e'⟩ <;>
    rw [e'] at e <;> cases e
  · exact ⟨.inl (sameDictionary_refl s), rfl⟩
  · exact ⟨.inl (sameDictionary_raise _ s), by rw [raise_eq]⟩
  · refine ⟨.inr (growsBy_learned s hw rfl (by rw [hp]; rfl) (by rw [hp]; rfl)), ?_⟩
    rw [learned_eq]
    rfl

theorem encodeFlush_frame (e : exec .encodeFlush s = .next t) :
    SameDictionary s t ∧ t = { s with pending := t.pending, result := t.result } := by
  rw [exec, execEncodeFlush] at e
  rcases encodeFlush_cases s with ⟨-, e'⟩ | ⟨p, -, -, e'⟩ | ⟨p, c, -, -, e'⟩ <;> rw [e'] at e <;> cases e
  · exact ⟨sameDictionary_refl s, rfl⟩
  · exact ⟨sameDictionary_refl s, rfl⟩

/-! ## The steps of the decoder's side -/

/-- What a step of the decoder leaves: the tables learn at most PREV extended by the first byte of the new
PREV, and beside them only PREV, FAULT, the responses and the result change (42_decoder.md R149). -/
def DecoderFrame (s t : State) : Prop :=
  DecoderLearns s t ∧ t = { s with
    fwd := t.fwd, rev := t.rev, nextKey := t.nextKey, prev := t.prev, fault := t.fault,
    responses := t.responses, result := t.result }

theorem decoderFrame_raise (f : FaultCode) (s : State) : DecoderFrame s (raise f s) :=
  ⟨.inl (sameDictionary_raise f s), by rw [raise_eq]⟩

/-- A wire row gives a next state only in its own class (log 16). -/
theorem execClass_next {c : WireClass} {v w : Nat} (e : execClass c v w s = .next t) :
    settleDecode (decodeClass c v s) = .next t := by
  unfold execClass at e
  split at e
  · exact e
  · cases e

theorem settleDecode_learnResolved_frame {p q : ByteSeq} (hw : Memory.wf s) (hp : s.prev = some p)
    (e : settleDecode (learnResolved p q s) = .next t) : DecoderFrame s t := by
  rcases learnResolved_cases p q s with ⟨-, e'⟩ | ⟨h, u, -, -, e'⟩ | ⟨h, u, rfl, -, e'⟩ <;>
    rw [e'] at e <;> cases e
  · exact decoderFrame_raise _ s
  · refine ⟨.inr ⟨p, h, u, hp, rfl, growsBy_learned s hw rfl rfl rfl⟩, ?_⟩
    rw [learned_eq]
    rfl

/-- A first code changes PREV and the result (42_decoder.md R143). -/
theorem settleDecode_first_frame {v : Nat} (e : settleDecode (decodeClass .first v s) = .next t) :
    SameDictionary s t ∧ t = { s with prev := t.prev, result := t.result } := by
  simp only [decodeClass, decodeFirst] at e
  split at e <;> cases e
  exact ⟨sameDictionary_refl s, rfl⟩

theorem settleDecode_known_frame {v : Nat} (hw : Memory.wf s)
    (e : settleDecode (decodeClass .known v s) = .next t) : DecoderFrame s t := by
  simp only [decodeClass, withPrev] at e
  split at e
  · cases e
  · next p hp =>
    unfold decodeKnown at e
    split at e
    · cases e
    · exact settleDecode_learnResolved_frame hw hp e

theorem settleDecode_unseen_frame {v : Nat} (hw : Memory.wf s)
    (e : settleDecode (decodeClass .unseen v s) = .next t) : DecoderFrame s t := by
  simp only [decodeClass, withPrev] at e
  split at e
  · cases e
  · next p hp =>
    cases p with
    | nil => cases e
    | cons h q => exact settleDecode_learnResolved_frame hw hp e

/-- DECODE_STEP is the step of one class, and each class has the decoder's frame. -/
theorem settleDecode_frame {c : WireClass} {v : Nat} (hw : Memory.wf s)
    (e : settleDecode (decodeClass c v s) = .next t) : DecoderFrame s t := by
  cases c with
  | eoi =>
    cases e
    exact ⟨.inl (sameDictionary_refl s), rfl⟩
  | first =>
    obtain ⟨hd, ht⟩ := settleDecode_first_frame e
    rw [ht] at hd ⊢
    exact ⟨.inl hd, rfl⟩
  | firstCorrupt | corrupt =>
    cases e
    exact decoderFrame_raise _ s
  | known => exact settleDecode_known_frame hw e
  | unseen => exact settleDecode_unseen_frame hw e

/-! ## The transfers -/

/-- What a code transfer run by itself leaves (43_width_and_serdes.md R177, R178, R180). -/
def TransferFrame (s t : State) : Prop :=
  SameDictionary s t ∧ t = { s with
    fault := t.fault, transfer := t.transfer, responses := t.responses, outBits := t.outBits,
    writeAnswers := t.writeAnswers, readAnswers := t.readAnswers, result := t.result }

theorem writeBits_frame {bs : List Bit} (e : writeBits .internalStep bs s = .next t) : TransferFrame s t := by
  rcases writeBits_cases .internalStep bs s with ⟨more, -, e'⟩ | ⟨j, more, -, -, e'⟩ | ⟨j, -, -, e'⟩ <;>
    rw [e'] at e <;> cases e
  · exact ⟨sameDictionary_refl s, rfl⟩
  · rw [raise_eq]
    exact ⟨sameDictionary_refl s, rfl⟩
  · exact ⟨sameDictionary_refl s, rfl⟩

theorem readBits_frame {w left acc : Nat} (e : readBits .internalStep w left acc s = .next t) :
    TransferFrame s t := by
  rcases readBits_cases .internalStep w left acc s with
    ⟨bs, more, -, -, e'⟩ | ⟨bs, more, -, -, e'⟩ | ⟨bs, more, -, -, e'⟩ | ⟨bs, -, -, e'⟩ <;>
    rw [e'] at e <;> cases e
  · exact ⟨sameDictionary_refl s, rfl⟩
  · exact ⟨sameDictionary_refl s, rfl⟩
  · rw [raise_eq]
    exact ⟨sameDictionary_refl s, rfl⟩
  · exact ⟨sameDictionary_refl s, rfl⟩

/-! ## All of them -/

/-- The key steps and `bits` give a value (40_sequence_key.md R102 to R106, 43_width_and_serdes.md R170). -/
theorem keyStep_frame (b : Byte) (k l : Key) (q : ByteSeq) (n : Nat) {i : Instr}
    (hi : i ∈ [Instr.skFromByte b, .skEq k l, .hash q, .skAppend k b, .skFromBytes q, .bits n])
    (e : exec i s = .next t) : t = { s with result := t.result } := by
  simp only [List.mem_cons, List.not_mem_nil, or_false] at hi
  rcases hi with rfl | rfl | rfl | rfl | rfl | rfl <;> cases e <;> rfl

theorem corruptCode_frame {v w : Nat} {i : Instr} (hi : i ∈ [Instr.wireFirstCorrupt v w, .wireCorrupt v w])
    (e : exec i s = .next t) :
    SameDictionary s t ∧ t = { s with fault := t.fault, responses := t.responses } := by
  simp only [List.mem_cons, List.not_mem_nil, or_false] at hi
  rcases hi with rfl | rfl <;> cases execClass_next e
  · exact ⟨sameDictionary_raise _ s, raise_eq _ s⟩
  · exact ⟨sameDictionary_raise _ s, raise_eq _ s⟩

theorem decoding_frame {v w : Nat} {i : Instr} (hw : Memory.wf s)
    (hi : i ∈ [Instr.decodeStep v w, .wireKnown v w, .wireUnseen v w]) (e : exec i s = .next t) :
    DecoderFrame s t := by
  simp only [List.mem_cons, List.not_mem_nil, or_false] at hi
  rcases hi with rfl | rfl | rfl
  · exact settleDecode_frame hw e
  · exact settleDecode_frame hw (execClass_next e)
  · exact settleDecode_frame hw (execClass_next e)

theorem transfer_frame {c w : Nat} {i : Instr} (hi : i ∈ [Instr.emitCode c w, .emitEoi, .readCode w])
    (e : exec i s = .next t) : TransferFrame s t := by
  simp only [List.mem_cons, List.not_mem_nil, or_false] at hi
  rcases hi with rfl | rfl | rfl
  · exact writeBits_frame e
  · exact writeBits_frame e
  · exact readBits_frame e

/-- Settles O46: each family of steps has its frame. -/
theorem internalStepFrame : Obligations.InternalStepFrame := by
  intro s t hw
  refine ⟨fun b k l q n i => keyStep_frame b k l q n, fun k => learn_frame hw, fun b => encodeStep_frame hw,
    encodeFlush_frame, fun v w e => ?_, fun v w e => settleDecode_first_frame (execClass_next e),
    fun v w i => corruptCode_frame, fun v w i => decoding_frame hw, fun c w i => transfer_frame⟩
  cases execClass_next e
  exact ⟨sameDictionary_refl s, rfl⟩

end Sys2Proof.Machine
end

section
/-! SUPPORT. What every command and every transfer that goes on does at the two ports: its direction on the
bit port and its one response (O49, O50). -/

namespace Sys2Proof.Machine

variable {s t : State}

/-- Every response word reads back (30_encoding.md R85). -/
theorem readResponse_responseWord (r : Response) : readResponse (responseWord r) = some r := by
  cases r with
  | ok | eod => rfl
  | byte b => simp [readResponse, responseWord, opField_append, immField_append]
  | fault f => cases f <;> rfl

/-! ## One response, one direction -/

/-- The command completes with one response, or waits for the primitive with none (R85,
70_reset_and_hazards.md R291). -/
def AnswersOrWaits (s t : State) : Prop :=
  (t.transfer = none ∧ ∃ r, t.responses = s.responses ++ [responseWord r]) ∨
  (t.transfer ≠ none ∧ t.responses = s.responses)

theorem answersOrWaits_of_response (r : Response) (ht : t.transfer = none)
    (h : t.responses = s.responses ++ [responseWord r]) : AnswersOrWaits s t := .inl ⟨ht, r, h⟩

/-- A command's end in compress mode: bits are written at most (20_memory.md R56). -/
def Writes (s t : State) : Prop :=
  (∃ bs, t.outBits = s.outBits ++ bs) ∧ t.pastBits = s.pastBits ∧ t.readAnswers = s.readAnswers ∧
  AnswersOrWaits s t

/-- A command's end in decompress mode: bits are read at most (R57). -/
def Reads (s t : State) : Prop :=
  t.outBits = s.outBits ∧ t.pastBits = s.pastBits ∧ t.writeAnswers = s.writeAnswers ∧ AnswersOrWaits s t

/-- A command's end, in the direction of the mode. -/
def OneSided (s t : State) : Prop :=
  (s.mode = .compress → Writes s t) ∧ (s.mode = .decompress → Reads s t)

theorem OneSided.of_writes (hm : s.mode = .compress) (h : Writes s t) : OneSided s t :=
  ⟨fun _ => h, fun hm' => by simp [hm] at hm'⟩

theorem OneSided.of_reads (hm : s.mode = .decompress) (h : Reads s t) : OneSided s t :=
  ⟨fun hm' => by simp [hm] at hm', fun _ => h⟩

/-- A response without a transfer is of either side. -/
theorem oneSided_respond (r : Response) (ht : s.transfer = none) : OneSided s (respond r s) :=
  have answered : AnswersOrWaits s (respond r s) := answersOrWaits_of_response r ht rfl
  ⟨fun _ => ⟨⟨[], by simp⟩, rfl, rfl, answered⟩, fun _ => ⟨rfl, rfl, rfl, answered⟩⟩

theorem OneSided.answersOrWaits (h : OneSided s t) : AnswersOrWaits s t := by
  cases hm : s.mode with
  | compress => exact (h.1 hm).2.2.2
  | decompress => exact (h.2 hm).2.2.2

/-- What a command writes is added to the run's output (70_reset_and_hazards.md R285). -/
theorem OneSided.output (h : OneSided s t) :
    ∃ bs, compressOutput t = compressOutput s ++ bs ∧ t.pastBits = s.pastBits := by
  cases hm : s.mode with
  | compress =>
    obtain ⟨⟨bs, hb⟩, hpast, -, -⟩ := h.1 hm
    exact ⟨bs, hb, hpast⟩
  | decompress =>
    obtain ⟨hb, hpast, -, -⟩ := h.2 hm
    exact ⟨[], by simp [compressOutput, hb], hpast⟩

/-! ## The operations -/

theorem writes_writeBits {bs : List Bit} (ht : s.transfer = none)
    (e : writeBits .command bs s = .next t) : Writes s t := by
  rcases writeBits_cases .command bs s with ⟨more, -, e'⟩ | ⟨j, more, -, -, e'⟩ | ⟨j, -, -, e'⟩ <;>
    rw [e'] at e <;> cases e
  · exact ⟨⟨bs, rfl⟩, rfl, rfl, answersOrWaits_of_response .ok ht rfl⟩
  · exact ⟨⟨bs.take j, by simp⟩, by simp, by simp,
      answersOrWaits_of_response (.fault .bitIoError) (by simp [ht]) (by simp)⟩
  · exact ⟨⟨bs.take j, rfl⟩, rfl, rfl, .inr ⟨by simp, rfl⟩⟩

theorem writes_writeByte {b : Byte} (ht : s.transfer = none) (e : writeByte b s = .next t) : Writes s t := by
  rcases writeByte_cases b s with ⟨c, -, e'⟩ | ⟨-, e'⟩ | ⟨p, c, -, -, -, -, e'⟩ | ⟨p, c, -, -, -, -, e'⟩ <;>
    rw [e'] at e
  · cases e
    exact ⟨⟨[], by simp⟩, rfl, rfl, answersOrWaits_of_response .ok ht rfl⟩
  · cases e
  · cases e
    exact ⟨⟨[], by simp⟩, by simp, by simp,
      answersOrWaits_of_response (.fault .capacityExceeded) (by simp [ht]) (by simp)⟩
  · simpa [Writes, AnswersOrWaits] using writes_writeBits (by simp [ht]) e

theorem writes_closeStream (ht : s.transfer = none) (e : closeStream s = .next t) : Writes s t := by
  rcases closeStream_cases s with ⟨-, e'⟩ | ⟨p, -, -, e'⟩ | ⟨p, c, -, -, e'⟩ <;> rw [e'] at e
  · exact writes_writeBits ht e
  · cases e
  · exact writes_writeBits (s := { s with pending := none }) ht e

theorem reads_raise (f : FaultCode) (ht : s.transfer = none) : Reads s (raise f s) :=
  ⟨by simp, by simp, by simp, answersOrWaits_of_response (.fault f) (by simp [ht]) (by simp)⟩

theorem reads_endOfStream (ht : s.transfer = none) : Reads s (endOfStream s) :=
  ⟨rfl, rfl, rfl, answersOrWaits_of_response .eod ht rfl⟩

theorem reads_served (b : Byte) (q : ByteSeq) (ht : s.transfer = none) : Reads s (served b q s) :=
  ⟨rfl, rfl, rfl, answersOrWaits_of_response (.byte b) ht rfl⟩

theorem reads_decodeAndServe {v w : Nat} (ht : s.transfer = none) (e : decodeAndServe v w s = .next t) :
    Reads s t := by
  rcases decodeAndServe_cases e with ⟨-, rfl⟩ | rfl | ⟨-, b, q, -, rfl⟩ | ⟨-, rfl⟩ | ⟨-, p, b, q, -, rfl⟩
  · exact reads_endOfStream ht
  · exact reads_raise _ ht
  · exact reads_served b q ht
  · exact reads_raise _ ht
  · simpa [Reads, AnswersOrWaits] using reads_served (s := learned (p ++ [b]) s) b q (by simp [ht])

theorem reads_readBits {w left acc : Nat} (ht : s.transfer = none)
    (e : readBits .command w left acc s = .next t) : Reads s t := by
  rcases readBits_cases .command w left acc s with
    ⟨bs, more, -, -, e'⟩ | ⟨bs, more, -, -, e'⟩ | ⟨bs, more, -, -, e'⟩ | ⟨bs, -, -, e'⟩ <;> rw [e'] at e
  · exact reads_decodeAndServe (s := { s with readAnswers := more }) ht e
  · cases e
    exact reads_endOfStream (s := { s with readAnswers := more }) ht
  · cases e
    exact reads_raise (s := { s with readAnswers := more }) _ ht
  · cases e
    exact ⟨rfl, rfl, rfl, .inr ⟨by simp, rfl⟩⟩

theorem reads_readByte (ht : s.transfer = none) (e : readByte s = .next t) : Reads s t := by
  rcases readByte_cases s with ⟨b, -, e'⟩ | ⟨-, -, e'⟩ | ⟨-, -, e'⟩ <;> rw [e'] at e
  · cases e
    exact ⟨rfl, rfl, rfl, answersOrWaits_of_response (.byte b) ht rfl⟩
  · cases e
    exact ⟨rfl, rfl, rfl, answersOrWaits_of_response .eod ht rfl⟩
  · exact reads_readBits ht e

/-! ## The step -/

theorem effect_oneSided {x : Effect} (hg : x.Guard s) (ht : s.transfer = none) (e : x.run s = .next t) :
    OneSided s t := by
  cases x with
  | answer r => cases e; exact oneSided_respond r ht
  | shut => cases e; exact oneSided_respond (s := { s with closed := true }) .ok ht
  | write b =>
    obtain ⟨-, hm⟩ := hg
    exact .of_writes hm (writes_writeByte ht e)
  | read =>
    obtain ⟨-, hm⟩ := hg
    exact .of_reads hm (reads_readByte ht e)
  | finish =>
    obtain ⟨-, hm⟩ := hg
    exact .of_writes hm (writes_closeStream (s := { s with closed := true }) ht e)

/-- A waiting transfer of the invariant is a command's, in the direction of the mode (10_state.md R37). -/
theorem resume_oneSided {tr : Transfer} (ok : TransferOk s tr) (ht : s.transfer = none)
    (e : resume tr s = .next t) : OneSided s t := by
  cases tr with
  | write rest own =>
    obtain ⟨rfl, hm, -⟩ := ok
    exact .of_writes hm (writes_writeBits ht e)
  | read acc left w own =>
    obtain ⟨rfl, hm, -⟩ := ok
    exact .of_reads hm (reads_readBits ht e)

/-- A step without a reset has nothing to do and changes nothing, or is one-sided. -/
theorem step_oneSided (h : BlockInv s) (hr : s.resetInput = none) (e : step s = .next t) :
    (s.transfer = none ∧ s.commands = [] ∧ t = s) ∨ OneSided s t := by
  rcases step_cases s with ⟨m, hm, -⟩ | ⟨tr, -, htr, e'⟩ | ⟨-, ht, hc, e'⟩ | ⟨x, rest, -, ht, -, e'⟩
  · simp [hr] at hm
  · rw [e'] at e
    have ok : TransferOk { s with transfer := none } tr := by cases tr <;> exact h.transferOk _ htr
    exact .inr (resume_oneSided (s := { s with transfer := none }) ok rfl e)
  · rw [e'] at e
    cases e
    exact .inl ⟨ht, hc, rfl⟩
  · obtain ⟨f, hg, e''⟩ := exec_decodeWord_cases x { s with commands := rest }
    rw [e', e''] at e
    exact .inr (effect_oneSided (s := { s with commands := rest }) hg ht e)

/-- Settles O50: a step with a command is one-sided, and its one response reads back. -/
theorem oneResponsePerCommand : Obligations.OneResponsePerCommand := by
  intro s t h hr hbusy e
  rcases step_oneSided h hr e with ⟨ht, hc, -⟩ | hside
  · simp [ht, hc] at hbusy
  · exact hside.answersOrWaits.imp_left fun ⟨ht, r, hresp⟩ => ⟨ht, r, hresp, readResponse_responseWord r⟩

/-- The wire after a step without a reset is the wire before it and what the step wrote. -/
theorem wireBits_of_output {bs : List Bit} (hb : compressOutput t = compressOutput s ++ bs)
    (hp : t.pastBits = s.pastBits) : wireBits t = wireBits s ++ bs := by
  rw [compressOutput, compressOutput] at hb
  rw [wireBits, wireBits, hb, hp, List.append_assoc]

/-- Settles O49: reset leaves the wire and the answers, and any other step is one-sided. -/
theorem oneDirectionOnThePort : Obligations.OneDirectionOnThePort := by
  intro s t h e
  rcases Option.eq_none_or_eq_some s.resetInput with hr | ⟨m, hr⟩
  · rcases step_oneSided h hr e with ⟨-, -, rfl⟩ | hside
    · exact ⟨⟨[], by simp⟩, fun _ => ⟨[], by simp, rfl⟩, fun _ => ⟨rfl, rfl⟩, fun _ => rfl⟩
    · obtain ⟨bs, hb, hp⟩ := hside.output
      refine ⟨⟨bs, wireBits_of_output hb hp⟩, fun _ => ⟨bs, hb, hp⟩, fun hm => ?_, fun hm => ?_⟩
      · obtain ⟨hout, hpast, hans, -⟩ := hside.2 hm
        exact ⟨by rw [wireBits, wireBits, hout, hpast], hans⟩
      · obtain ⟨-, -, hans, -⟩ := hside.1 hm
        exact hans
  · rw [step_reset hr] at e
    cases e
    exact ⟨⟨[], by simp⟩, fun hn => by simp [hr] at hn, fun _ => by simp, fun _ => by simp⟩

end Sys2Proof.Machine
end

section
/-! SUPPORT. The two encodings, each decoded back (O1 to O5). -/

namespace Sys2Proof

open Machine

/-! ## Command words -/

/-- A word put together from its fields is decoded by them (30_encoding.md R80). -/
@[simp] theorem decodeWord_append (op : BitVec 4) (imm : Byte) :
    decodeWord (op ++ imm) = decodeFields op imm := by
  rw [decodeWord, opField_append, immField_append]

/-- A word is its `OP` above its `IMM8`, no bit left over (R80). -/
theorem opField_append_immField (x : CommandWord) : opField x ++ immField x = x :=
  BitVec.extractLsb'_append_extractLsb' (w := 4) (len := 8)

/-- Each row of R81 is at the `OP` that decodes to it. -/
theorem commandFields_decodeFields (op : BitVec 4) (imm : Byte) :
    commandFields (decodeFields op imm) = some (op, imm) := by
  obtain ⟨n⟩ := op
  fin_cases n <;> rfl

theorem decodeFields_of_commandFields {i : Instr} {op : BitVec 4} {imm : Byte}
    (h : commandFields i = some (op, imm)) : decodeFields op imm = i := by
  cases i <;> cases h <;> rfl

/-- Settles O3: the fields of a command and the fields of a word determine each other. -/
theorem commandEncodingRoundTrip : Obligations.CommandEncodingRoundTrip := by
  constructor
  · intro i x h
    obtain ⟨⟨op, imm⟩, hf, rfl⟩ := Option.map_eq_some_iff.1 h
    rw [decodeWord_append, decodeFields_of_commandFields hf]
  · intro x
    rw [encodeCommand, decodeWord, commandFields_decodeFields, Option.map_some, opField_append_immField]

/-- `IMM8` is ignored by every command but WRB (R82). -/
theorem exec_decodeFields_imm {op : BitVec 4} (h : op ≠ 0x1) (imm imm' : Byte) (s : State) :
    exec (decodeFields op imm) s = exec (decodeFields op imm') s := by
  have hne : op.toNat ≠ 1 := fun he => h (BitVec.eq_of_toNat_eq he)
  unfold decodeFields
  split
  case h_2 he => exact absurd he hne
  all_goals rfl

/-- Settles O2: the decoder of the fields is R81's table, and no row but WRB's uses `IMM8`. -/
theorem opcodeMapDecodes : Obligations.OpcodeMapDecodes := by
  constructor
  · intro s op imm imm' h
    rw [decodeWord_append, decodeWord_append, exec_decodeFields_imm h imm imm']
  · intro imm
    simp only [decodeWord_append]
    exact ⟨rfl, rfl, rfl, rfl, rfl, rfl, rfl, rfl, rfl, rfl, rfl, rfl, rfl, rfl, rfl, rfl⟩

/-! ## Wire codes -/

/-- Settles O5: the cases are R74's tests in their order. -/
theorem wireClassConditions : Obligations.WireClassConditions := by
  intro prev n v w
  by_cases he : v = 2 ^ w - 1
  · rw [wireClass_eoi he]
    simp [he]
  · cases prev with
    | none =>
      rcases Nat.lt_or_ge v 256 with hv | hv
      · rw [wireClass_first he hv]
        simp [he, hv]
      · rw [wireClass_firstCorrupt he hv]
        simp [he, hv]
    | some p =>
      rcases Nat.lt_trichotomy v n with hv | hv | hv
      · rw [wireClass_known he hv]
        simp [he, hv, hv.ne, hv.le]
      · rw [wireClass_unseen he hv]
        simp [he, ← hv]
      · rw [wireClass_corrupt he hv]
        simp [he, hv, hv.ne', hv.le]

/-- The instructions with a value and a width are the rows of the six classes (30_encoding.md R74). -/
theorem exists_wireClass_of_wireFields {i : Instr} {v w : Nat} (h : wireFields i = some (v, w)) :
    ∃ c : WireClass, i = c.instr v w := by
  cases i with
  | wireEoi => cases h; exact ⟨.eoi, rfl⟩
  | wireFirst => cases h; exact ⟨.first, rfl⟩
  | wireFirstCorrupt => cases h; exact ⟨.firstCorrupt, rfl⟩
  | wireKnown => cases h; exact ⟨.known, rfl⟩
  | wireUnseen => cases h; exact ⟨.unseen, rfl⟩
  | wireCorrupt => cases h; exact ⟨.corrupt, rfl⟩
  | _ => cases h

theorem encodeWire_instr (c : WireClass) (v w : Nat) : encodeWire (c.instr v w) = some (codeBits v w) := by
  cases c <;> rfl

/-- A well-formed wire code fits its width (R76). -/
theorem lt_of_wellFormed_instr {c : WireClass} {v w : Nat} (h : wellFormed (c.instr v w) = true) :
    v < 2 ^ w := by
  cases c <;> simp only [WireClass.instr, wellFormed, valueOk, Bool.and_eq_true, decide_eq_true_eq] at h
  case eoi =>
    obtain ⟨-, hv⟩ := h
    exact hv.trans_lt (Nat.sub_lt (Nat.two_pow_pos w) Nat.one_pos)
  case known =>
    obtain ⟨⟨-, hv⟩, -⟩ := h
    exact hv
  all_goals
    obtain ⟨⟨⟨-, hv⟩, -⟩, -⟩ := h
    exact hv

/-- A well-formed wire code is in its class for some decoder: without PREV where the class asks for none,
else with a NEXT_KEY above, at or below the value (R74). -/
theorem exists_decoder_of_wellFormed {c : WireClass} {v w : Nat} (h : wellFormed (c.instr v w) = true) :
    ∃ prev n, Config.firstKey ≤ n ∧ wireClass prev n v w = c := by
  cases c <;> simp only [WireClass.instr, wellFormed, notEoi, Bool.and_eq_true, decide_eq_true_eq] at h
  case eoi =>
    obtain ⟨-, he⟩ := h
    exact ⟨none, _, Nat.le_refl _, wireClass_eoi he⟩
  case first =>
    obtain ⟨⟨-, he⟩, hv⟩ := h
    exact ⟨none, _, Nat.le_refl _, wireClass_first he hv⟩
  case firstCorrupt =>
    obtain ⟨⟨-, he⟩, hv⟩ := h
    exact ⟨none, _, Nat.le_refl _, wireClass_firstCorrupt he hv⟩
  case known =>
    obtain ⟨-, he⟩ := h
    exact ⟨some [], max Config.firstKey (v + 1), Nat.le_max_left _ _,
      wireClass_known he (Nat.le_max_right _ _)⟩
  case unseen =>
    obtain ⟨⟨-, he⟩, hv⟩ := h
    exact ⟨some [], v, hv, wireClass_unseen he rfl⟩
  case corrupt =>
    obtain ⟨⟨-, he⟩, hv⟩ := h
    exact ⟨some [], _, Nat.le_refl _, wireClass_corrupt he hv⟩

/-- The bits of a value that fits its width, decoded in a state that puts the value into its class. -/
theorem decodeWire_codeBits {prev : Option ByteSeq} {n v w : Nat} (h : v < 2 ^ w) :
    decodeWire prev n (codeBits v w) = (wireClass prev n v w).instr v w := by
  rw [decodeWire, assemble_codeBits, Nat.mod_eq_of_lt h, codeBits_length]

/-- Settles O4: the bits of a value that fits its width give the value back, and the class follows. -/
theorem wireEncodingRoundTrip : Obligations.WireEncodingRoundTrip := by
  intro i v w hf hwf
  obtain ⟨c, rfl⟩ := exists_wireClass_of_wireFields hf
  constructor
  · obtain ⟨prev, n, hn, hc⟩ := exists_decoder_of_wellFormed hwf
    exact ⟨prev, n, hn, by rw [hc]⟩
  · intro prev n hc
    refine ⟨codeBits v w, encodeWire_instr c v w, codeBits_length v w, ?_⟩
    rw [decodeWire_codeBits (lt_of_wellFormed_instr hwf), ← hc]

/-- Settles O1: both decoders compute. -/
theorem sampleEncodingsDecode : Obligations.SampleEncodingsDecode := by
  unfold Obligations.SampleEncodingsDecode
  decide

end Sys2Proof
end

section
/-! SUPPORT. What READ_CODE and DECODE_STEP give, and that no step from a state of the invariant stops (O13,
O42, O45). -/

namespace Sys2Proof.Machine

variable {s : State}

/-! ## Codes read -/

/-- The value of a run of bits, each at its power of two (30_encoding.md R76). -/
theorem assembleFrom_eq_sum (acc : Nat) (bs : List Bit) :
    assembleFrom acc bs =
      acc * 2 ^ bs.length + ∑ i : Fin bs.length, bs[i].toNat * 2 ^ (bs.length - 1 - i) := by
  induction bs generalizing acc with
  | nil => simp [assembleFrom]
  | cons b bs ih =>
    have hstep : assembleFrom acc (b :: bs) = assembleFrom (2 * acc + b.toNat) bs := rfl
    have hfirst : ∑ i : Fin (b :: bs).length, (b :: bs)[i].toNat * 2 ^ ((b :: bs).length - 1 - i) =
        b.toNat * 2 ^ bs.length + ∑ i : Fin bs.length, bs[i].toNat * 2 ^ (bs.length - 1 - i) := by
      refine (Fin.sum_univ_succ _).trans (congrArg₂ _ rfl (Finset.sum_congr rfl fun i _ => ?_))
      have hexp : bs.length + 1 - 1 - (i + 1) = bs.length - 1 - i := by omega
      exact congrArg (bs[i].toNat * 2 ^ ·) hexp
    rw [hstep, ih, hfirst, List.length_cons]
    ring

/-- Settles O45: the bits before the end of the data are consumed, and a whole code is its bits' sum. -/
theorem readCodeAssembles : Obligations.ReadCodeAssembles := by
  intro s w bs more
  constructor
  · rintro rfl hra
    rw [exec, execReadCode, readBits, pullBits_value bs 0 s more hra, assembleFrom_eq_sum, Nat.zero_mul,
      Nat.zero_add]
    rfl
  · intro hlt hra
    rw [exec, execReadCode, readBits, pullBits_physEnd bs w 0 s more hlt hra]
    rfl

/-! ## Codes decoded -/

/-- A wire row runs as its class (log 16). -/
theorem exec_instr (c : WireClass) (v w : Nat) (s : State) : exec (c.instr v w) s = execClass c v w s := by
  cases c <;> rfl

/-- DECODE_STEP, run by itself, where it gives a key (R140). -/
theorem exec_decodeStep_seq {v w : Nat} {q : ByteSeq} {u : State} (e : decodeStep v w s = .val (some q) u) :
    exec (.decodeStep v w) s = .next (giveResult (.seq q) u) := by
  rw [exec, execDecodeStep, e]
  rfl

/-- A first code is below NEXT_KEY, so it has a key, which becomes PREV (42_decoder.md R143, 10_state.md R24). -/
theorem decodeStep_first {v w : Nat} (h : BlockInv s) (he : v ≠ eoiPattern w) (hp : s.prev = none)
    (hv : v < 256) :
    ∃ b q, fwdRead s v = some (b :: q) ∧
      decodeStep v w s = .val (some (b :: q)) { s with prev := some (b :: q) } := by
  obtain ⟨b, q, hq⟩ := fwdRead_cons_of_lt h (Nat.lt_of_lt_of_le hv h.keyFloor)
  refine ⟨b, q, hq, ?_⟩
  simp [decodeStep, classOf, hp, wireClass_first he hv, decodeClass, decodeFirst, hq]

/-- A code that is not corrupt resolves, with a PREV, to the key that it holds once PREV extended by that
key's first byte is learned (42_decoder.md R145, R146). -/
theorem decodeStep_resolves {v w : Nat} {p : ByteSeq} (h : BlockInv s) (he : v ≠ eoiPattern w)
    (hp : s.prev = some p) (hv : v ≤ s.nextKey) :
    ∃ b q, decodeStep v w s = learnResolved p (b :: q) s ∧
      fwdRead (learned (p ++ [b]) s) v = some (b :: q) := by
  rcases hv.lt_or_eq with hv | hv
  · obtain ⟨b, q, hq⟩ := fwdRead_cons_of_lt h hv
    refine ⟨b, q, ?_, ?_⟩
    · simp [decodeStep, classOf, hp, wireClass_known he hv, decodeClass, withPrev, decodeKnown, hq]
    · rw [fwdRead_learned s _ v h.canonical, if_neg hv.ne, hq]
  · obtain ⟨b, q, rfl⟩ := List.exists_cons_of_ne_nil (h.prevNonempty p hp)
    refine ⟨b, q ++ [b], ?_, ?_⟩
    · simp [decodeStep, classOf, hp, wireClass_unseen he hv, decodeClass, withPrev, decodeUnseen]
    · rw [fwdRead_learned s _ v h.canonical, if_pos hv, List.cons_append]

/-- Settles O42: DECODE_STEP is the step of one class, which resolves each code that is not corrupt. -/
theorem decodeStepRunsItsClass : Obligations.DecodeStepRunsItsClass := by
  refine ⟨fun s v w c => ?_, fun s v w he => ?_, fun s v w h he hcode => ?_⟩
  · rw [exec_instr, execClass, exec, execDecodeStep, decodeStep, classOf]
    by_cases hc : c = wireClass s.prev s.nextKey v w
    · rw [if_pos hc, if_pos hc.symm, hc]
    · rw [if_neg hc, if_neg (Ne.symm hc)]
  · rw [exec, execDecodeStep, decodeStep, classOf, wireClass_eoi he]
    rfl
  · rcases hcode with ⟨hp, hv⟩ | ⟨hp, hv, hroom⟩
    · obtain ⟨b, q, hq, e⟩ := decodeStep_first h he hp hv
      exact ⟨_, b :: q, exec_decodeStep_seq e, hq, rfl, rfl, by simp [hp]⟩
    · obtain ⟨p, hp'⟩ := Option.ne_none_iff_exists'.1 hp
      obtain ⟨b, q, e, hq⟩ := decodeStep_resolves h he hp' hv
      rw [learnResolved_val (dictionaryFull_eq_false hroom)] at e
      exact ⟨_, b :: q, exec_decodeStep_seq e, hq, rfl, rfl, by simp [hp]⟩

/-! ## No step stops -/

theorem exists_next_writeBits (own : Owner) (bs : List Bit) (s : State) :
    ∃ t, writeBits own bs s = .next t := by
  rcases writeBits_cases own bs s with ⟨_, -, e⟩ | ⟨_, _, -, -, e⟩ | ⟨_, -, -, e⟩ <;> exact ⟨_, e⟩

/-- Where a candidate is absent, PENDING is there and has a code: a one-byte candidate is always present
(41_encoder.md R124). -/
theorem exists_code_of_absent {b : Byte} (h : BlockInv s) (habsent : revRead s (s.pending.getD [] ++ [b]) = none) :
    ∃ c, s.pending.bind (revRead s) = some c := by
  cases hp : s.pending with
  | none =>
    have hb := revRead_byte h b
    simp [hp] at habsent
    simp [habsent] at hb
  | some p => exact Option.isSome_iff_exists.1 (h.pendingPresent p hp)

theorem exists_next_writeByte (h : BlockInv s) (b : Byte) : ∃ t, writeByte b s = .next t := by
  unfold writeByte
  rcases encodeStep_cases b s with ⟨c, -, e⟩ | ⟨habsent, hn, -⟩ | ⟨p, c, -, -, -, -, e⟩ |
    ⟨p, c, -, -, -, -, e⟩
  · exact ⟨_, by rw [e]; rfl⟩
  · obtain ⟨c, hc⟩ := exists_code_of_absent h habsent
    simp [hn] at hc
  · exact ⟨_, by rw [e]; rfl⟩
  · rw [e]
    exact exists_next_writeBits _ _ _

theorem exists_next_closeStream (h : BlockInv s) : ∃ t, closeStream s = .next t := by
  rcases closeStream_cases s with ⟨-, e⟩ | ⟨p, hp, hn, -⟩ | ⟨p, c, -, -, e⟩
  · rw [e]
    exact exists_next_writeBits _ _ _
  · simpa [hn] using h.pendingPresent p hp
  · rw [e]
    exact exists_next_writeBits _ _ _

theorem exists_next_serve_learnResolved (p : ByteSeq) (b : Byte) (q : ByteSeq) (s : State) :
    ∃ t, settleWith (learnResolved p (b :: q) s) serveDecoded = .next t := by
  rcases serve_learnResolved_cases p (b :: q) s with ⟨hq, -⟩ | ⟨-, -, e⟩ | ⟨_, _, -, -, e⟩
  · cases hq
  · exact ⟨_, e⟩
  · exact ⟨_, e⟩

/-- RDB answers on every code: it ends, raises, or serves a byte of a key that is there (42_decoder.md
R149). -/
theorem exists_next_decodeAndServe (h : BlockInv s) (v w : Nat) : ∃ t, decodeAndServe v w s = .next t := by
  have resolved {p : ByteSeq} (he : v ≠ eoiPattern w) (hp : s.prev = some p) (hv : v ≤ s.nextKey) :
      ∃ t, decodeAndServe v w s = .next t := by
    obtain ⟨b, q, e, -⟩ := decodeStep_resolves h he hp hv
    rw [decodeAndServe, e]
    exact exists_next_serve_learnResolved p b q s
  rcases decodeStep_cases v w s with ⟨-, e⟩ | ⟨he, hp, hv, -⟩ | ⟨-, -, -, e⟩ | ⟨p, he, hp, hv, -⟩ |
    ⟨p, he, hp, hv, -⟩ | ⟨p, -, -, -, e⟩
  · exact ⟨_, by rw [decodeAndServe, e]; rfl⟩
  · obtain ⟨b, q, -, e⟩ := decodeStep_first h he hp hv
    exact ⟨_, by rw [decodeAndServe, e]; rfl⟩
  · exact ⟨_, by rw [decodeAndServe, e]; rfl⟩
  · exact resolved he hp hv.le
  · exact resolved he hp hv.le
  · exact ⟨_, by rw [decodeAndServe, e]; rfl⟩

theorem exists_next_readBits (h : BlockInv s) (own : Owner) (w left acc : Nat) :
    ∃ t, readBits own w left acc s = .next t := by
  rcases readBits_cases own w left acc s with
    ⟨bs, more, -, -, e⟩ | ⟨bs, more, -, -, e⟩ | ⟨bs, more, -, -, e⟩ | ⟨bs, -, -, e⟩ <;> rw [e]
  · cases own with
    | command => exact exists_next_decodeAndServe (blockInv_ports h _ _ _ _ _ _ _ _ _ _) _ _
    | internalStep => exact ⟨_, rfl⟩
  · cases own <;> exact ⟨_, rfl⟩
  · exact ⟨_, rfl⟩
  · exact ⟨_, rfl⟩

theorem exists_next_readByte (h : BlockInv s) : ∃ t, readByte s = .next t := by
  rcases readByte_cases s with ⟨b, -, e⟩ | ⟨-, -, e⟩ | ⟨-, -, e⟩
  · exact ⟨_, e⟩
  · exact ⟨_, e⟩
  · rw [e]
    exact exists_next_readBits h _ _ _ _

theorem exists_next_effect (h : BlockInv s) (ht : s.transfer = none) (x : Effect) : ∃ t, x.run s = .next t := by
  cases x with
  | answer r => exact ⟨_, rfl⟩
  | shut => exact ⟨_, rfl⟩
  | write b => exact exists_next_writeByte h b
  | read => exact exists_next_readByte h
  | finish => exact exists_next_closeStream (blockInv_closed h ht true)

theorem exists_next_resume (h : BlockInv s) (tr : Transfer) : ∃ t, resume tr s = .next t := by
  cases tr with
  | write rest own => exact exists_next_writeBits own rest s
  | read acc left w own => exact exists_next_readBits h own w left acc

/-- Settles O13: reset and an idle step have a next state, and in the invariant so has every transfer and
every effect of a command. -/
theorem stepNeverStops : Obligations.StepNeverStops := by
  intro s h
  rcases step_cases s with ⟨m, -, e⟩ | ⟨tr, -, -, e⟩ | ⟨-, -, -, e⟩ | ⟨x, rest, -, ht, -, e⟩
  · exact ⟨_, e⟩
  · rw [e]
    exact exists_next_resume (blockInv_noTransfer h) tr
  · exact ⟨_, e⟩
  · obtain ⟨f, -, e'⟩ := exec_decodeWord_cases x { s with commands := rest }
    rw [e, e']
    exact exists_next_effect (s := { s with commands := rest }) (blockInv_ports h _ _ _ _ _ _ _ _ _ _) ht f

end Sys2Proof.Machine
end

section
/-! SUPPORT. The responses each command can give (O51). -/

namespace Sys2Proof.Machine

variable {s t : State} {r : Response} {P : Response → Prop}

/-- Different responses have different words (30_encoding.md R85). -/
theorem responseWord_injective : Function.Injective responseWord := fun r q h => by
  have hread := congrArg readResponse h
  simpa [readResponse_responseWord] using hread

/-- The responses are as they were, or one of the kind `P` has been given. -/
def AnswersWith (P : Response → Prop) (s t : State) : Prop :=
  t.responses = s.responses ∨ ∃ r, P r ∧ t.responses = s.responses ++ [responseWord r]

theorem AnswersWith.of_response (h : P r) (ht : t.responses = s.responses ++ [responseWord r]) :
    AnswersWith P s t := .inr ⟨r, h, ht⟩

/-- The one response given is of the kind. -/
theorem AnswersWith.holds (h : AnswersWith P s t) (ht : t.responses = s.responses ++ [responseWord r]) :
    P r := by
  rcases h with hsame | ⟨q, hq, hresp⟩
  · simp [hsame] at ht
  · have hword : responseWord q = responseWord r := by simpa [hresp] using ht
    exact responseWord_injective hword ▸ hq

/-! ## The kinds (R86) -/

/-- WRB's responses beside a stored fault. -/
def WrbResponse (r : Response) : Prop :=
  r ∈ [.ok, .fault .wrongMode, .fault .streamClosed, .fault .capacityExceeded, .fault .bitIoError]

/-- RDB's responses. -/
def RdbResponse (r : Response) : Prop :=
  (∃ b, r = .byte b) ∨ r ∈ [.eod, .fault .corruptStream, .fault .wrongMode, .fault .streamClosed,
    .fault .capacityExceeded, .fault .bitIoError]

/-- CLOSE's responses. -/
def CloseResponse (r : Response) : Prop := r ∈ [.ok, .fault .bitIoError]

/-- A stored fault is one that RDB gives too (60_exceptions.md R241). -/
theorem rdbResponse_of_sticky {f : FaultCode} (h : isSticky f = true) : RdbResponse (.fault f) := by
  cases f with
  | corruptStream | capacityExceeded | bitIoError => simp [RdbResponse]
  | unsupportedOperation | wrongMode | streamClosed | illegalCommand => cases h

/-! ## The operations -/

/-- Writing for a command ends with OK or BIT_IO_ERROR, or waits. -/
theorem writeBits_answersWith {bs : List Bit} (hok : P .ok) (hio : P (.fault .bitIoError))
    (e : writeBits .command bs s = .next t) : AnswersWith P s t := by
  rcases writeBits_cases .command bs s with ⟨more, -, e'⟩ | ⟨j, more, -, -, e'⟩ | ⟨j, -, -, e'⟩ <;>
    rw [e'] at e <;> cases e
  · exact .of_response hok rfl
  · exact .of_response hio (by simp)
  · exact .inl rfl

theorem writeByte_answersWith {b : Byte} (e : writeByte b s = .next t) : AnswersWith WrbResponse s t := by
  rcases writeByte_cases b s with ⟨c, -, e'⟩ | ⟨-, e'⟩ | ⟨p, c, -, -, -, -, e'⟩ | ⟨p, c, -, -, -, -, e'⟩ <;>
    rw [e'] at e
  · cases e
    exact .of_response (r := .ok) (by simp [WrbResponse]) rfl
  · cases e
  · cases e
    exact .of_response (r := .fault .capacityExceeded) (by simp [WrbResponse]) (by simp)
  · have hwrite := writeBits_answersWith (P := WrbResponse) (by simp [WrbResponse]) (by simp [WrbResponse]) e
    simpa [AnswersWith] using hwrite

theorem closeStream_answersWith (e : closeStream s = .next t) : AnswersWith CloseResponse s t := by
  have hok : CloseResponse .ok := by simp [CloseResponse]
  have hio : CloseResponse (.fault .bitIoError) := by simp [CloseResponse]
  rcases closeStream_cases s with ⟨-, e'⟩ | ⟨p, -, -, e'⟩ | ⟨p, c, -, -, e'⟩ <;> rw [e'] at e
  · exact writeBits_answersWith hok hio e
  · cases e
  · exact writeBits_answersWith (s := { s with pending := none }) hok hio e

theorem decodeAndServe_answersWith {v w : Nat} (e : decodeAndServe v w s = .next t) :
    AnswersWith RdbResponse s t := by
  rcases decodeAndServe_cases e with ⟨-, rfl⟩ | rfl | ⟨-, b, q, -, rfl⟩ | ⟨-, rfl⟩ | ⟨-, p, b, q, -, rfl⟩
  · exact .of_response (r := .eod) (by simp [RdbResponse]) rfl
  · exact .of_response (rdbResponse_of_sticky rfl) (raise_responses s _)
  · exact .of_response (r := .byte b) (by simp [RdbResponse]) rfl
  · exact .of_response (rdbResponse_of_sticky rfl) (raise_responses s _)
  · exact .of_response (r := .byte b) (by simp [RdbResponse]) (by simp [served])

theorem readBits_answersWith {w left acc : Nat} (e : readBits .command w left acc s = .next t) :
    AnswersWith RdbResponse s t := by
  rcases readBits_cases .command w left acc s with
    ⟨bs, more, -, -, e'⟩ | ⟨bs, more, -, -, e'⟩ | ⟨bs, more, -, -, e'⟩ | ⟨bs, -, -, e'⟩ <;> rw [e'] at e
  · exact decodeAndServe_answersWith (s := { s with readAnswers := more }) e
  · cases e
    exact .of_response (r := .eod) (by simp [RdbResponse]) rfl
  · cases e
    exact .of_response (rdbResponse_of_sticky rfl) (raise_responses _ _)
  · cases e
    exact .inl rfl

theorem readByte_answersWith (e : readByte s = .next t) : AnswersWith RdbResponse s t := by
  rcases readByte_cases s with ⟨b, -, e'⟩ | ⟨-, -, e'⟩ | ⟨-, -, e'⟩ <;> rw [e'] at e
  · cases e
    exact .of_response (r := .byte b) (by simp [RdbResponse]) rfl
  · cases e
    exact .of_response (r := .eod) (by simp [RdbResponse]) rfl
  · exact readBits_answersWith e

/-! ## The prologue -/

/-- A command with the lifecycle checks answers STREAM_CLOSED, the stored fault, or as it does once they
have passed (44_stream_commands.md R200). -/
theorem whenLive_answersWith {k : Out} (hclosed : P (.fault .streamClosed))
    (hfault : ∀ f, s.fault = some f → P (.fault f)) (hk : k = .next t → AnswersWith P s t)
    (e : whenLive s k = .next t) : AnswersWith P s t := by
  rcases whenLive_cases s k with ⟨-, e'⟩ | ⟨f, -, hf, e'⟩ | ⟨-, e'⟩ <;> rw [e'] at e
  · cases e
    exact .of_response hclosed rfl
  · cases e
    exact .of_response (hfault f hf) rfl
  · exact hk e

/-- A command with the mode check answers WRONG_MODE, or as it does once it has passed (R200). -/
theorem whenMode_answersWith {m : Mode} {k : Out} (hmode : P (.fault .wrongMode))
    (hk : k = .next t → AnswersWith P s t) (e : whenMode m s k = .next t) : AnswersWith P s t := by
  rcases whenMode_cases m s k with ⟨-, e'⟩ | ⟨-, e'⟩ <;> rw [e'] at e
  · cases e
    exact .of_response hmode rfl
  · exact hk e

/-! ## The commands -/

theorem AnswersWith.mono {Q : Response → Prop} (hPQ : ∀ r, P r → Q r) (h : AnswersWith P s t) :
    AnswersWith Q s t := h.imp_right fun ⟨r, hr, ht⟩ => ⟨r, hPQ r hr, ht⟩

theorem exec_wrb_answersWith {imm : Byte} (e : exec (.wrb imm) s = .next t) :
    AnswersWith (fun r => WrbResponse r ∨ s.fault.map .fault = some r) s t :=
  whenLive_answersWith (by simp [WrbResponse]) (fun f hf => .inr (by simp [hf]))
    (whenMode_answersWith (by simp [WrbResponse]) fun e => (writeByte_answersWith e).mono fun _ => .inl) e

/-- RDB's stored faults are 1, 6 and 7 in a state of the invariant (10_state.md R36). -/
theorem exec_rdb_answersWith {imm : Byte} (h : BlockInv s) (e : exec (.rdb imm) s = .next t) :
    AnswersWith RdbResponse s t :=
  whenLive_answersWith (by simp [RdbResponse]) (fun f hf => rdbResponse_of_sticky (h.faultSticky f hf))
    (whenMode_answersWith (by simp [RdbResponse]) readByte_answersWith) e

theorem exec_close_answersWith {imm : Byte} (e : exec (.close imm) s = .next t) :
    AnswersWith CloseResponse s t := by
  have hok : CloseResponse .ok := by simp [CloseResponse]
  rw [exec, execClose] at e
  split at e
  · cases e
    exact .of_response hok rfl
  · split at e
    · exact closeStream_answersWith (s := { s with closed := true }) e
    · cases e
      exact .of_response hok rfl

theorem exec_flush_answersWith {imm : Byte} (e : exec (.flush imm) s = .next t) :
    AnswersWith (fun r => r ∈ [.ok, .fault .streamClosed] ∨ s.fault.map .fault = some r) s t :=
  whenLive_answersWith (by simp) (fun f hf => .inr (by simp [hf]))
    (fun e => by cases e; exact .of_response (r := .ok) (by simp) rfl) e

/-- Settles O51: each command's one response is of its kind. -/
theorem responsesOfCommands : Obligations.ResponsesOfCommands := fun _ _ _ _ h hresp =>
  ⟨fun e => (exec_wrb_answersWith e).holds hresp, fun e => (exec_rdb_answersWith h e).holds hresp,
    fun e => (exec_close_answersWith e).holds hresp, fun e => (exec_flush_answersWith e).holds hresp⟩

end Sys2Proof.Machine
end

section
/-! SUPPORT. The Sequence Key steps run by themselves, and path independence (O36, O37). -/

namespace Sys2Proof.Machine

/-! ## The key of a byte list (40_sequence_key.md R106, R107) -/

theorem skFromBytes_eq_mk (q : ByteSeq) : skFromBytes q = ⟨q, hash q⟩ := by
  calc skFromBytes q = ⟨(skFromBytes q).bytes, (skFromBytes q).hash⟩ := rfl
    _ = ⟨q, hash q⟩ := by rw [skFromBytes_bytes, skFromBytes_hash]

/-- R106: the bulk form is "empty-then-appending each byte in order". -/
theorem skFromBytes_eq_foldl (q : ByteSeq) : skFromBytes q = q.foldl skAppend emptyKey := by
  cases q with
  | nil => rfl
  | cons b q => rfl

/-- R107: a key built in bulk and then extended is the key built in bulk from all the bytes. -/
theorem foldl_skAppend_skFromBytes (q r : ByteSeq) :
    r.foldl skAppend (skFromBytes q) = skFromBytes (q ++ r) := by
  rw [skFromBytes_eq_foldl, skFromBytes_eq_foldl, List.foldl_append]

theorem skEq_iff {k l : Key} : skEq k l = true ↔ k.bytes = l.bytes := decide_eq_true_iff

/-- A consistent key (R100) is the key of its bytes. -/
theorem eq_skFromBytes_of_keyConsistent {k : Key} (h : keyConsistent k = true) : k = skFromBytes k.bytes := by
  have hk : k.hash = hash k.bytes := of_decide_eq_true h
  rw [skFromBytes_eq_mk, ← hk]

theorem exec_skFromBytes (q : ByteSeq) (s : State) :
    exec (.skFromBytes q) s = .next (giveResult (.key ⟨q, hash q⟩) s) := by
  rw [← skFromBytes_eq_mk]
  rfl

/-- Settles O37: each key is the key of its bytes, which appending in order extends. -/
theorem keysDoNotDependOnPath : Obligations.KeysDoNotDependOnPath := by
  refine ⟨fun s q => exec_skFromBytes q s, foldl_skAppend_skFromBytes, fun k l hk hl hkl => ?_⟩
  calc k = skFromBytes k.bytes := eq_skFromBytes_of_keyConsistent hk
    _ = skFromBytes l.bytes := by rw [skEq_iff.1 hkl]
    _ = l := (eq_skFromBytes_of_keyConsistent hl).symm

/-! ## The steps by themselves -/

/-- HASH_STEP (R104) at the parameters of 00_scope.md R7. -/
theorem hashStep_eq (h : HashWord) (b : Byte) : hashStep h b = h * 31 + b.zeroExtend 32 := rfl

theorem hash_eq_foldl (q : ByteSeq) :
    hash q = q.foldl (fun h c => h * 31 + c.zeroExtend 32) Config.hashSeed := by
  simp only [← hashStep_eq, hash, hashFrom]

/-- Settles O36: each step gives its function's value, whose hash is one HASH_STEP or their fold. -/
theorem sequenceKeyOperations : Obligations.SequenceKeyOperations := by
  intro s b k l q
  rw [← hashStep_eq, ← hashStep_eq, ← hash_eq_foldl]
  exact ⟨rfl, rfl, rfl, rfl⟩

end Sys2Proof.Machine
end

section
/-! SUPPORT. The encoder: ENCODE_STEP and ENCODE_FLUSH, by themselves and inside WRB and CLOSE (O21, O31,
O39, O54). -/

namespace Sys2Proof.Machine

variable {s : State}

/-! ## WRB that extends the match -/

/-- WRB of a byte that extends the match answers with no bit written (41_encoder.md R121,
44_stream_commands.md R205). -/
theorem writeByte_extend {b : Byte} {c : Nat} (h : revRead s (s.pending.getD [] ++ [b]) = some c) :
    writeByte b s = .next (respond .ok { s with pending := some (s.pending.getD [] ++ [b]) }) := by
  rw [writeByte, encodeStep_extend h, settleWith_val]

/-- Settles O21: the prologue passes, and ENCODE_STEP takes its match-extension case. -/
theorem wrbExtendsMatch : Obligations.WrbExtendsMatch := by
  intro s b c hlive hm hc
  rw [exec_wrb_live b hlive hm, writeByte_extend hc]
  rfl

/-! ## CLOSE -/

theorem closeStream_noCode (hp : s.pending = none) :
    closeStream s = writeBits .command (eoiBits s.nextKey) s := by
  rw [closeStream, encodeFlush_noCode hp, settleWith_val, closingBits]

theorem closeStream_code {p : ByteSeq} {c : Nat} (hp : s.pending = some p) (hc : revRead s p = some c) :
    closeStream s = writeBits .command (codeBits c (bits (s.nextKey - 1)) ++ eoiBits s.nextKey)
      { s with pending := none } := by
  rw [closeStream, encodeFlush_code hp hc, settleWith_val, closingBits, widthEnc]

/-- The bits that ENCODE_FLUSH gives CLOSE to write: the code of PENDING in `bits(NEXT_KEY - 1)`, none where
there is no PENDING (41_encoder.md R126). -/
def Flushes (s : State) (bs : List Bit) : Prop :=
  (s.pending = none ∧ bs = []) ∨
    ∃ p c, s.pending = some p ∧ revRead s p = some c ∧ bs = codeBits c (bits (s.nextKey - 1))

/-- CLOSE writes the flushed bits and the sentinel, and leaves no PENDING (R127, 44_stream_commands.md
R215). -/
theorem closeStream_flushes {bs : List Bit} (h : Flushes s bs) :
    closeStream s = writeBits .command (bs ++ List.replicate (bits (s.nextKey - 1)) true)
      { s with pending := none } := by
  rw [← eoiBits_eq]
  rcases h with ⟨hp, rfl⟩ | ⟨p, c, hp, hc, rfl⟩
  · rw [closeStream_noCode hp, List.nil_append, ← hp]
  · exact closeStream_code hp hc

/-- Settles O31: CLOSED is set first, and the primitive accepts the flushed bits and the sentinel. -/
theorem closeFlushesAndEnds : Obligations.CloseFlushesAndEnds := by
  intro s imm flushed more hlive hm hflush hwa
  have hflush' : Flushes { s with closed := true } flushed := hflush
  rw [exec_close_live imm hlive hm, closeStream_flushes hflush',
    writeBits_done (more := more) (by simpa using hwa)]
  simp [finishWrite, respond, responseWord]

/-! ## The steps by themselves -/

/-- ENCODE_STEP, run by itself, leaves its result (41_encoder.md R120, log 15). -/
theorem exec_encodeStep_val {b : Byte} {r : Option Nat} {t : State} (e : encodeStep b s = .val r t) :
    exec (.encodeStep b) s = .next (giveResult (encodeResult r) t) := by
  rw [exec, execEncodeStep, e, andThen_val, settleStep_val]

/-- ENCODE_FLUSH, run by itself, leaves its result (R120, log 15). -/
theorem exec_encodeFlush_val {r : Option Nat} {t : State} (e : encodeFlush s = .val r t) :
    exec .encodeFlush s = .next (giveResult (encodeResult r) t) := by
  rw [exec, execEncodeFlush, e, andThen_val, settleStep_val]

/-- Settles O39: each case of the two steps has a value, which is left as the result. -/
theorem encoderStepCases : Obligations.EncoderStepCases := by
  intro s b
  refine ⟨fun c hc => ?_, fun p c hroom hp habsent hc => ?_, fun hp => ?_, fun p c hp hc => ?_⟩
  · exact exec_encodeStep_val (encodeStep_extend hc)
  · exact exec_encodeStep_val (encodeStep_emit hp habsent hc (dictionaryFull_eq_false hroom))
  · exact exec_encodeFlush_val (encodeFlush_noCode hp)
  · exact exec_encodeFlush_val (encodeFlush_code hp hc)

/-! ## Greedy longest match -/

/-- A key's code holds the key (10_state.md R26). -/
theorem fwdRead_of_revRead (h : BlockInv s) {k : ByteSeq} {c : Nat} (hc : revRead s k = some c) :
    fwdRead s c = some k := by
  obtain ⟨hk, -⟩ := (h.revLeast k c).1 hc
  exact hk

/-- No code holds a key that REV does not have (R26). -/
theorem fwdRead_ne_of_absent (h : BlockInv s) {k : ByteSeq} (habsent : revRead s k = none) (d : Nat) :
    fwdRead s d ≠ some k := fun hd => by
  have hsome := revRead_isSome_of_fwdRead h hd
  simp [habsent] at hsome

/-- A present code is below NEXT_KEY (R24). -/
theorem lt_nextKey_of_fwdRead (h : BlockInv s) {k : ByteSeq} {c : Nat} (hc : fwdRead s c = some k) :
    c < s.nextKey := (h.present c).1 (by simp [hc])

/-- A present code fits the width of NEXT_KEY after the next Learn (43_width_and_serdes.md R177). -/
theorem lt_two_pow_bits_of_fwdRead (h : BlockInv s) {k : ByteSeq} {c : Nat} (hc : fwdRead s c = some k) :
    c < 2 ^ bits s.nextKey :=
  Nat.lt_of_lt_of_le (lt_nextKey_of_fwdRead h hc) (le_two_pow_bits s.nextKey)

/-- Settles O54: in the invariant with room ENCODE_STEP extends or emits, and the code it emits is present,
so below the old NEXT_KEY, which fits its width. -/
theorem encoderIsGreedyAndLossless : Obligations.EncoderIsGreedyAndLossless := by
  intro s b h _ hroom
  rcases encodeStep_cases b s with ⟨c, -, e⟩ | ⟨habsent, hn, -⟩ | ⟨p, c, -, -, -, hfull, -⟩ |
    ⟨p, c, hp, habsent, hc, -, e⟩
  · exact .inl ⟨_, e, rfl, rfl⟩
  · obtain ⟨c, hc⟩ := exists_code_of_absent h habsent
    simp [hn] at hc
  · simp [dictionaryFull_eq_false hroom] at hfull
  · have hf := fwdRead_of_revRead h hc
    have hlt := lt_nextKey_of_fwdRead h hf
    exact .inr ⟨_, c, p, e, hp, hf, fwdRead_ne_of_absent h habsent, rfl, rfl, Nat.succ_le_succ hlt,
      lt_two_pow_bits_of_fwdRead h hf⟩

end Sys2Proof.Machine
end

section
/-! SUPPORT. The decoder's classes that learn nothing, by themselves and inside RDB (O26, O40, O56). -/

namespace Sys2Proof.Machine

variable {s : State}

/-! ## The classes by themselves -/

/-- The class of a first code that has a key (42_decoder.md R143). -/
theorem decodeClass_first {v : Nat} {q : ByteSeq} (hq : fwdRead s v = some q) :
    decodeClass .first v s = .val (some q) { s with prev := some q } := by
  simp [decodeClass, decodeFirst, hq]

theorem classOf_eoi {v w : Nat} (h : v = 2 ^ w - 1) : classOf s v w = .eoi := wireClass_eoi h

theorem classOf_first {v w : Nat} (hp : s.prev = none) (he : v ≠ 2 ^ w - 1) (hv : v < 256) :
    classOf s v w = .first := by
  rw [classOf, hp, wireClass_first he hv]

theorem classOf_firstCorrupt {v w : Nat} (hp : s.prev = none) (he : v ≠ 2 ^ w - 1) (hv : 256 ≤ v) :
    classOf s v w = .firstCorrupt := by
  rw [classOf, hp, wireClass_firstCorrupt he hv]

theorem classOf_corrupt {v w : Nat} (hp : s.prev ≠ none) (he : v ≠ 2 ^ w - 1) (hv : s.nextKey < v) :
    classOf s v w = .corrupt := by
  obtain ⟨p, hp'⟩ := Option.ne_none_iff_exists'.1 hp
  rw [classOf, hp', wireClass_corrupt he hv]

/-- A raised CORRUPT_STREAM, where no fault is stored (60_exceptions.md R241, R245). -/
theorem settleDecode_corruptStream (hf : s.fault = none) :
    settleDecode (.raised .corruptStream s) =
      .next { s with fault := some .corruptStream, responses := s.responses ++ [0xF01] } := by
  rw [settleDecode, andThen_raised, settleStep_raised, raise_of_none rfl hf]
  rfl

/-- Settles O40: each row runs as its class, which gives EOI, the first code's key, or the fault. -/
theorem wireCodesThatLearnNothing : Obligations.WireCodesThatLearnNothing := by
  intro s v w
  refine ⟨fun he => ?_, fun q he hp hv hq => ?_, fun he hp hv hf => ?_, fun he hp hv hf => ?_⟩
  · rw [exec, execWireEoi, execClass_of_classOf (classOf_eoi he)]
    rfl
  · rw [exec, execWireFirst, execClass_of_classOf (classOf_first hp he hv), decodeClass_first hq]
    rfl
  · rw [exec, execWireFirstCorrupt, execClass_of_classOf (classOf_firstCorrupt hp he hv)]
    exact settleDecode_corruptStream hf
  · rw [exec, execWireCorrupt, execClass_of_classOf (classOf_corrupt hp he hv)]
    exact settleDecode_corruptStream hf

/-! ## Inside RDB -/

/-- RDB on a code that arrives whole serves what the code's class decodes (44_stream_commands.md R210). -/
theorem exec_rdb_class {imm : Byte} {bs : List Bit} {more : List ReadAnswer} {c : WireClass}
    (hread : ReadsCode s) (hlen : bs.length = bits (s.nextKey + 1)) (hra : s.readAnswers = bs.map .bit ++ more)
    (hc : classOf s (assemble bs) (bits (s.nextKey + 1)) = c) :
    exec (.rdb imm) s =
      settleWith (decodeClass c (assemble bs) { s with readAnswers := more }) serveDecoded := by
  rw [exec_rdb_value imm hread hlen hra, decodeAndServe, decodeStep, ← hc]
  rfl

/-- Settles O26: the code's class is a first code, whose key becomes PREV and the buffer. -/
theorem rdbServesFirstCode : Obligations.RdbServesFirstCode := by
  intro s imm h q bs more hread hp hlen hra he hv hq
  have hq' : fwdRead { s with readAnswers := more } (assemble bs) = some (h :: q) := hq
  rw [exec_rdb_class hread hlen hra (classOf_first hp he hv), decodeClass_first hq']
  rfl

/-- The width of a power of two is its exponent (43_width_and_serdes.md R170). -/
theorem bits_two_pow {m : Nat} (hm : 9 ≤ m) : bits (2 ^ m) = m := by
  have hknee : 2 ^ 9 ≤ 2 ^ m := Nat.pow_le_pow_right (by decide) hm
  have hge : m ≤ bits (2 ^ m) := (Nat.pow_le_pow_iff_right (by decide)).1 (le_two_pow_bits (2 ^ m))
  have hle : bits (2 ^ m) ≤ m := Nat.not_lt.1 fun hlt => (two_pow_lt_of_lt_bits hknee hlt).false
  exact hle.antisymm hge

/-- Settles O56: at NEXT_KEY = 2^m - 1 the decoder reads m bits, in which NEXT_KEY is the sentinel, and the
sentinel's test comes first (30_encoding.md R74). -/
theorem unseenCodeCollidesWithEoi : Obligations.UnseenCodeCollidesWithEoi := by
  intro s imm m bs more hm hn hread hlen hv hra
  have hwidth : bits (s.nextKey + 1) = m := by
    rw [hn, Nat.sub_add_cancel Nat.one_le_two_pow, bits_two_pow hm]
  have hsentinel : assemble bs = 2 ^ bits (s.nextKey + 1) - 1 := by rw [hv, hwidth, hn]
  rw [exec_rdb_class hread (hlen.trans hwidth.symm) hra (classOf_eoi hsentinel)]
  rfl

end Sys2Proof.Machine
end

section
/-! SUPPORT. The decoder mirrors the encoder, one entry behind (O58). -/

namespace Sys2Proof.Machine

variable {e e' d : State}

/-! ## What ENCODE_STEP did, by its result -/

/-- An ENCODE_STEP that gives no code has extended the match (41_encoder.md R121). -/
theorem eq_of_encodeStep_noCode {b : Byte} (h : encodeStep b e = .val none e') :
    e' = { e with pending := some (e.pending.getD [] ++ [b]) } := by
  rcases encodeStep_cases b e with ⟨_, -, h'⟩ | ⟨-, -, h'⟩ | ⟨_, _, -, -, -, -, h'⟩ | ⟨_, _, -, -, -, -, h'⟩ <;>
    rw [h'] at h <;> cases h
  rfl

/-- An ENCODE_STEP that gives a code gives that of PENDING, and has learned PENDING with the byte (R122). -/
theorem emitted_of_encodeStep_code {b : Byte} {c : Nat} (h : encodeStep b e = .val (some c) e') :
    ∃ p, e.pending = some p ∧ revRead e p = some c ∧ dictionaryFull e = false ∧
      e' = { learned (p ++ [b]) e with pending := some [b] } := by
  rcases encodeStep_cases b e with ⟨_, -, h'⟩ | ⟨-, -, h'⟩ | ⟨_, _, -, -, -, -, h'⟩ |
    ⟨p, _, hp, -, hc, hroom, h'⟩ <;> rw [h'] at h <;> cases h
  exact ⟨p, hp, hc, hroom, rfl⟩

/-! ## Mirrored again after a code -/

/-- Once the decoder knows every code the encoder had before an emission, and its PREV is the match just
emitted, the two are mirrored: the entry it lacks is the one the encoder has just learned (42_decoder.md
R151). -/
theorem mirrors_of_caughtUp {p : ByteSeq} (b : Byte) (hw : Memory.wf e) (hn : d.nextKey = e.nextKey)
    (hagree : ∀ c, c < e.nextKey → fwdRead d c = fwdRead e c) (hp : d.prev = some p)
    (hcap : d.capacity = e.capacity) :
    Mirrors { learned (p ++ [b]) e with pending := some [b] } d where
  behind := congrArg (· + 1) hn.symm
  agree c hc := by
    rw [hn] at hc
    calc fwdRead d c = fwdRead e c := hagree c hc
      _ = fwdRead (learned (p ++ [b]) e) c := by rw [fwdRead_learned e _ c hw, if_neg hc.ne]
  last := ⟨p, b, [], hp, (fwdRead_learned e (p ++ [b]) d.nextKey hw).trans (if_pos hn), rfl⟩
  sameCapacity := by simpa using hcap

/-! ## The codes in mirrored states -/

/-- Learning PREV with the first byte of the encoder's match closes the gap of one entry. -/
theorem Mirrors.fwdRead_learned_eq {p q : ByteSeq} {b : Byte} (h : Mirrors e d) (hw : Memory.wf d)
    (hprev : d.prev = some p) (hpend : e.pending = some (b :: q)) {c : Nat} (hc : c < e.nextKey) :
    fwdRead (learned (p ++ [b]) d) c = fwdRead e c := by
  obtain ⟨p', b', q', hprev', hlast, hpend'⟩ := h.last
  obtain rfl : p = p' := Option.some.inj (hprev.symm.trans hprev')
  obtain ⟨rfl, -⟩ := List.cons.inj (Option.some.inj (hpend.symm.trans hpend'))
  rw [fwdRead_learned d _ c hw]
  split
  · next hlst => rw [hlst, hlast]
  · next hne =>
    have hbehind := h.behind
    exact h.agree c (by omega)

/-- A code's keys on the two sides begin with the same byte, whatever byte the decoder learns PREV with: they
are one key below NEXT_KEY, and at NEXT_KEY both begin with PREV, which is not empty. -/
theorem Mirrors.head_eq {p q r : ByteSeq} {a b : Byte} {c : Nat} (h : Mirrors e d) (hd : BlockInv d)
    (hprev : d.prev = some p) (hc : c < e.nextKey) (hdec : fwdRead (learned (p ++ [a]) d) c = some (a :: r))
    (henc : fwdRead e c = some (b :: q)) : a = b := by
  rw [fwdRead_learned d _ c hd.canonical] at hdec
  split at hdec
  · next hlst =>
    obtain ⟨p', b', q', hprev', hlast, -⟩ := h.last
    obtain rfl : p = p' := Option.some.inj (hprev.symm.trans hprev')
    obtain ⟨x, u, rfl⟩ := List.exists_cons_of_ne_nil (hd.prevNonempty p hprev)
    rw [hlst, hlast] at henc
    obtain ⟨hxa, -⟩ := List.cons.inj (Option.some.inj hdec)
    obtain ⟨hxb, -⟩ := List.cons.inj (Option.some.inj henc)
    exact hxa.symm.trans hxb
  · next hne =>
    have hbehind := h.behind
    rw [h.agree c (by omega), henc] at hdec
    obtain ⟨hba, -⟩ := List.cons.inj (Option.some.inj hdec)
    exact hba.symm

/-- The decoder has room whenever the encoder has (20_memory.md R54). -/
theorem Mirrors.dictionaryFull_eq_false (h : Mirrors e d) (hroom : dictionaryFull e = false) :
    dictionaryFull d = false :=
  Machine.dictionaryFull_eq_false fun n hn => by
    have hlt := hasRoom_of_eq_false hroom n (h.sameCapacity ▸ hn)
    have hbehind := h.behind
    omega

/-- DECODE_STEP on the code of the encoder's match resolves it and learns the entry that it lacks: a known
code by agreement, the unseen code because it is PREV with its own first byte (42_decoder.md R145, R146). -/
theorem Mirrors.decodeStep_eq {p q : ByteSeq} {b : Byte} {c w : Nat} (h : Mirrors e d) (he : BlockInv e)
    (hd : BlockInv d) (hroom : dictionaryFull e = false) (hprev : d.prev = some p)
    (hpend : e.pending = some (b :: q)) (hc : revRead e (b :: q) = some c) (hne : c ≠ eoiPattern w) :
    decodeStep c w d = .val (some (b :: q)) { learned (p ++ [b]) d with prev := some (b :: q) } := by
  have henc : fwdRead e c = some (b :: q) := fwdRead_of_revRead he hc
  have hlt : c < e.nextKey := lt_nextKey_of_fwdRead he henc
  have hle : c ≤ d.nextKey := Nat.le_of_lt_succ (hlt.trans_eq h.behind)
  obtain ⟨a, r, hstep, hdec⟩ := decodeStep_resolves hd hne hprev hle
  obtain rfl : a = b := h.head_eq hd hprev hlt hdec henc
  rw [h.fwdRead_learned_eq hd.canonical hprev hpend hlt, henc] at hdec
  obtain rfl : q = r := by simpa using hdec
  rw [hstep, learnResolved_val (h.dictionaryFull_eq_false hroom)]

/-! ## The three clauses -/

/-- The first code: the dictionaries are the seeding, so the decoder's key is the encoder's match
(42_decoder.md R143). -/
theorem mirrors_first {b : Byte} {c : Nat} (he : BlockInv e) (hd : BlockInv d) (hen : e.nextKey = 256)
    (hdn : d.nextKey = 256) (hprev : d.prev = none) (hcap : d.capacity = e.capacity)
    (h : encodeStep b e = .val (some c) e') :
    bits (e'.nextKey - 1) = bits (d.nextKey + 1) ∧
    ∃ p d', e.pending = some p ∧ decodeStep c (bits (d.nextKey + 1)) d = .val (some p) d' ∧
      Mirrors e' d' := by
  obtain ⟨p, hpend, hc, -, rfl⟩ := emitted_of_encodeStep_code h
  have hwidth : bits (d.nextKey + 1) = 9 := by rw [hdn, bits_low (by decide)]
  have henc : fwdRead e c = some p := fwdRead_of_revRead he hc
  have hlt : c < 256 := hen ▸ lt_nextKey_of_fwdRead he henc
  have hagree : ∀ i, i < 256 → fwdRead d i = fwdRead e i := fun i hi => by rw [hd.seeded i hi, he.seeded i hi]
  have hne : c ≠ 2 ^ 9 - 1 := by omega
  refine ⟨?_, p, { d with prev := some p }, hpend, ?_, ?_⟩
  · rw [hwidth]
    exact bits_low (by simp [hen])
  · rw [hwidth, decodeStep, classOf_first hprev hne hlt, decodeClass_first ((hagree c hlt).trans henc)]
  · exact mirrors_of_caughtUp b he.canonical (hdn.trans hen.symm) (fun i hi => hagree i (hen ▸ hi)) rfl hcap

/-- A later code: both sides use one width (43_width_and_serdes.md R175), and the decoder resolves the code
and catches up. -/
theorem Mirrors.after_code {b : Byte} {c : Nat} (hm : Mirrors e d) (he : BlockInv e) (hd : BlockInv d)
    (h : encodeStep b e = .val (some c) e') :
    bits (e'.nextKey - 1) = bits (d.nextKey + 1) ∧
    (c ≠ eoiPattern (bits (d.nextKey + 1)) →
      ∃ p d', e.pending = some p ∧ decodeStep c (bits (d.nextKey + 1)) d = .val (some p) d' ∧
        Mirrors e' d') := by
  obtain ⟨p, hpend, hc, hroom, rfl⟩ := emitted_of_encodeStep_code h
  refine ⟨congrArg bits hm.behind, fun hne => ?_⟩
  obtain ⟨p', a, q, hprev, -, hpend'⟩ := hm.last
  obtain rfl : p = a :: q := Option.some.inj (hpend.symm.trans hpend')
  refine ⟨a :: q, _, hpend, hm.decodeStep_eq he hd hroom hprev hpend hc hne, ?_⟩
  exact mirrors_of_caughtUp b he.canonical hm.behind.symm
    (fun _ hi => hm.fwdRead_learned_eq hd.canonical hprev hpend hi) rfl (by simpa using hm.sameCapacity)

/-- A byte that extends the match keeps its first byte. -/
theorem Mirrors.after_extension {b : Byte} (hm : Mirrors e d) (h : encodeStep b e = .val none e') : Mirrors e' d := by
  obtain rfl := eq_of_encodeStep_noCode h
  obtain ⟨p, a, q, hprev, hlast, hpend⟩ := hm.last
  exact ⟨hm.behind, hm.agree, ⟨p, a, q ++ [b], hprev, hlast, by simp [hpend]⟩, hm.sameCapacity⟩

/-- Settles O58: the first code from fresh dictionaries, each later one, and the bytes between them. -/
theorem decoderMirrorsEncoder : Obligations.DecoderMirrorsEncoder :=
  ⟨fun _ _ _ _ _ he hd _ hen hdn hprev hcap h => mirrors_first he hd hen hdn hprev hcap h,
    fun _ _ _ _ _ he hd _ hm h => hm.after_code he hd h,
    fun _ _ _ _ hm h => hm.after_extension h⟩

end Sys2Proof.Machine
end

section
/-! SUPPORT. The width of a code as the least exponent, and what a code or the sentinel becomes in a width
that does not fit it (O43, O55, O57). -/

namespace Sys2Proof.Machine

variable {s : State}

/-! ## The least width -/

/-- Settles O43: the width holds its argument, and from the knee on no smaller one does. -/
theorem bitsIsLeastWidth : Obligations.BitsIsLeastWidth := by
  intro s n
  refine ⟨bits n, rfl, bits_low, fun hknee => ⟨le_two_pow_bits n, fun u hu => ?_⟩⟩
  exact Nat.not_lt.1 fun hlt => (two_pow_lt_of_lt_bits hknee hlt).not_ge hu

/-! ## A flush code that overflows -/

/-- The bits of `2^w` below bit `w` are all 0. -/
theorem codeBits_two_pow (w : Nat) : codeBits (2 ^ w) w = List.replicate w false := by
  rw [codeBits_eq_map_testBit, List.eq_replicate_iff]
  refine ⟨by simp, fun b hb => ?_⟩
  obtain ⟨i, hi, rfl⟩ := List.mem_map.1 hb
  have hiw : i < w := List.mem_range.1 hi
  exact Nat.testBit_two_pow_of_ne (by omega)

/-- A code of the dictionary that does not fit the flush width is `NEXT_KEY - 1`, and the width's power of
two is its value: it is at most `NEXT_KEY - 1`, which is at most that power (10_state.md R24,
43_width_and_serdes.md R170). -/
theorem eq_two_pow_of_flush_overflow (h : BlockInv s) {k : ByteSeq} {c : Nat} (hc : revRead s k = some c)
    (hover : ¬ c < 2 ^ bits (s.nextKey - 1)) :
    c = s.nextKey - 1 ∧ s.nextKey - 1 = 2 ^ bits (s.nextKey - 1) := by
  have hlt : c < s.nextKey := lt_nextKey_of_fwdRead h (fwdRead_of_revRead h hc)
  have hfit := le_two_pow_bits (s.nextKey - 1)
  omega

/-- Settles O55: the overflowing code is the power of two of its width, whose low bits are 0. -/
theorem flushOverflowsExactlyAtPowers : Obligations.FlushOverflowsExactlyAtPowers := by
  intro s p c h _ _ hc
  refine ⟨⟨fun hover => ?_, ?_⟩, fun hover => ?_⟩
  · obtain ⟨hlast, hpow⟩ := eq_two_pow_of_flush_overflow h hc hover
    exact ⟨_, nine_le_bits _, hpow, hlast⟩
  · rintro ⟨m, hm, hpow, hlast⟩
    rw [hlast, hpow, bits_two_pow hm]
    exact lt_irrefl _
  · obtain ⟨hlast, hpow⟩ := eq_two_pow_of_flush_overflow h hc hover
    rw [hlast.trans hpow, codeBits_two_pow]

/-! ## A sentinel read one bit too wide -/

/-- One above a power of two takes one bit more (43_width_and_serdes.md R170). -/
theorem bits_two_pow_add_one {m : Nat} (hm : 9 ≤ m) : bits (2 ^ m + 1) = m + 1 := by
  have hknee : 2 ^ 9 ≤ 2 ^ m := Nat.pow_le_pow_right (by decide) hm
  rw [bits_high (by omega), Nat.add_sub_cancel, Nat.log2_two_pow]

/-- The value of `w` one-bits (30_encoding.md R73). -/
theorem assemble_replicate_true (w : Nat) : assemble (List.replicate w true) = 2 ^ w - 1 := by
  rw [← codeBits_ones w 0, assemble_codeBits]
  exact Nat.mod_eq_of_lt (Nat.sub_one_lt (Nat.two_pow_pos w).ne')

/-- One more bit doubles the value and is added to it (30_encoding.md R76). -/
theorem assemble_append_singleton (bs : List Bit) (b : Bit) :
    assemble (bs ++ [b]) = 2 * assemble bs + b.toNat := assembleFrom_append 0 bs [b]

/-- RDB on the sentinel of the decoder's width ends the stream (44_stream_commands.md R212). -/
theorem exec_rdb_eoi {imm : Byte} {more : List ReadAnswer} (hread : ReadsCode s)
    (hra : s.readAnswers = List.replicate (bits (s.nextKey + 1)) (.bit true) ++ more) :
    exec (.rdb imm) s = .next (endOfStream { s with readAnswers := more }) := by
  rw [exec_rdb_class (bs := List.replicate (bits (s.nextKey + 1)) true) hread (by simp) (by simpa using hra)
    (classOf_eoi (assemble_replicate_true _))]
  rfl

/-- RDB on a source that ends inside the code ends the stream (43_width_and_serdes.md R181). -/
theorem exec_rdb_physEnd {imm : Byte} {bs : List Bit} {more : List ReadAnswer} (hread : ReadsCode s)
    (hlen : bs.length < bits (s.nextKey + 1)) (hra : s.readAnswers = bs.map .bit ++ .endOfData :: more) :
    exec (.rdb imm) s = .next (endOfStream { s with readAnswers := more }) := by
  rw [exec_rdb_reads imm hread, readBits, pullBits_physEnd bs _ 0 s more hlen hra]
  rfl

/-- RDB on a code above NEXT_KEY raises CORRUPT_STREAM (60_exceptions.md R245). -/
theorem exec_rdb_corrupt {imm : Byte} {bs : List Bit} {more : List ReadAnswer} (hread : ReadsCode s)
    (hlen : bs.length = bits (s.nextKey + 1)) (hra : s.readAnswers = bs.map .bit ++ more)
    (hprev : s.prev ≠ none) (he : assemble bs ≠ 2 ^ bits (s.nextKey + 1) - 1) (hv : s.nextKey < assemble bs) :
    exec (.rdb imm) s = .next { s with
      fault := some .corruptStream
      readAnswers := more
      responses := s.responses ++ [0xF01] } := by
  have ⟨⟨_, hfault⟩, _⟩ := hread
  rw [exec_rdb_class hread hlen hra (classOf_corrupt hprev he hv)]
  exact congrArg Host.Outcome.next (raise_of_none (s := { s with readAnswers := more }) rfl hfault)

/-- Settles O57: the decoder reads `m + 1` bits, so the bit after the sentinel's decides: a 1 makes the wider
sentinel, the end of the data cuts the code short, and a 0 makes `2^(m+1) - 2`, which is above NEXT_KEY. -/
theorem eoiWidthHazard : Obligations.EoiWidthHazard := by
  intro s imm m more hm hn hprev hread
  have hwidth : bits (s.nextKey + 1) = m + 1 := by rw [hn, bits_two_pow_add_one hm]
  refine ⟨?_, fun hzero => ?_⟩
  · rintro (hone | hend)
    · exact exec_rdb_eoi hread (by rw [hone, hwidth, List.replicate_succ', List.append_assoc]; rfl)
    · exact exec_rdb_physEnd (bs := List.replicate m true) hread (by simp [hwidth]) (by simpa using hend)
  · have hvalue : assemble (List.replicate m true ++ [false]) = 2 ^ (m + 1) - 2 := by
      rw [assemble_append_singleton, assemble_replicate_true, Nat.pow_succ, Bool.toNat_false]
      omega
    have hbig : 2 ^ 9 ≤ 2 ^ m := Nat.pow_le_pow_right (by decide) hm
    have hdouble : 2 ^ (m + 1) = 2 * 2 ^ m := Nat.pow_succ'
    exact exec_rdb_corrupt (bs := List.replicate m true ++ [false]) hread (by simp [hwidth])
      (by simpa using hzero) hprev (by rw [hvalue, hwidth]; omega) (by rw [hvalue, hn]; omega)

end Sys2Proof.Machine
end

section
/-! SUPPORT. The commands of the host: the order of the checks, the answers that change nothing, and what
WRB, RDB and CLOSE leave unchanged whatever they answer (O14, O15, O17, O19, O23, O24, O25, O30, O32, O33). -/

namespace Sys2Proof.Machine

variable {s t u : State}

/-! ## The prologue (44_stream_commands.md R200) -/

theorem whenLive_closed (h : s.closed = true) (k : Out) :
    whenLive s k = .next { s with responses := s.responses ++ [0xF04] } := if_pos h

theorem whenLive_fault {f : FaultCode} (hc : s.closed = false) (hf : s.fault = some f) (k : Out) :
    whenLive s k = .next { s with responses := s.responses ++ [responseWord (.fault f)] } := by
  simp [whenLive, hc, hf, respond]

theorem whenMode_same {m : Mode} (h : s.mode = m) (k : Out) : whenMode m s k = k := if_pos h

theorem whenMode_other {m : Mode} (h : s.mode ≠ m) (k : Out) :
    whenMode m s k = .next { s with responses := s.responses ++ [0xF03] } := if_neg h

theorem mode_cases (s : State) : s.mode = .compress ∨ s.mode = .decompress := by
  cases s.mode
  · exact .inl rfl
  · exact .inr rfl

/-! ## Opcodes (30_encoding.md R81) -/

/-- The opcodes without a command (R225). -/
def reservedOps : List (BitVec 4) := [0x0, 0x9, 0xA, 0xB, 0xC, 0xD, 0xE, 0xF]

/-- The opcodes of the random-access commands (R220 to R223). -/
def randomAccessOps : List (BitVec 4) := [0x5, 0x6, 0x7, 0x8]

theorem mem_reservedOps : ∀ op : BitVec 4, op = 0x0 ∨ 0x9 ≤ op → op ∈ reservedOps := by decide

theorem mem_randomAccessOps :
    ∀ op : BitVec 4, ¬(op = 0x0 ∨ 0x9 ≤ op) → 0x5 ≤ op → op ∈ randomAccessOps := by decide

theorem streamOp_cases :
    ∀ op : BitVec 4, ¬(op = 0x0 ∨ 0x9 ≤ op) → ¬ 0x5 ≤ op → op = 0x1 ∨ op = 0x2 ∨ op = 0x3 ∨ op = 0x4 := by
  decide

theorem exec_decodeFields_reserved {op : BitVec 4} (h : op ∈ reservedOps) (imm : Byte) (s : State) :
    exec (decodeFields op imm) s = .next { s with responses := s.responses ++ [0xF05] } := by
  simp only [reservedOps, List.mem_cons, List.not_mem_nil, or_false] at h
  rcases h with rfl | rfl | rfl | rfl | rfl | rfl | rfl | rfl <;> rfl

theorem exec_decodeFields_randomAccess {op : BitVec 4} (h : op ∈ randomAccessOps) (imm : Byte) (s : State) :
    exec (decodeFields op imm) s = .next { s with responses := s.responses ++ [0xF02] } := by
  simp only [randomAccessOps, List.mem_cons, List.not_mem_nil, or_false] at h
  rcases h with rfl | rfl | rfl | rfl <;> rfl

/-- Settles O14: the opcode decides as far as CLOSE, then the lifecycle checks, then the mode. -/
theorem commandPriority : Obligations.CommandPriority := by
  intro x s
  rw [decodeWord]
  generalize opField x = op
  generalize immField x = imm
  by_cases hres : op = 0x0 ∨ 0x9 ≤ op
  · rw [if_pos hres, exec_decodeFields_reserved (mem_reservedOps op hres)]
  by_cases hra : 0x5 ≤ op
  · rw [if_neg hres, if_pos hra, exec_decodeFields_randomAccess (mem_randomAccessOps op hres hra)]
  rw [if_neg hres, if_neg hra]
  rcases streamOp_cases op hres hra with rfl | rfl | rfl | rfl
  -- WRB and RDB go on to the mode check; CLOSE and FLUSH are R200's own lines.
  · refine congrArg (whenLive s) (?_ : whenMode .compress s (writeByte imm s) = _)
    rcases mode_cases s with hm | hm
    · rw [whenMode_same hm, if_neg (by decide), if_neg (by simp [hm]), if_pos rfl]
    · rw [whenMode_other (by simp [hm]), if_neg (by decide), if_pos (.inl ⟨rfl, hm⟩)]
  · refine congrArg (whenLive s) (?_ : whenMode .decompress s (readByte s) = _)
    rcases mode_cases s with hm | hm
    · rw [whenMode_other (by simp [hm]), if_neg (by decide), if_pos (.inr ⟨rfl, hm⟩)]
    · rw [whenMode_same hm, if_neg (by decide), if_neg (by simp [hm]), if_neg (by decide)]
  · rfl
  · rfl

/-- Settles O15: each reserved row is what a reserved opcode decodes to. -/
theorem reservedOpcodesAreIllegal : Obligations.ReservedOpcodesAreIllegal := by
  intro s imm
  constructor
  · intro op h
    rw [decodeWord_append, exec_decodeFields_reserved h]
  · change ∀ i ∈ reservedOps.map (decodeFields · imm), _
    exact List.forall_mem_map.2 fun op h => exec_decodeFields_reserved h imm s

/-- Settles O17: the lifecycle checks are FLUSH's only ones. -/
theorem flushHasNoEffect : Obligations.FlushHasNoEffect := fun _ _ hlive => whenLive_live _ hlive

/-- Settles O19: the three commands make the lifecycle checks first. -/
theorem storedFaultIsReported : Obligations.StoredFaultIsReported := by
  intro s f imm hc hf i hi
  simp only [List.mem_cons, List.not_mem_nil, or_false] at hi
  rcases hi with rfl | rfl | rfl <;> exact whenLive_fault hc hf _

/-- A command with the lifecycle checks, where it answers: a response alone, or what it does once they have
passed. -/
theorem whenLive_next {k : Out} (e : whenLive s k = .next t) : (∃ r, t = respond r s) ∨ k = .next t := by
  rcases whenLive_cases s k with ⟨-, e'⟩ | ⟨f, -, -, e'⟩ | ⟨-, e'⟩ <;> rw [e'] at e
  · cases e
    exact .inl ⟨_, rfl⟩
  · cases e
    exact .inl ⟨_, rfl⟩
  · exact .inr e

/-- A command with the mode check, where it answers. -/
theorem whenMode_next {m : Mode} {k : Out} (e : whenMode m s k = .next t) :
    (∃ r, t = respond r s) ∨ k = .next t := by
  rcases whenMode_cases m s k with ⟨-, e'⟩ | ⟨-, e'⟩ <;> rw [e'] at e
  · cases e
    exact .inl ⟨_, rfl⟩
  · exact .inr e

theorem exec_wrb_next {b : Byte} (e : exec (.wrb b) s = .next t) :
    (∃ r, t = respond r s) ∨ writeByte b s = .next t :=
  (whenLive_next e).elim .inl whenMode_next

theorem exec_rdb_next {imm : Byte} (e : exec (.rdb imm) s = .next t) :
    (∃ r, t = respond r s) ∨ readByte s = .next t :=
  (whenLive_next e).elim .inl whenMode_next

/-! ## The encoder's side: WRB -/

/-- What the encoder's commands may change: the tables, PENDING, FAULT, the responses, the transfer and the
write port, on which bits are only added. -/
def EncoderFrame (s t : State) : Prop :=
  (∃ bs, t.outBits = s.outBits ++ bs) ∧ t = { s with
    fwd := t.fwd, rev := t.rev, nextKey := t.nextKey, pending := t.pending, fault := t.fault,
    transfer := t.transfer, responses := t.responses, outBits := t.outBits, writeAnswers := t.writeAnswers }

theorem EncoderFrame.trans (h : EncoderFrame s u) (h' : EncoderFrame u t) : EncoderFrame s t := by
  obtain ⟨⟨bs, hb⟩, hu⟩ := h
  obtain ⟨⟨bs', hb'⟩, ht⟩ := h'
  exact ⟨⟨bs ++ bs', by rw [hb', hb, List.append_assoc]⟩, ht.trans (by rw [hu])⟩

theorem encoderFrame_respond (r : Response) (s : State) : EncoderFrame s (respond r s) :=
  ⟨⟨[], by simp⟩, rfl⟩

theorem encoderFrame_raise (f : FaultCode) (s : State) : EncoderFrame s (raise f s) :=
  ⟨⟨[], by simp⟩, by rw [raise_eq]⟩

theorem encoderFrame_pending (p : Option ByteSeq) (s : State) : EncoderFrame s { s with pending := p } :=
  ⟨⟨[], by simp⟩, rfl⟩

theorem encoderFrame_learned (k : ByteSeq) (s : State) : EncoderFrame s (learned k s) :=
  ⟨⟨[], by simp⟩, by rw [learned_eq]⟩

/-- Bits accepted by the primitive. -/
theorem encoderFrame_write (bs : List Bit) (more : List WriteAnswer) (s : State) :
    EncoderFrame s { s with writeAnswers := more, outBits := s.outBits ++ bs } := ⟨⟨bs, rfl⟩, rfl⟩

theorem encoderFrame_hold (tr : Transfer) (s : State) : EncoderFrame s (hold tr s) := ⟨⟨[], by simp⟩, rfl⟩

theorem writeBits_encoderFrame {bs : List Bit} (e : writeBits .command bs s = .next t) : EncoderFrame s t := by
  rcases writeBits_cases .command bs s with ⟨more, -, e'⟩ | ⟨j, more, -, -, e'⟩ | ⟨j, -, -, e'⟩ <;>
    rw [e'] at e <;> cases e
  · exact (encoderFrame_write _ _ s).trans (encoderFrame_respond .ok _)
  · exact (encoderFrame_write _ _ s).trans (encoderFrame_raise _ _)
  · exact (encoderFrame_write _ _ s).trans (encoderFrame_hold _ _)

theorem writeByte_encoderFrame {b : Byte} (e : writeByte b s = .next t) : EncoderFrame s t := by
  rcases writeByte_cases b s with ⟨c, -, e'⟩ | ⟨-, e'⟩ | ⟨p, c, -, -, -, -, e'⟩ | ⟨p, c, -, -, -, -, e'⟩ <;>
    rw [e'] at e
  · cases e
    exact (encoderFrame_pending _ s).trans (encoderFrame_respond .ok _)
  · cases e
  · cases e
    exact encoderFrame_raise _ s
  · exact ((encoderFrame_learned _ s).trans (encoderFrame_pending _ _)).trans (writeBits_encoderFrame e)

/-- The key WRB learns is the candidate (41_encoder.md R122). -/
theorem writeByte_grows {b : Byte} (hw : Memory.wf s) (e : writeByte b s = .next t) :
    GrowsByAtMost (s.pending.getD [] ++ [b]) s t := by
  rcases writeByte_cases b s with ⟨c, -, e'⟩ | ⟨-, e'⟩ | ⟨p, c, -, -, -, -, e'⟩ | ⟨p, c, hp, -, -, -, e'⟩ <;>
    rw [e'] at e
  · cases e
    exact .inl (sameDictionary_refl s)
  · cases e
  · cases e
    exact .inl (sameDictionary_raise _ s)
  · obtain ⟨hn, hf, hr⟩ := (writeBits_keeps e).tables
    rw [hp]
    exact .inr (growsBy_learned s hw hn hf hr)

/-- Settles O23: WRB is a response alone, or ENCODE_STEP and the writing of its code. -/
theorem wrbFrame : Obligations.WrbFrame := by
  intro s t b hw e
  have ⟨hgrows, hfault, hbits, ht⟩ : GrowsByAtMost (s.pending.getD [] ++ [b]) s t ∧
      (∀ f, s.fault = some f → t.fault = some f) ∧ EncoderFrame s t := by
    rcases exec_wrb_next e with ⟨r, rfl⟩ | e
    · exact ⟨.inl (sameDictionary_refl s), fun _ => id, encoderFrame_respond r s⟩
    · exact ⟨writeByte_grows hw e, (writeByte_progresses e).advances.fault, writeByte_encoderFrame e⟩
  refine ⟨?_, hgrows, ?_, ?_, ?_, ?_, ?_, ?_, ?_, hfault, hbits⟩
  · rw [ht]; exact ⟨rfl, rfl, rfl, rfl, rfl, rfl⟩
  all_goals rw [ht]

/-! ## The encoder's side: CLOSE -/

/-- Everything CLOSE can do (R215, R216). -/
theorem exec_close_cases (imm : Byte) (s : State) :
    (s.closed = true ∧ exec (.close imm) s = .next (respond .ok s)) ∨
    (s.closed = false ∧ ¬(s.mode = .compress ∧ s.fault = none) ∧
      exec (.close imm) s = .next (respond .ok { s with closed := true })) ∨
    (Live s ∧ s.mode = .compress ∧ exec (.close imm) s = closeStream { s with closed := true }) := by
  cases hc : s.closed with
  | true => exact .inl ⟨rfl, if_pos hc⟩
  | false =>
    by_cases h : s.mode = .compress ∧ s.fault = none
    · obtain ⟨hm, hf⟩ := h
      exact .inr (.inr ⟨⟨hc, hf⟩, hm, exec_close_live imm ⟨hc, hf⟩ hm⟩)
    · exact .inr (.inl ⟨rfl, h, (if_neg (by simp [hc])).trans (if_neg h)⟩)

theorem closeStream_encoderFrame (e : closeStream s = .next t) : EncoderFrame s t := by
  rcases closeStream_cases s with ⟨-, e'⟩ | ⟨p, -, -, e'⟩ | ⟨p, c, -, -, e'⟩ <;> rw [e'] at e
  · exact writeBits_encoderFrame e
  · cases e
  · exact (encoderFrame_pending none s).trans (writeBits_encoderFrame e)

/-- Beside closing the stream, CLOSE only writes: the tables, the lifecycle and the decoder's side stay. -/
theorem exec_close_frame {imm : Byte} (e : exec (.close imm) s = .next t) :
    Keeps { s with closed := true } t ∧ EncoderFrame { s with closed := true } t := by
  rcases exec_close_cases imm s with ⟨hc, e'⟩ | ⟨-, -, e'⟩ | ⟨-, -, e'⟩ <;> rw [e'] at e
  · cases e
    have hs : { s with closed := true } = s := by rw [← hc]
    rw [hs]
    exact ⟨keeps_respond _ s, encoderFrame_respond _ s⟩
  · cases e
    exact ⟨keeps_respond _ _, encoderFrame_respond _ _⟩
  · exact ⟨closeStream_keeps e, closeStream_encoderFrame e⟩

/-- Settles O33: once CLOSED is set, CLOSE at most drains PENDING and writes. -/
theorem closeFrame : Obligations.CloseFrame := by
  intro s t imm e
  obtain ⟨⟨hadv, hn, hf, hr⟩, hbits, ht⟩ := exec_close_frame e
  refine ⟨?_, sameDictionary_of_eq s hn hf hr, ?_, ?_, ?_, ?_, ?_, ?_, ?_, hadv.fault, hbits⟩
  · rw [ht]; exact ⟨rfl, rfl, rfl, rfl, rfl, rfl⟩
  all_goals rw [ht]

theorem exec_rdb_closed (h : s.closed = true) (imm : Byte) :
    exec (.rdb imm) s = .next { s with responses := s.responses ++ [0xF04] } := whenLive_closed h _

/-- Settles O32: CLOSE only sets CLOSED, and the RDB after it meets the closed stream. -/
theorem closeWritesNothing : Obligations.CloseWritesNothing := by
  intro s imm hc h
  rcases exec_close_cases imm s with ⟨hc', -⟩ | ⟨-, -, e⟩ | ⟨⟨-, hf⟩, hm, -⟩
  · simp [hc] at hc'
  · exact ⟨_, e, rfl, exec_rdb_closed rfl imm⟩
  · simp [hf, hm] at h

/-! ## RDB -/

/-- Settles O24: the byte at CURSOR is there, so nothing is read. -/
theorem rdbServesBuffer : Obligations.RdbServesBuffer := by
  intro s imm b hlive hm hb
  rw [exec_rdb_live imm hlive hm, readByte_buffer hb]
  rfl

/-- Settles O25: the sentinel's class and a physical end both end the stream, and after the end there is
nothing to serve. -/
theorem rdbEndsStream : Obligations.RdbEndsStream := by
  intro s imm
  refine ⟨fun bs more hread h => ?_, fun hlive hm hcur hended => ?_⟩
  · rcases h with ⟨hlen, hv, hra⟩ | ⟨hlen, hra⟩
    · rw [exec_rdb_class hread hlen hra (classOf_eoi hv)]
      rfl
    · exact exec_rdb_physEnd hread hlen hra
  · rw [exec_rdb_live imm hlive hm, readByte_ended (List.getElem?_eq_none hcur) hended]
    rfl

/-- What RDB may change: the tables, PREV, the buffer, ENDED, FAULT, the responses, the transfer and the read
port. -/
def ReaderFrame (s t : State) : Prop :=
  t = { s with
    fwd := t.fwd, rev := t.rev, nextKey := t.nextKey, prev := t.prev, outbuf := t.outbuf,
    cursor := t.cursor, ended := t.ended, fault := t.fault, transfer := t.transfer,
    responses := t.responses, readAnswers := t.readAnswers }

theorem readerFrame_raise (f : FaultCode) (s : State) : ReaderFrame s (raise f s) := by
  rw [raise_eq]
  rfl

theorem readerFrame_served (b : Byte) (k q : ByteSeq) (s : State) :
    ReaderFrame s (served b q (learned k s)) := by
  rw [learned_eq]
  rfl

/-- RDB on a code that has arrived learns at most PREV extended by the first byte of the key it serves
(42_decoder.md R145, R146). -/
theorem decodeAndServe_frame {v w : Nat} (hw : Memory.wf s) (e : decodeAndServe v w s = .next t) :
    DecoderLearns s t ∧ ReaderFrame s t := by
  rcases decodeAndServe_cases e with ⟨-, rfl⟩ | rfl | ⟨-, b, q, -, rfl⟩ | ⟨-, rfl⟩ | ⟨-, p, b, q, hp, rfl⟩
  · exact ⟨.inl (sameDictionary_refl s), rfl⟩
  · exact ⟨.inl (sameDictionary_raise _ s), readerFrame_raise _ s⟩
  · exact ⟨.inl (sameDictionary_refl s), rfl⟩
  · exact ⟨.inl (sameDictionary_raise _ s), readerFrame_raise _ s⟩
  · exact ⟨.inr ⟨p, b, q, hp, rfl, growsBy_learned s hw rfl rfl rfl⟩, readerFrame_served b _ q s⟩

theorem readBits_command_frame {w left acc : Nat} (hw : Memory.wf s)
    (e : readBits .command w left acc s = .next t) : DecoderLearns s t ∧ ReaderFrame s t := by
  rcases readBits_cases .command w left acc s with
    ⟨bs, more, -, -, e'⟩ | ⟨bs, more, -, -, e'⟩ | ⟨bs, more, -, -, e'⟩ | ⟨bs, -, -, e'⟩ <;> rw [e'] at e
  · exact decodeAndServe_frame (s := { s with readAnswers := more }) hw e
  · cases e
    exact ⟨.inl (sameDictionary_refl s), rfl⟩
  · cases e
    exact ⟨.inl (sameDictionary_raise .bitIoError { s with readAnswers := more }),
      readerFrame_raise .bitIoError { s with readAnswers := more }⟩
  · cases e
    exact ⟨.inl (sameDictionary_refl s), rfl⟩

theorem readByte_frame (hw : Memory.wf s) (e : readByte s = .next t) : DecoderLearns s t ∧ ReaderFrame s t := by
  rcases readByte_cases s with ⟨b, -, e'⟩ | ⟨-, -, e'⟩ | ⟨-, -, e'⟩ <;> rw [e'] at e
  · cases e
    exact ⟨.inl (sameDictionary_refl s), rfl⟩
  · cases e
    exact ⟨.inl (sameDictionary_refl s), rfl⟩
  · exact readBits_command_frame hw e

/-- Settles O30: RDB is a response alone, or reads, and only decoding a code learns. -/
theorem rdbFrame : Obligations.RdbFrame := by
  intro s t imm hw e
  have ⟨hadv, hlearns, ht⟩ : Advances s t ∧ DecoderLearns s t ∧ ReaderFrame s t := by
    rcases exec_rdb_next e with ⟨r, rfl⟩ | e
    · exact ⟨(keeps_respond r s).advances, .inl (sameDictionary_refl s), rfl⟩
    · exact ⟨(readByte_progresses e).advances, readByte_frame hw e⟩
  refine ⟨?_, hlearns, ?_, ?_, ?_, ?_, ?_, hadv.fault, hadv.ended⟩
  · rw [ht]; exact ⟨rfl, rfl, rfl, rfl, rfl, rfl⟩
  all_goals rw [ht]

end Sys2Proof.Machine
end

section
/-! SUPPORT. The faults: the refusals that change nothing, and CORRUPT_STREAM, CAPACITY_EXCEEDED and
BIT_IO_ERROR inside the commands that raise them (O16, O18, O20, O29, O34, O35). -/

namespace Sys2Proof.Machine

variable {s t u : State}

/-! ## Refusals that change nothing (60_exceptions.md R243, R246, R249) -/

/-- Settles O16: the four rows are what the random-access opcodes decode to. -/
theorem randomAccessAlwaysFails : Obligations.RandomAccessAlwaysFails := by
  intro s imm
  change ∀ i ∈ randomAccessOps.map (decodeFields · imm), _
  exact List.forall_mem_map.2 fun op h => exec_decodeFields_randomAccess h imm s

/-- Settles O18: the closed check is the first that WRB, RDB and FLUSH make, and CLOSE's own. -/
theorem closedStreamRefuses : Obligations.ClosedStreamRefuses := by
  intro s imm hc
  refine ⟨fun i hi => ?_, if_pos hc⟩
  simp only [List.mem_cons, List.not_mem_nil, or_false] at hi
  rcases hi with rfl | rfl | rfl <;> exact whenLive_closed hc _

/-- Settles O20: the lifecycle checks pass, and the mode check does not. -/
theorem wrongModeRefused : Obligations.WrongModeRefused := by
  intro s imm hlive
  constructor
  · intro hm
    exact (whenLive_live _ hlive).trans (whenMode_other (by simp [hm]) _)
  · intro hm
    exact (whenLive_live _ hlive).trans (whenMode_other (by simp [hm]) _)

/-! ## RDB on a code whose class raises -/

/-- RDB on a code whose class raises a sticky fault consumes the code's bits and stores the fault
(60_exceptions.md R245, R247). -/
theorem exec_rdb_raises {imm : Byte} {bs : List Bit} {more : List ReadAnswer} {c : WireClass}
    {f : FaultCode} (hread : ReadsCode s) (hlen : bs.length = bits (s.nextKey + 1))
    (hra : s.readAnswers = bs.map .bit ++ more) (hc : classOf s (assemble bs) (bits (s.nextKey + 1)) = c)
    (hsticky : isSticky f = true)
    (h : decodeClass c (assemble bs) { s with readAnswers := more } =
      .raised f { s with readAnswers := more }) :
    exec (.rdb imm) s = .next { s with
      fault := some f
      readAnswers := more
      responses := s.responses ++ [responseWord (.fault f)] } := by
  have ⟨⟨_, hfault⟩, _⟩ := hread
  rw [exec_rdb_class hread hlen hra hc, h, settleWith_raised,
    raise_of_none (s := { s with readAnswers := more }) hsticky hfault]

/-- Settles O29: without PREV the code's class is a corrupt first code, with PREV a corrupt code. -/
theorem rdbRaisesCorruptStream : Obligations.RdbRaisesCorruptStream := by
  intro s imm bs more hread hlen hra he h
  rcases h with ⟨hp, hv⟩ | ⟨hp, hv⟩
  · exact exec_rdb_raises hread hlen hra (classOf_firstCorrupt hp he hv) rfl rfl
  · exact exec_rdb_corrupt hread hlen hra hp he hv

/-! ## A full dictionary raises before any write -/

/-- WRB of a byte that ends the match, without room (60_exceptions.md R247). -/
theorem writeByte_full {b : Byte} {p : ByteSeq} {c : Nat} (hp : s.pending = some p)
    (habsent : revRead s (p ++ [b]) = none) (hc : revRead s p = some c) (hfull : dictionaryFull s = true) :
    writeByte b s = .next (raise .capacityExceeded s) := by
  rw [writeByte, encodeStep_full hp habsent hc hfull, settleWith_raised]

/-- The class of a known code, without room (R247). -/
theorem decodeClass_known_full {v : Nat} {h : Byte} {p q : ByteSeq} (hp : s.prev = some p)
    (hv : fwdRead s v = some (h :: q)) (hfull : dictionaryFull s = true) :
    decodeClass .known v s = .raised .capacityExceeded s := by
  simp [decodeClass, withPrev, hp, decodeKnown, hv, learnResolved_full hfull]

/-- The class of the unseen code, without room (R247). -/
theorem decodeClass_unseen_full {v : Nat} {h : Byte} {p : ByteSeq} (hp : s.prev = some (h :: p))
    (hfull : dictionaryFull s = true) : decodeClass .unseen v s = .raised .capacityExceeded s := by
  simp [decodeClass, withPrev, hp, decodeUnseen, learnResolved_full hfull]

/-! ## CAPACITY_EXCEEDED is stored at a full dictionary only -/

/-- Where CAPACITY_EXCEEDED is stored in `t`, it was stored in `s` or the dictionary of `s` is full
(60_exceptions.md R247). -/
def CapacityFaultAtFull (s t : State) : Prop :=
  t.fault = some .capacityExceeded → s.fault = some .capacityExceeded ∨ dictionaryFull s = true

theorem CapacityFaultAtFull.of_fault_eq (h : t.fault = s.fault) : CapacityFaultAtFull s t :=
  fun ht => .inl (h.symm.trans ht)

theorem CapacityFaultAtFull.of_full (h : dictionaryFull s = true) : CapacityFaultAtFull s t :=
  fun _ => .inr h

/-- Another fault, raised where FAULT is as it was. -/
theorem CapacityFaultAtFull.of_raise {f : FaultCode} (hf : f ≠ .capacityExceeded) (hu : u.fault = s.fault) :
    CapacityFaultAtFull s (raise f u) := by
  intro ht
  rw [raise_fault, hu] at ht
  split at ht
  · cases hs : s.fault with
    | none =>
      rw [hs] at ht
      exact absurd (Option.some.inj ht) hf
    | some g =>
      rw [hs] at ht
      exact .inl ht
  · exact .inl ht

theorem writeBits_capacityFault {own : Owner} {bs : List Bit} (e : writeBits own bs u = .next t)
    (hu : u.fault = s.fault) : CapacityFaultAtFull s t := by
  rcases writeBits_cases own bs u with ⟨more, -, e'⟩ | ⟨j, more, -, -, e'⟩ | ⟨j, -, -, e'⟩ <;>
    rw [e'] at e <;> cases e
  · cases own <;> exact .of_fault_eq hu
  · exact .of_raise (by decide) hu
  · exact .of_fault_eq hu

theorem writeByte_capacityFault {b : Byte} (e : writeByte b s = .next t) : CapacityFaultAtFull s t := by
  rcases writeByte_cases b s with ⟨c, -, e'⟩ | ⟨-, e'⟩ | ⟨p, c, -, -, -, hfull, -⟩ |
    ⟨p, c, -, -, -, -, e'⟩
  · rw [e'] at e
    cases e
    exact .of_fault_eq rfl
  · rw [e'] at e
    cases e
  · exact .of_full hfull
  · rw [e'] at e
    exact writeBits_capacityFault e (learned_fault s _)

theorem closeStream_capacityFault (e : closeStream s = .next t) : CapacityFaultAtFull s t := by
  rcases closeStream_cases s with ⟨-, e'⟩ | ⟨p, -, -, e'⟩ | ⟨p, c, -, -, e'⟩ <;> rw [e'] at e
  · exact writeBits_capacityFault e rfl
  · cases e
  · exact writeBits_capacityFault e rfl

theorem decodeAndServe_capacityFault {v w : Nat} (e : decodeAndServe v w s = .next t) :
    CapacityFaultAtFull s t := by
  rcases decodeAndServe_cases e with ⟨-, rfl⟩ | rfl | ⟨-, b, q, -, rfl⟩ | ⟨hfull, -⟩ | ⟨-, p, b, q, -, rfl⟩
  · exact .of_fault_eq rfl
  · exact .of_raise (by decide) rfl
  · exact .of_fault_eq rfl
  · exact .of_full hfull
  · exact .of_fault_eq (learned_fault s _)

theorem readBits_capacityFault {own : Owner} {w left acc : Nat} (e : readBits own w left acc s = .next t) :
    CapacityFaultAtFull s t := by
  rcases readBits_cases own w left acc s with
    ⟨bs, more, -, -, e'⟩ | ⟨bs, more, -, -, e'⟩ | ⟨bs, more, -, -, e'⟩ | ⟨bs, -, -, e'⟩ <;> rw [e'] at e
  · cases own with
    | command => exact decodeAndServe_capacityFault (s := { s with readAnswers := more }) e
    | internalStep => cases e; exact .of_fault_eq rfl
  · cases own <;> cases e <;> exact .of_fault_eq rfl
  · cases e
    exact .of_raise (by decide) rfl
  · cases e
    exact .of_fault_eq rfl

theorem readByte_capacityFault (e : readByte s = .next t) : CapacityFaultAtFull s t := by
  rcases readByte_cases s with ⟨b, -, e'⟩ | ⟨-, -, e'⟩ | ⟨-, -, e'⟩ <;> rw [e'] at e
  · cases e
    exact .of_fault_eq rfl
  · cases e
    exact .of_fault_eq rfl
  · exact readBits_capacityFault e

theorem effect_capacityFault {x : Effect} (e : x.run s = .next t) : CapacityFaultAtFull s t := by
  cases x with
  | answer r => cases e; exact .of_fault_eq rfl
  | shut => cases e; exact .of_fault_eq rfl
  | write b => exact writeByte_capacityFault e
  | read => exact readByte_capacityFault e
  | finish => exact closeStream_capacityFault (s := { s with closed := true }) e

theorem resume_capacityFault {tr : Transfer} (e : resume tr s = .next t) : CapacityFaultAtFull s t := by
  cases tr with
  | write rest own => exact writeBits_capacityFault e rfl
  | read acc left w own => exact readBits_capacityFault e

/-- Every step, reset included. -/
theorem step_capacityFault (e : step s = .next t) : CapacityFaultAtFull s t := by
  rcases step_cases s with ⟨m, -, e'⟩ | ⟨tr, -, -, e'⟩ | ⟨-, -, -, e'⟩ | ⟨x, rest, -, -, -, e'⟩ <;>
    rw [e'] at e
  · cases e
    exact nofun
  · exact resume_capacityFault (s := { s with transfer := none }) e
  · cases e
    exact .of_fault_eq rfl
  · obtain ⟨f, -, e''⟩ := exec_decodeWord_cases x { s with commands := rest }
    rw [e''] at e
    exact effect_capacityFault (s := { s with commands := rest }) e

/-- Settles O34: CAPACITY_EXCEEDED needs a full dictionary, which an unbounded one never is; in a full one
each step that would learn raises in its place. -/
theorem fullDictionaryRaises : Obligations.FullDictionaryRaises := by
  constructor
  · intro s t hcap hfault e ht
    rcases step_capacityFault e ht with hs | hfull
    · exact hfault hs
    · simp [dictionaryFull, hcap] at hfull
  · intro s imm hlive hfull
    have hfull' := dictionaryFull_eq_true hfull
    refine ⟨fun p c hm hp habsent hc => ?_, fun h p bs more hread hp hlen hra he hv => ?_⟩
    · rw [exec_wrb_live imm hlive hm, writeByte_full hp habsent hc hfull', raise_of_none rfl hlive.2]
      rfl
    · rcases hv with ⟨hv, k, q, hq⟩ | hv
      · exact exec_rdb_raises hread hlen hra (classOf_known hp he hv) rfl
          (decodeClass_known_full (s := { s with readAnswers := more }) hp hq hfull')
      · exact exec_rdb_raises hread hlen hra (classOf_unseen hp he hv) rfl
          (decodeClass_unseen_full (s := { s with readAnswers := more }) hp hfull')

/-! ## A bit transfer that fails -/

/-- A write fails at bit `j`: the bits before it stay written, and no later bit is tried
(60_exceptions.md R248). -/
theorem writeBits_failed {own : Owner} {bs : List Bit} {j : Nat} {more : List WriteAnswer}
    (hf : s.fault = none) (hj : j < bs.length)
    (hwa : s.writeAnswers = List.replicate j .accept ++ .fail :: more) :
    writeBits own bs s = .next { s with
      writeAnswers := more
      outBits := s.outBits ++ bs.take j
      fault := some .bitIoError
      responses := s.responses ++ [0xF07] } := by
  rw [writeBits, pushBits_failed bs s j more hj hwa]
  exact congrArg Host.Outcome.next (raise_of_none rfl hf)

/-- RDB's read fails inside the code: the bits before the failure stay consumed (R248). -/
theorem exec_rdb_failed {imm : Byte} {bs : List Bit} {more : List ReadAnswer} (hread : ReadsCode s)
    (hlen : bs.length < bits (s.nextKey + 1)) (hra : s.readAnswers = bs.map .bit ++ .fail :: more) :
    exec (.rdb imm) s = .next { s with
      readAnswers := more
      fault := some .bitIoError
      responses := s.responses ++ [0xF07] } := by
  have ⟨⟨_, hfault⟩, _⟩ := hread
  rw [exec_rdb_reads imm hread, readBits, pullBits_failed bs _ 0 s more hlen hra]
  exact congrArg Host.Outcome.next (raise_of_none (s := { s with readAnswers := more }) rfl hfault)

/-- Settles O35: WRB has learned and CLOSE has closed and flushed before the first transfer, and the failed
transfer ends each command. -/
theorem bitFailureEndsCommand : Obligations.BitFailureEndsCommand := by
  intro s imm j hlive
  refine ⟨fun p c more hm hroom hp habsent hc hj hwa => ?_, fun bs more hread hlen hj hra => ?_,
    fun flushed more hm hflush hj hwa => ?_⟩
  · rw [exec_wrb_live imm hlive hm, writeByte_emit hp habsent hc (dictionaryFull_eq_false hroom),
      writeBits_failed (more := more) (by simp [hlive.2]) (by simpa using hj) (by simpa using hwa)]
    simp [learned]
  · exact exec_rdb_failed hread (hlen ▸ hj) hra
  · have hflush' : Flushes { s with closed := true } flushed := hflush
    rw [exec_close_live imm hlive hm, closeStream_flushes hflush']
    exact writeBits_failed hlive.2 (by simpa using hj) hwa

end Sys2Proof.Machine
end

section
/-! SUPPORT. Inputs of at most 256 bytes round trip (O59): as long as NEXT_KEY is at most 512 every code and the
sentinel have nine bits on both sides, and no code is the sentinel's pattern. -/

namespace Sys2Proof.Machine

variable {s t e d : State} {x y p q : ByteSeq} {bs pad : List Bit} {b : Byte} {c n : Nat}

/-! ## Runs -/

theorem run_succ (h : step s = .next t) : Host.Core.run core (n + 1) s = Host.Core.run core n t := by
  have h' : core.step s = .next t := h
  simp only [Host.Core.run, h']

theorem bits_eq_nine (h : n ≤ 512) : bits n = 9 := by
  rcases h.lt_or_eq with h | rfl
  · exact bits_low h
  · exact bits_two_pow (m := 9) (by decide)

/-! ## A decoder in step with an encoder -/

/-- The decoder's dictionary is the encoder's, and its PREV is the match `p`. -/
structure CaughtUp (p : ByteSeq) (e d : State) : Prop where
  nextKey : d.nextKey = e.nextKey
  agree : ∀ c, c < e.nextKey → fwdRead d c = fwdRead e c
  prev : d.prev = some p
  capacity : d.capacity = e.capacity

/-- The decoder has decoded all that the encoder has emitted: nothing yet, or every code so far (42_decoder.md
R151). -/
inductive Tracks (e d : State) : Prop where
  | fresh (encoder : e.nextKey = 256) (decoder : d.nextKey = 256) (prev : d.prev = none)
      (capacity : d.capacity = e.capacity)
  | mirrors (h : Mirrors e d)

/-- The ports and the responses have no part in it. -/
theorem Tracks.ports (h : Tracks e d) (cm : List CommandWord) (wa : List WriteAnswer) (ob : List Bit)
    (rs : List ResponseWord) (cm' : List CommandWord) (ra : List ReadAnswer) :
    Tracks { e with commands := cm, writeAnswers := wa, outBits := ob, responses := rs }
      { d with commands := cm', readAnswers := ra } := by
  cases h with
  | fresh he hd hp hc => exact .fresh he hd hp hc
  | mirrors h => exact .mirrors ⟨h.behind, h.agree, h.last, h.sameCapacity⟩

/-- A byte that extends the match emits nothing. -/
theorem Tracks.after_extension (h : Tracks e d) (hc : revRead e (e.pending.getD [] ++ [b]) = some c) :
    Tracks { e with pending := some (e.pending.getD [] ++ [b]) } d := by
  cases h with
  | fresh he hd hp hcap => exact .fresh he hd hp hcap
  | mirrors h => exact .mirrors (h.after_extension (encodeStep_extend hc))

theorem Tracks.nextKey_le (h : Tracks e d) : d.nextKey ≤ e.nextKey := by
  cases h with
  | fresh he hd _ _ => omega
  | mirrors h => have := h.behind; omega

/-- Without a match the encoder has emitted nothing. -/
theorem Tracks.nextKey_of_no_match (h : Tracks e d) (hp : e.pending = none) : d.nextKey = 256 := by
  cases h with
  | fresh _ hd _ _ => exact hd
  | mirrors h =>
    obtain ⟨_, _, _, -, -, hpend⟩ := h.last
    simp [hp] at hpend

/-- RDB on the code of the encoder's match serves its first byte, and the decoder catches up. -/
theorem Tracks.decodeAndServe_eq (h : Tracks e d) (he : BlockInv e) (hd : BlockInv d)
    (hroom : e.capacity = none) (hn : e.nextKey ≤ 511) (hp : e.pending = some (b :: q))
    (hc : revRead e (b :: q) = some c) :
    ∃ u, (u = d ∨ ∃ k, u = learned k d) ∧ decodeAndServe c 9 d = .next (served b q u) ∧
      CaughtUp (b :: q) e (served b q u) := by
  have henc : fwdRead e c = some (b :: q) := fwdRead_of_revRead he hc
  have hlt : c < e.nextKey := lt_nextKey_of_fwdRead he henc
  have hne : c ≠ 2 ^ 9 - 1 := by omega
  cases h with
  | fresh hen hdn hprev hcap =>
    have hagree : ∀ i, i < e.nextKey → fwdRead d i = fwdRead e i := fun i hi => by
      rw [hen] at hi
      rw [hd.seeded i hi, he.seeded i hi]
    refine ⟨d, .inl rfl, ?_, hdn.trans hen.symm, hagree, rfl, hcap⟩
    rw [decodeAndServe, decodeStep, classOf_first hprev hne (hen ▸ hlt),
      decodeClass_first ((hagree c hlt).trans henc)]
    rfl
  | mirrors h =>
    obtain ⟨p, _, _, hprev, -, -⟩ := h.last
    have hfull : dictionaryFull e = false := by simp [dictionaryFull, hroom]
    refine ⟨learned (p ++ [b]) d, .inr ⟨_, rfl⟩, ?_, h.behind.symm,
      fun i hi => h.fwdRead_learned_eq hd.canonical hprev hp hi, rfl, ?_⟩
    · rw [decodeAndServe, h.decodeStep_eq he hd hfull hprev hp hc hne]
      rfl
    · simpa [served] using h.sameCapacity

/-! ## The decoder's run -/

/-- A decoder with `n` reads to come, the bytes `q` left in its buffer, and a source of the bits `bs`. -/
structure Reading (q : ByteSeq) (bs : List Bit) (n : Nat) (d : State) : Prop where
  inv : BlockInv d
  live : Live d
  mode : d.mode = .decompress
  notEnded : d.ended = false
  unread : d.outbuf.drop d.cursor = q
  transfer : d.transfer = none
  resetInput : d.resetInput = none
  commands : d.commands = wordsOf (expand (.rdn n))
  source : d.readAnswers = bs.map .bit ++ [.endOfData]

theorem reading_decompressSetup (bs : List Bit) (n : Nat) : Reading [] bs n (decompressSetup bs n) where
  inv := blockInv_ports (blockInv_resetIn .decompress) _ _ _ _ _ _ _ _ _ _
  live := ⟨rfl, rfl⟩
  mode := rfl
  notEnded := rfl
  unread := rfl
  transfer := rfl
  resetInput := rfl
  commands := rfl
  source := rfl

/-- The next step is an RDB. -/
theorem Reading.step_eq (h : Reading q bs (n + 1) d) :
    step d = exec (.rdb 0) { d with commands := wordsOf (expand (.rdn n)) } := by
  have hc : d.commands = ((0x2 : BitVec 4) ++ (0 : Byte)) :: wordsOf (expand (.rdn n)) := h.commands
  rw [step_command h.resetInput h.transfer hc, decodeWord_append]
  rfl

theorem Reading.readsCode (h : Reading [] bs n d) : ReadsCode d :=
  ⟨h.live, h.mode, List.drop_eq_nil_iff.1 h.unread, h.notEnded⟩

/-- The step from `d` to `d'` answers an RDB with the byte `b`. -/
def Serves (b : Byte) (d d' : State) : Prop :=
  step d = .next d' ∧ d'.responses = d.responses ++ [responseWord (.byte b)]

/-- The run from `d` answers RDBs with the bytes `y` and then EOD. -/
def Answers (d : State) (y : ByteSeq) : Prop :=
  ∃ u : State, Host.Core.run core (y.length + 1) d = .next u ∧
    u.responses = d.responses ++ y.map (fun b => responseWord (.byte b)) ++ [responseWord .eod]

theorem Serves.answers {d' : State} (h : Serves b d d') (hy : Answers d' y) : Answers d (b :: y) := by
  obtain ⟨hstep, hresp⟩ := h
  obtain ⟨u, hrun, hu⟩ := hy
  exact ⟨u, (run_succ hstep).trans hrun, by simp [hu, hresp]⟩

/-- A byte of the buffer. -/
theorem Reading.serves_buffer (h : Reading (b :: q) bs (n + 1) d) (hu : CaughtUp p e d) :
    ∃ d', Serves b d d' ∧ Reading q bs n d' ∧ CaughtUp p e d' := by
  have hb : d.outbuf[d.cursor]? = some b := by
    rw [← List.head?_drop, h.unread, List.head?_cons]
  have hstep : step d = .next (respond (.byte b)
      { d with commands := wordsOf (expand (.rdn n)), cursor := d.cursor + 1 }) := by
    rw [h.step_eq]
    exact (exec_rdb_live (s := { d with commands := wordsOf (expand (.rdn n)) }) 0 h.live h.mode).trans
      (readByte_buffer hb)
  refine ⟨_, ⟨hstep, rfl⟩, ?_, hu.nextKey, hu.agree, hu.prev, hu.capacity⟩
  exact {
    inv := stepKeepsInvariant d _ h.inv hstep
    live := h.live
    mode := h.mode
    notEnded := h.notEnded
    unread := by simp [← List.tail_drop, h.unread]
    transfer := h.transfer
    resetInput := h.resetInput
    commands := rfl
    source := h.source }

/-- The code of the encoder's match: its first byte is served, and the others are in the buffer. -/
theorem Reading.serves_code (h : Reading [] (codeBits c 9 ++ bs) (n + 1) d) (ht : Tracks e d)
    (he : BlockInv e) (hroom : e.capacity = none) (hn : e.nextKey ≤ 511) (hp : e.pending = some (b :: q))
    (hc : revRead e (b :: q) = some c) :
    ∃ d', Serves b d d' ∧ Reading q bs n d' ∧ CaughtUp (b :: q) e d' := by
  have hwidth : bits (d.nextKey + 1) = 9 := bits_eq_nine (by have := ht.nextKey_le; omega)
  have hvalue : assemble (codeBits c 9) = c := by
    have hlt := lt_nextKey_of_fwdRead he (fwdRead_of_revRead he hc)
    rw [assemble_codeBits]
    exact Nat.mod_eq_of_lt (by omega)
  have ht' := ht.ports e.commands e.writeAnswers e.outBits e.responses (wordsOf (expand (.rdn n)))
    (bs.map .bit ++ [.endOfData])
  obtain ⟨u, hu, hserve, hcaught⟩ :=
    ht'.decodeAndServe_eq he (blockInv_ports h.inv _ _ _ _ _ _ _ _ _ _) hroom hn hp hc
  have hstep : step d = .next (served b q u) := by
    have hread := exec_rdb_value (s := { d with commands := wordsOf (expand (.rdn n)) }) (bs := codeBits c 9)
      (more := bs.map .bit ++ [.endOfData]) 0 h.readsCode (by simp [hwidth]) (by simp [h.source])
    rw [h.step_eq, hread, hvalue, hwidth, hserve]
  have hframe : u.fault = d.fault ∧ u.closed = d.closed ∧ u.mode = d.mode ∧ u.ended = d.ended ∧
      u.transfer = d.transfer ∧ u.resetInput = d.resetInput ∧ u.commands = wordsOf (expand (.rdn n)) ∧
      u.readAnswers = bs.map .bit ++ [.endOfData] ∧ u.responses = d.responses := by
    rcases hu with rfl | ⟨k, rfl⟩ <;> simp
  obtain ⟨hfault, hclosed, hmode, hended, htr, hreset, hcmd, hsrc, hresp⟩ := hframe
  refine ⟨_, ⟨hstep, by simp [served, hresp]⟩, ?_, hcaught⟩
  exact {
    inv := stepKeepsInvariant d _ h.inv hstep
    live := ⟨hclosed.trans h.live.1, hfault.trans h.live.2⟩
    mode := hmode.trans h.mode
    notEnded := hended.trans h.notEnded
    unread := rfl
    transfer := htr.trans h.transfer
    resetInput := hreset.trans h.resetInput
    commands := hcmd
    source := hsrc }

/-- The sentinel, where it is read in nine bits. -/
theorem Reading.answers_eod (h : Reading [] (List.replicate 9 true ++ bs) 1 d) (hn : d.nextKey ≤ 511) :
    Answers d [] := by
  have hwidth : bits (d.nextKey + 1) = 9 := bits_eq_nine (by omega)
  have hstep : step d = .next (endOfStream
      { d with commands := wordsOf (expand (.rdn 0)), readAnswers := bs.map .bit ++ [.endOfData] }) := by
    rw [h.step_eq]
    exact exec_rdb_eoi h.readsCode (by simp [hwidth, h.source])
  exact ⟨_, run_succ hstep, by simp⟩

/-- The rest of the buffer is served, and then what the decoder answers once it is exhausted. -/
theorem Reading.answers_buffer (h : Reading q bs ((q ++ y).length + 1) d) (hu : CaughtUp p e d)
    (hy : ∀ d, CaughtUp p e d → Reading [] bs (y.length + 1) d → Answers d y) : Answers d (q ++ y) := by
  induction q generalizing d with
  | nil => exact hy d hu h
  | cons b q ih =>
    obtain ⟨d', hserve, h', hu'⟩ := h.serves_buffer hu
    exact hserve.answers (ih h' hu')

/-! ## What the encoder's bits decode to -/

/-- Every decoder in step with `e` decodes the bits, whatever follows them, to `y` and the end. -/
def DecodesTo (e : State) (bs : List Bit) (y : ByteSeq) : Prop :=
  ∀ (d : State) (pad : List Bit), Tracks e d → Reading [] (bs ++ pad) (y.length + 1) d → Answers d y

/-- The code of the match, before bits that decode to `y` once the decoder has caught up. -/
theorem decodesTo_code (he : BlockInv e) (hroom : e.capacity = none) (hn : e.nextKey ≤ 511)
    (hp : e.pending = some p) (hc : revRead e p = some c)
    (hy : ∀ d pad, CaughtUp p e d → Reading [] (bs ++ pad) (y.length + 1) d → Answers d y) :
    DecodesTo e (codeBits c 9 ++ bs) (p ++ y) := by
  intro d pad ht h
  obtain ⟨b, q, rfl⟩ := List.exists_cons_of_ne_nil (he.entryNonempty c p (fwdRead_of_revRead he hc))
  rw [List.append_assoc] at h
  obtain ⟨d', hserve, h', hu⟩ := h.serves_code ht he hroom hn hp hc
  exact hserve.answers (h'.answers_buffer hu fun d => hy d pad)

/-- The sentinel alone, where there is no match. -/
theorem decodesTo_eoi (hp : e.pending = none) : DecodesTo e (List.replicate 9 true) [] :=
  fun _ _ ht h => h.answers_eod (by have := ht.nextKey_of_no_match hp; omega)

/-- The flush code and the sentinel. -/
theorem decodesTo_flush (he : BlockInv e) (hroom : e.capacity = none) (hn : e.nextKey ≤ 511)
    (hp : e.pending = some p) (hc : revRead e p = some c) :
    DecodesTo e (codeBits c 9 ++ List.replicate 9 true) p := by
  have h := decodesTo_code (y := []) (bs := List.replicate 9 true) he hroom hn hp hc
    fun _ _ hu h => h.answers_eod (hu.nextKey.trans_le hn)
  rwa [List.append_nil] at h

/-! ## The encoder's run -/

/-- An encoder with the bytes `x` and a CLOSE to come, on a primitive that accepts nine bits for the match, for
each byte and for the sentinel, and with room for an entry for each of them below 512. -/
structure Writing (x : ByteSeq) (e : State) : Prop where
  inv : BlockInv e
  live : Live e
  mode : e.mode = .compress
  room : e.capacity = none
  transfer : e.transfer = none
  resetInput : e.resetInput = none
  commands : e.commands = wordsOf (expand (.compress x))
  accepted : ∃ m, 9 * (x.length + e.pending.toList.length + 1) ≤ m ∧
    e.writeAnswers = List.replicate m .accept
  small : e.nextKey + (x.length + e.pending.toList.length) ≤ 512

theorem writing_compressSetup (h : x.length ≤ 256) :
    Writing x (compressSetup x (9 * (x.length + 1))) where
  inv := blockInv_ports (blockInv_resetIn .compress) _ _ _ _ _ _ _ _ _ _
  live := ⟨rfl, rfl⟩
  mode := rfl
  room := rfl
  transfer := rfl
  resetInput := rfl
  commands := rfl
  accepted := ⟨_, le_rfl, rfl⟩
  small := by simp [compressSetup, Config.firstKey]; omega

/-- The next step is the WRB of the next byte. -/
theorem Writing.step_wrb (h : Writing (b :: x) e) :
    step e = writeByte b { e with commands := wordsOf (expand (.compress x)) } := by
  have hc : e.commands = ((0x1 : BitVec 4) ++ b) :: wordsOf (expand (.compress x)) := h.commands
  rw [step_command h.resetInput h.transfer hc, decodeWord_append]
  exact exec_wrb_live b h.live h.mode

/-- After the bytes the next step is the CLOSE. -/
theorem Writing.step_close (h : Writing [] e) : step e = exec (.close 0) { e with commands := [] } := by
  have hc : e.commands = [(0x3 : BitVec 4) ++ (0 : Byte)] := h.commands
  rw [step_command h.resetInput h.transfer hc, decodeWord_append]
  rfl

/-- The run from `e` compresses `x`, writes the bits `bs` and succeeds. -/
def Compresses (x : ByteSeq) (e : State) (bs : List Bit) : Prop :=
  ∃ t : State, Host.Core.run core (x.length + 1) e = .next t ∧ compressSucceeded t = true ∧
    t.outBits = e.outBits ++ bs

/-- CLOSE writes the flushed bits and the sentinel in nine bits, and the run has ended. -/
theorem Writing.compresses_close {fl : List Bit} (h : Writing [] e) (hfl : Flushes e fl)
    (hlen : fl.length = 9 * e.pending.toList.length) : Compresses [] e (fl ++ List.replicate 9 true) := by
  have hwidth : bits (e.nextKey - 1) = 9 := bits_eq_nine (by have := h.small; omega)
  obtain ⟨m, hm, hwa⟩ := h.accepted
  have hwa' : e.writeAnswers =
      List.replicate (fl.length + bits (e.nextKey - 1)) .accept ++
        List.replicate (m - (fl.length + 9)) .accept := by
    rw [hwa, hwidth, List.replicate_append_replicate]
    congr 1
    simp only [List.length_nil] at hm
    omega
  have hstep := h.step_close.trans (closeFlushesAndEnds { e with commands := [] } 0 fl _ h.live h.mode hfl hwa')
  refine ⟨_, run_succ hstep, ?_, ?_⟩
  · simp [compressSucceeded, compressEnded, h.mode, h.transfer, h.live.2]
  · simp only [hwidth, List.append_assoc]

/-- The run from `e` writes bits that decode to its match and the bytes to come. -/
def RoundTrips (x : ByteSeq) (e : State) : Prop :=
  ∃ bs, Compresses x e bs ∧ DecodesTo e bs (e.pending.getD [] ++ x)

theorem Writing.roundTrips_close (h : Writing [] e) : RoundTrips [] e := by
  cases hp : e.pending with
  | none =>
    refine ⟨_, h.compresses_close (.inl ⟨hp, rfl⟩) (by simp [hp]), ?_⟩
    simpa [hp] using decodesTo_eoi hp
  | some p =>
    have hn : e.nextKey ≤ 511 := by have := h.small; simp [hp] at this; omega
    obtain ⟨c, hc⟩ := Option.isSome_iff_exists.1 (h.inv.pendingPresent p hp)
    have hwidth : bits (e.nextKey - 1) = 9 := bits_eq_nine (by omega)
    refine ⟨_, h.compresses_close (.inr ⟨p, c, hp, hc, rfl⟩) (by simp [hp, hwidth]), ?_⟩
    rw [hwidth]
    simpa [hp] using decodesTo_flush h.inv h.room hn hp hc

/-- WRB of `b` writes the bits `cs`, and what the rest decodes to, `cs` and the rest decode to with `b` and the
match before it. -/
def WritesByte (b : Byte) (x : ByteSeq) (e : State) (cs : List Bit) : Prop :=
  ∃ e', step e = .next e' ∧ Writing x e' ∧ e'.outBits = e.outBits ++ cs ∧
    ∀ bs, DecodesTo e' bs (e'.pending.getD [] ++ x) → DecodesTo e (cs ++ bs) (e.pending.getD [] ++ b :: x)

theorem WritesByte.roundTrips {cs : List Bit} (h : WritesByte b x e cs)
    (ih : ∀ e, Writing x e → RoundTrips x e) : RoundTrips (b :: x) e := by
  obtain ⟨e', hstep, h', hout, hdec⟩ := h
  obtain ⟨bs, ⟨t, hrun, hok, hbits⟩, hbs⟩ := ih e' h'
  exact ⟨cs ++ bs, ⟨t, (run_succ hstep).trans hrun, hok, by rw [hbits, hout, List.append_assoc]⟩, hdec bs hbs⟩

/-- A byte that extends the match writes nothing. -/
theorem Writing.writesByte_extend (h : Writing (b :: x) e)
    (hc : revRead e (e.pending.getD [] ++ [b]) = some c) : WritesByte b x e [] := by
  have hstep := h.step_wrb.trans (writeByte_extend hc)
  have hsmall := h.small
  obtain ⟨m, hm, hwa⟩ := h.accepted
  simp only [List.length_cons] at hm hsmall
  refine ⟨_, hstep, ?_, by simp, fun bs hdec d pad ht hr => ?_⟩
  · exact {
      inv := stepKeepsInvariant e _ h.inv hstep
      live := h.live
      mode := h.mode
      room := h.room
      transfer := h.transfer
      resetInput := h.resetInput
      commands := rfl
      accepted := ⟨m, by simp; omega, hwa⟩
      small := by simp; omega }
  · have hy : e.pending.getD [] ++ b :: x = e.pending.getD [] ++ [b] ++ x := by simp
    rw [hy] at hr ⊢
    exact hdec d pad ((ht.after_extension hc).ports _ _ _ _ _ _) hr

/-- A byte that ends the match writes its code. -/
theorem Writing.writesByte_emit (h : Writing (b :: x) e) (hp : e.pending = some p)
    (habsent : revRead e (p ++ [b]) = none) (hc : revRead e p = some c) :
    WritesByte b x e (codeBits c 9) := by
  have hsmall := h.small
  obtain ⟨m, hm, hwa⟩ := h.accepted
  simp only [List.length_cons, hp, Option.toList_some] at hm hsmall
  have hn : e.nextKey ≤ 511 := by omega
  have hfull : dictionaryFull e = false := by simp [dictionaryFull, h.room]
  have hwa' : e.writeAnswers =
      List.replicate (codeBits c 9).length .accept ++ List.replicate (m - 9) .accept := by
    rw [hwa, codeBits_length, List.replicate_append_replicate]
    congr 1
    omega
  have hemit := writeByte_emit (s := { e with commands := wordsOf (expand (.compress x)) }) hp habsent hc hfull
  rw [bits_eq_nine (by simp only; omega), writeBits_done (by simpa using hwa')] at hemit
  have hstep := h.step_wrb.trans hemit
  refine ⟨_, hstep, ?_, by simp [finishWrite], fun bs hdec => ?_⟩
  · exact {
      inv := stepKeepsInvariant e _ h.inv hstep
      live := by simpa [Live, finishWrite] using h.live
      mode := by simpa [finishWrite] using h.mode
      room := by simpa [finishWrite] using h.room
      transfer := by simpa [finishWrite] using h.transfer
      resetInput := by simpa [finishWrite] using h.resetInput
      commands := by simp [finishWrite]
      accepted := ⟨m - 9, by simp [finishWrite]; omega, rfl⟩
      small := by simp [finishWrite]; omega }
  · rw [hp]
    refine decodesTo_code h.inv h.room hn hp hc fun d pad hu hr => hdec d pad ?_ hr
    have hmirrors := mirrors_of_caughtUp (e := { e with commands := wordsOf (expand (.compress x)) }) b
      h.inv.canonical hu.nextKey hu.agree hu.prev hu.capacity
    exact (Tracks.mirrors hmirrors).ports _ _ _ _ _ _

/-- What is written round trips: each WRB extends the match or emits its code, and CLOSE emits the last one. -/
theorem Writing.roundTrips (h : Writing x e) : RoundTrips x e := by
  induction x generalizing e with
  | nil => exact h.roundTrips_close
  | cons b x ih =>
    cases hr : revRead e (e.pending.getD [] ++ [b]) with
    | some c => exact (h.writesByte_extend hr).roundTrips fun _ => ih
    | none =>
      obtain ⟨c, hb⟩ := exists_code_of_absent h.inv hr
      obtain ⟨p, hp, hc⟩ := Option.bind_eq_some_iff.1 hb
      exact (h.writesByte_emit hp (by simpa [hp] using hr) hc).roundTrips fun _ => ih

/-- Settles O59: the written bits decode to the bytes from reset, where neither side has begun. -/
theorem shortInputsRoundTrip : Obligations.ShortInputsRoundTrip := by
  intro x pad hx
  obtain ⟨bs, ⟨t, hrun, hok, hout⟩, hdec⟩ := (writing_compressSetup hx).roundTrips
  have hbits : t.outBits = bs := hout
  obtain ⟨u, hrun', hu⟩ := hdec (decompressSetup (bs ++ pad) (x.length + 1)) pad (.fresh rfl rfl rfl rfl)
    (reading_decompressSetup _ _)
  exact ⟨t, u, hrun, hok, by rw [hbits]; exact hrun', hu⟩

end Sys2Proof.Machine
end

section
/-! SUPPORT. What holds: the block that has nothing to do, and a command that waits for the primitive and then
ends as it would have ended (O10, O11). -/

namespace Sys2Proof.Machine

variable {s t u : State} {wa : List WriteAnswer} {ra : List ReadAnswer} {α : Type} {tr : Option Transfer}

/-! ## Nothing to do -/

/-- A transfer put back where it was taken from. -/
theorem hold_of_transfer {tr : Transfer} (h : s.transfer = some tr) :
    hold tr { s with transfer := none } = s := by
  rw [hold, ← h]

/-- Settles O10: with no word the step is idle, and a transfer without an answer is put back as it was. -/
theorem blockHoldsWhileItWaits : Obligations.BlockHoldsWhileItWaits := by
  rintro s hr (⟨ht, hc⟩ | ⟨b, rest, own, ht, hwa⟩ | ⟨acc, left, w, own, ht, hra⟩)
  · exact step_idle hr ht hc
  · have hpush : pushBits (b :: rest) { s with transfer := none } =
        (.waits (b :: rest), { s with transfer := none }) := by rw [pushBits, hwa]
    rw [step_transfer hr ht, resume, writeBits, hpush]
    exact congrArg Host.Outcome.next (hold_of_transfer ht)
  · have hpull : pullBits (left + 1) acc { s with transfer := none } =
        (.waits acc (left + 1), { s with transfer := none }) := by rw [pullBits, hra]
    rw [step_transfer hr ht, resume, readBits, hpull]
    exact congrArg Host.Outcome.next (hold_of_transfer ht)

/-! ## Steps that start no transfer -/

/-- However an internal step ends, it leaves `tr` where a transfer waits. -/
def Res.Leaves (tr : Option Transfer) : Res α → Prop
  | .val _ t => t.transfer = tr
  | .raised _ t => t.transfer = tr
  | .stuck _ => True

/-- An internal step run by itself, whose value `f` makes the result. -/
theorem Res.Leaves.settleStep {r : Res α} {f : α → StepResult} (h : r.Leaves tr)
    (e : settleStep (andThen r fun a u => .val (f a) u) = .next t) : t.transfer = tr := by
  cases r with
  | val a u => cases e; exact h
  | raised f u => cases e; exact (raise_transfer u f).trans h
  | stuck f => cases e

theorem learn_leaves (k : Key) (s : State) : (learn k s).Leaves s.transfer := by
  rcases learn_cases s k with ⟨-, e⟩ | ⟨-, -, e⟩ | ⟨-, -, e⟩ <;> rw [e]
  · trivial
  · rfl
  · exact learned_transfer s k.bytes

theorem encodeStep_leaves (b : Byte) (s : State) : (encodeStep b s).Leaves s.transfer := by
  rcases encodeStep_cases b s with ⟨c, -, e⟩ | ⟨-, -, e⟩ | ⟨p, c, -, -, -, -, e⟩ |
    ⟨p, c, -, -, -, -, e⟩ <;> rw [e]
  · rfl
  · trivial
  · rfl
  · exact learned_transfer s _

theorem encodeFlush_leaves (s : State) : (encodeFlush s).Leaves s.transfer := by
  rcases encodeFlush_cases s with ⟨-, e⟩ | ⟨p, -, -, e⟩ | ⟨p, c, -, -, e⟩ <;> rw [e]
  · rfl
  · trivial
  · rfl

theorem learnResolved_leaves (p q : ByteSeq) (s : State) : (learnResolved p q s).Leaves s.transfer := by
  rcases learnResolved_cases p q s with ⟨-, e⟩ | ⟨h, t, -, -, e⟩ | ⟨h, t, -, -, e⟩ <;> rw [e]
  · trivial
  · rfl
  · exact learned_transfer s _

theorem decodeClass_leaves (c : WireClass) (v : Nat) (s : State) : (decodeClass c v s).Leaves s.transfer := by
  have withPrev_leaves {k : ByteSeq → Res (Option ByteSeq)} (hk : ∀ p, (k p).Leaves s.transfer) :
      (withPrev s k).Leaves s.transfer := by
    unfold withPrev
    split
    · trivial
    · exact hk _
  cases c with
  | eoi | firstCorrupt | corrupt => rfl
  | first =>
    rw [decodeClass, decodeFirst]
    split
    · trivial
    · rfl
  | known =>
    refine withPrev_leaves fun p => ?_
    unfold decodeKnown
    split
    · trivial
    · exact learnResolved_leaves p _ s
  | unseen =>
    refine withPrev_leaves fun p => ?_
    unfold decodeUnseen
    split
    · trivial
    · exact learnResolved_leaves _ _ s

theorem settleDecode_transfer {c : WireClass} {v : Nat} (e : settleDecode (decodeClass c v s) = .next t) :
    t.transfer = s.transfer :=
  (decodeClass_leaves c v s).settleStep e

theorem decodeAndServe_transfer {v w : Nat} (e : decodeAndServe v w s = .next t) : t.transfer = s.transfer := by
  rcases decodeAndServe_cases e with ⟨-, rfl⟩ | rfl | ⟨-, b, q, -, rfl⟩ | ⟨-, rfl⟩ | ⟨-, p, b, q, -, rfl⟩ <;>
    simp [served]

/-! ## More answers -/

/-- The state with further answers of the primitive. -/
def withAnswers (wa : List WriteAnswer) (ra : List ReadAnswer) (s : State) : State :=
  { s with writeAnswers := s.writeAnswers ++ wa, readAnswers := s.readAnswers ++ ra }

theorem learned_withAnswers (k : ByteSeq) (s : State) :
    learned k (withAnswers wa ra s) = withAnswers wa ra (learned k s) := by
  have hrev : revRead (withAnswers wa ra s) k = revRead s k := rfl
  unfold learned dictInsert
  rw [hrev]
  cases revRead s k <;> rfl

/-- A held transfer goes on with the further answers. -/
theorem step_withAnswers_hold {tr : Transfer} (hr : s.resetInput = none) (ht : s.transfer = none) :
    step (withAnswers wa ra (hold tr s)) = resume tr (withAnswers wa ra s) := by
  rw [step_transfer (s := withAnswers wa ra (hold tr s)) hr rfl]
  simp only [withAnswers, hold, ← ht]

/-- Where `k` leaves a transfer waiting, the step that goes on with further answers gives what `k` gives with
them from the start. -/
def Continues (wa : List WriteAnswer) (ra : List ReadAnswer) (k : State → Out) (s : State) : Prop :=
  ∀ t, k s = .next t → t.transfer ≠ none → step (withAnswers wa ra t) = k (withAnswers wa ra s)

/-- What starts no transfer leaves none waiting. -/
theorem Continues.of_transfer {k : State → Out} (ht : s.transfer = none)
    (hk : ∀ t, k s = .next t → t.transfer = s.transfer) : Continues wa ra k s :=
  fun t e hwait => absurd ((hk t e).trans ht) hwait

/-- What is `k'` in another state, with the further answers and without, goes on as `k'` does. -/
theorem Continues.of_eq {k k' : State → Out} (h : Continues wa ra k' u) (e : k s = k' u)
    (e' : k (withAnswers wa ra s) = k' (withAnswers wa ra u)) : Continues wa ra k s :=
  fun t hk hwait => (h t (e ▸ hk) hwait).trans e'.symm

/-! ## The bit port -/

/-- Bits that are accepted before the answers run out need not be written again. -/
theorem pushBits_accepted {bs : List Bit} {j : Nat} (hj : j < bs.length)
    (h : s.writeAnswers = List.replicate j .accept ++ wa) :
    pushBits bs s = pushBits (bs.drop j) { s with writeAnswers := wa, outBits := s.outBits ++ bs.take j } := by
  induction bs generalizing s j with
  | nil => simp at hj
  | cons b bs ih =>
    cases j with
    | zero => simp at h; simp [← h]
    | succ j =>
      simp only [List.replicate_succ, List.cons_append] at h
      simp only [pushBits, h]
      rw [ih (by simpa using hj) rfl]
      simp

/-- Bits that have arrived before the answers run out are in the accumulator. -/
theorem pullBits_arrived {bs : List Bit} {left acc : Nat} (hl : bs.length < left)
    (h : s.readAnswers = bs.map .bit ++ ra) :
    pullBits left acc s = pullBits (left - bs.length) (assembleFrom acc bs) { s with readAnswers := ra } := by
  induction bs generalizing s acc left with
  | nil => simp at h; simp [assembleFrom, ← h]
  | cons b bs ih =>
    obtain ⟨left, rfl⟩ := Nat.exists_eq_add_one.2 (Nat.zero_lt_of_lt hl)
    simp only [List.map_cons, List.cons_append] at h
    simp only [pullBits, h]
    rw [ih (by simpa using hl) rfl]
    simp [assembleFrom]

theorem continues_writeBits (own : Owner) (bs : List Bit) (hr : s.resetInput = none) (ht : s.transfer = none) :
    Continues wa ra (writeBits own bs) s := by
  intro t e hwait
  rcases writeBits_cases own bs s with ⟨more, -, e'⟩ | ⟨j, more, -, -, e'⟩ | ⟨j, hj, h, e'⟩ <;>
    rw [e'] at e <;> cases e
  · cases own <;> simp [finishWrite, ht] at hwait
  · simp [ht] at hwait
  · have hpush := pushBits_accepted (s := withAnswers wa ra s) (wa := wa) hj (by simp [withAnswers, h])
    rw [step_withAnswers_hold (s := { s with writeAnswers := [], outBits := s.outBits ++ bs.take j }) hr ht,
      resume, writeBits, writeBits, hpush]
    rfl

theorem finishValue_transfer {own : Owner} {w v : Nat} (e : finishValue own w v s = .next t) :
    t.transfer = s.transfer := by
  cases own with
  | command => exact decodeAndServe_transfer e
  | internalStep => cases e; rfl

theorem finishPhysEnd_transfer {own : Owner} (e : finishPhysEnd own s = .next t) : t.transfer = s.transfer := by
  cases own <;> cases e <;> rfl

theorem continues_readBits (own : Owner) (w left acc : Nat) (hr : s.resetInput = none)
    (ht : s.transfer = none) : Continues wa ra (readBits own w left acc) s := by
  intro t e hwait
  rcases readBits_cases own w left acc s with
    ⟨bs, more, -, -, e'⟩ | ⟨bs, more, -, -, e'⟩ | ⟨bs, more, -, -, e'⟩ | ⟨bs, hl, h, e'⟩ <;> rw [e'] at e
  · exact absurd ((finishValue_transfer e).trans ht) hwait
  · exact absurd ((finishPhysEnd_transfer e).trans ht) hwait
  · cases e
    simp [ht] at hwait
  · cases e
    have hpull := pullBits_arrived (s := withAnswers wa ra s) (acc := acc) (ra := ra) hl
      (by simp [withAnswers, h])
    rw [step_withAnswers_hold (s := { s with readAnswers := [] }) hr ht, resume, readBits, readBits, hpull]
    rfl

/-! ## The commands -/

theorem continues_writeByte (b : Byte) (hr : s.resetInput = none) (ht : s.transfer = none) :
    Continues wa ra (writeByte b) s := by
  rcases writeByte_cases b s with ⟨c, -, e⟩ | ⟨-, e⟩ | ⟨p, c, -, -, -, -, e⟩ |
    ⟨p, c, hp, habsent, hc, hroom, e⟩
  · exact .of_transfer ht fun t h => by rw [e] at h; cases h; rfl
  · exact .of_transfer ht fun t h => by rw [e] at h; cases h
  · exact .of_transfer ht fun t h => by rw [e] at h; cases h; simp
  · refine (continues_writeBits .command (codeBits c (bits s.nextKey)) ?_ ?_).of_eq e ?_
    · simpa using hr
    · simpa using ht
    · rw [writeByte_emit (s := withAnswers wa ra s) hp habsent hc hroom, learned_withAnswers]
      rfl

theorem continues_closeStream (hr : s.resetInput = none) (ht : s.transfer = none) :
    Continues wa ra closeStream s := by
  rcases closeStream_cases s with ⟨hp, e⟩ | ⟨p, -, -, e⟩ | ⟨p, c, hp, hc, e⟩
  · exact (continues_writeBits .command _ hr ht).of_eq e (closeStream_noCode (s := withAnswers wa ra s) hp)
  · exact .of_transfer ht fun t h => by rw [e] at h; cases h
  · exact (continues_writeBits (s := { s with pending := none }) .command _ hr ht).of_eq e
      (closeStream_code (s := withAnswers wa ra s) hp hc)

theorem continues_readByte (hr : s.resetInput = none) (ht : s.transfer = none) :
    Continues wa ra readByte s := by
  rcases readByte_cases s with ⟨b, -, e⟩ | ⟨-, -, e⟩ | ⟨hb, hend, e⟩
  · exact .of_transfer ht fun t h => by rw [e] at h; cases h; rfl
  · exact .of_transfer ht fun t h => by rw [e] at h; cases h; rfl
  · exact (continues_readBits .command _ _ 0 hr ht).of_eq e (readByte_code (s := withAnswers wa ra s) hb hend)

theorem continues_effect (x : Effect) (hr : s.resetInput = none) (ht : s.transfer = none) :
    Continues wa ra x.run s := by
  cases x with
  | answer r => exact .of_transfer ht fun t h => by cases h; rfl
  | shut => exact .of_transfer ht fun t h => by cases h; rfl
  | write b => exact continues_writeByte b hr ht
  | read => exact continues_readByte hr ht
  | finish => exact (continues_closeStream (s := { s with closed := true }) hr ht).of_eq rfl rfl

theorem continues_command {i : Instr} (h : (commandFields i).isSome = true) (hr : s.resetInput = none)
    (ht : s.transfer = none) : Continues wa ra (exec i) s := by
  obtain ⟨x, -, he⟩ := hasEffect_exec h s
  exact (continues_effect x hr ht).of_eq (he s ⟨rfl, rfl, rfl⟩) (he (withAnswers wa ra s) ⟨rfl, rfl, rfl⟩)

/-! ## Every instruction -/

theorem continues_execClass (c : WireClass) (v w : Nat) (ht : s.transfer = none) :
    Continues wa ra (execClass c v w) s :=
  .of_transfer ht fun _ e => settleDecode_transfer (execClass_next e)

theorem continues_exec (i : Instr) (hr : s.resetInput = none) (ht : s.transfer = none) :
    Continues wa ra (exec i) s := by
  cases i with
  | wireEoi v w | wireFirst v w | wireFirstCorrupt v w | wireKnown v w | wireUnseen v w | wireCorrupt v w =>
    exact continues_execClass _ v w ht
  | skFromByte | skEq | hash | skAppend | skFromBytes | bits => exact .of_transfer ht fun t e => by cases e; rfl
  | learn k => exact .of_transfer ht fun _ e => (learn_leaves k s).settleStep e
  | encodeStep b => exact .of_transfer ht fun _ e => (encodeStep_leaves b s).settleStep e
  | encodeFlush => exact .of_transfer ht fun _ e => (encodeFlush_leaves s).settleStep e
  | decodeStep v w => exact .of_transfer ht fun _ e => settleDecode_transfer e
  | emitCode c w => exact continues_writeBits .internalStep (codeBits c w) hr ht
  | emitEoi => exact (continues_writeBits .internalStep (eoiBits s.nextKey) hr ht).of_eq rfl rfl
  | readCode w => exact continues_readBits .internalStep w w 0 hr ht
  | _ => exact continues_command rfl hr ht

/-- Settles O11: only a bit transfer waits, and what it has written or read so far is kept. -/
theorem heldCommandEndsAsUninterrupted : Obligations.HeldCommandEndsAsUninterrupted :=
  fun i _ t _ _ hr ht e hwait => continues_exec i hr ht t e hwait

end Sys2Proof.Machine
end

section
/-! PROOF of the statement on reset at any time: the step looks at the reset input first, so what waits on
a port does not matter (70_reset_and_hazards.md R280, R285). -/

namespace Sys2Proof.Machine

/-- Settles O7: the step is the reset, which moves the outputs to the record of the past and so keeps the wire. -/
theorem resetAtAnyTime : Obligations.ResetAtAnyTime :=
  fun s m hr => ⟨applyReset m s, step_reset hr, rfl, wireBits_applyReset s m,
    compressOutput_applyReset s m, decompressOutput_applyReset s m⟩

end Sys2Proof.Machine
end
